-- ==== Sys2Proof/Word.lean ====
section
/-! DEFINITION. The words HTB is made of, and the register file indexed by a symbol.

Rule R10: every number of HTB is unsigned, a byte is 8 bits.  Rules R21 to R23: the table register
files FREQ, PRES, LEN and CODE each have one entry per symbol 0 to 255. -/

namespace Sys2Proof

/-- A byte of a buffer or of a blob (R10). -/
abbrev Byte := BitVec 8

/-- A Symbol, "one byte value, domain 0–255" (R7, R16). -/
abbrev Symbol := BitVec 8

/-- A command word, the width of CMD and STATUS (R31, R32, R80). -/
abbrev Word32 := BitVec 32

/-- A byte count, a register read and a FREQ entry: `CNT_W = 64` (R8). -/
abbrev Word64 := BitVec 64

/-- A code value: `CODE_W = 255` bits (R8, R23). -/
abbrev CodeWord := BitVec 255

/-- A tree weight: `WGT_W = 72` bits (R8, R38). -/
abbrev Weight := BitVec 72

/-- A table register file: one entry for each of the 256 symbols, in ascending symbol order (R21 to
R23). -/
structure Table (α : Type) where
  entries : List α
  size : entries.length = 256
  deriving DecidableEq, Repr

/-- The symbols 0 to 255 in ascending order. -/
def allSymbols : List Symbol := (List.range 256).map (BitVec.ofNat 8)

theorem allSymbols_length : allSymbols.length = 256 := by simp [allSymbols]

namespace Table

variable {α : Type}

/-- `T[s]`, the entry of symbol s (R14). -/
def get (t : Table α) (s : Symbol) : α := t.entries[s.toNat]'(t.size.symm ▸ s.isLt)

/-- `T[s] <- v` (R14). -/
def set (t : Table α) (s : Symbol) (v : α) : Table α :=
  ⟨t.entries.set s.toNat v, by rw [List.length_set, t.size]⟩

/-- The table whose entry of symbol s is `f s`. -/
def tabulate (f : Symbol → α) : Table α :=
  ⟨allSymbols.map f, by rw [List.length_map, allSymbols_length]⟩

/-- The table with the same value in every entry. -/
def const (v : α) : Table α := tabulate fun _ => v

/-- The symbols whose entry satisfies a test, in ascending order. -/
def symbolsWhere (t : Table α) (p : α → Bool) : List Symbol :=
  ((allSymbols.zip t.entries).filter fun x => p x.2).map (·.1)

end Table

end Sys2Proof
end

