-- ==== Sys2Proof/Syntax.lean ====
section
/-! DEFINITION. The eleven commands of rule R83, and the names of the registers the host sees (R34). -/

namespace Sys2Proof

/-- The commands of rule R83, in the order of their OP numbers.  "No command word carries a register
number, an immediate, an address or a mode" (R80), so no constructor has an argument. -/
inductive Instr where
  | nop
  | clear
  | analyze
  | build
  | canon
  | pack
  | unpack
  | serialize
  | parse
  | encode
  | decode
  deriving DecidableEq, Repr

/-- All commands, in OP order. -/
def Instr.all : List Instr :=
  [.nop, .clear, .analyze, .build, .canon, .pack, .unpack, .serialize, .parse, .encode, .decode]

/-- The registers of rule R34 by name.  `codew s k` is the k-th 64-bit word of CODE[s] (R36). -/
inductive Reg where
  | cmd
  | status
  | ibufLen
  | obufLen
  | origlen
  | pad
  | nsym
  | payoff
  | version
  | freq (s : Symbol)
  | lentab (s : Symbol)
  | codew (s : Symbol) (k : Fin 4)
  | reserved
  deriving DecidableEq, Repr

end Sys2Proof
end

