-- ==== Sys2Proof/WellFormed.lean ====
section
/-! DEFINITION. What makes a command word well formed (R80, R83, R84).

A command has no operand (R80), so every term of `Instr` is well formed; the two checks there are
concern the 32-bit word: its ZERO field is 0 and its OP field is one of the eleven numbers. -/

namespace Sys2Proof

/-- The OP field `w[7:0]` of a command word (R80). -/
def opField (w : Word32) : Byte := w.extractLsb' 0 8

/-- The ZERO field `w[31:8]` of a command word (R80). -/
def zeroField (w : Word32) : BitVec 24 := w.extractLsb' 8 24

/-- Check 1: the ZERO field "must be 0" (R80). -/
def zeroFieldOk (w : Word32) : Bool := zeroField w == 0

/-- Check 2: the OP field is an OP value of rule R83, 0x00 to 0x0A. -/
def opFieldOk (w : Word32) : Bool := opField w ≤ 0x0A#8

/-- A legal command word: "Every 32-bit word other than 0x00000000 to 0x0000000A is illegal" (R84). -/
def wordWellFormed (w : Word32) : Bool := zeroFieldOk w && opFieldOk w

/-- A command has no field to check (R80). -/
def Instr.wellFormed : Instr → Bool
  | .nop => true
  | .clear => true
  | .analyze => true
  | .build => true
  | .canon => true
  | .pack => true
  | .unpack => true
  | .serialize => true
  | .parse => true
  | .encode => true
  | .decode => true

end Sys2Proof
end

