-- ==== Sys2Proof/Decode.lean ====
section
/-! DEFINITION. Decoding a command word (R81) and encoding a command (R83).

Decoding "looks at nothing but w" (R81) and is total: a word that is no command is rejected by the
name of the check it fails.  Rule R83's table of match and mask is `opTable`. -/

namespace Sys2Proof

/-- Why a word is no command (R81, R84). -/
inductive DecodeError where
  /-- `w[31:8] != 0`. -/
  | zeroFieldNotZero
  /-- `w[7:0]` is 0x0B to 0xFF. -/
  | reservedOp
  deriving DecidableEq, Repr

/-- The command with OP number n (R83). -/
def opOfNumber : Nat → Except DecodeError Instr
  | 0x00 => .ok .nop
  | 0x01 => .ok .clear
  | 0x02 => .ok .analyze
  | 0x03 => .ok .build
  | 0x04 => .ok .canon
  | 0x05 => .ok .pack
  | 0x06 => .ok .unpack
  | 0x07 => .ok .serialize
  | 0x08 => .ok .parse
  | 0x09 => .ok .encode
  | 0x0A => .ok .decode
  | _ => .error .reservedOp

/-- The command a word encodes, or why there is none (R81). -/
def decode (w : Word32) : Except DecodeError Instr :=
  if zeroField w ≠ 0 then .error .zeroFieldNotZero else opOfNumber (opField w).toNat

/-- The word of a command (R83, column "word"). -/
def encode : Instr → Word32
  | .nop => 0x00000000
  | .clear => 0x00000001
  | .analyze => 0x00000002
  | .build => 0x00000003
  | .canon => 0x00000004
  | .pack => 0x00000005
  | .unpack => 0x00000006
  | .serialize => 0x00000007
  | .parse => 0x00000008
  | .encode => 0x00000009
  | .decode => 0x0000000A

/-- A row of the operation table of rule R83. -/
structure OpRow where
  matchWord : Word32
  mask : Word32
  instr : Instr
  deriving DecidableEq, Repr

/-- The operation table of rule R83, every mask 0xFFFFFFFF. -/
def opTable : List OpRow :=
  [ ⟨0x00000000, 0xFFFFFFFF, .nop⟩,
    ⟨0x00000001, 0xFFFFFFFF, .clear⟩,
    ⟨0x00000002, 0xFFFFFFFF, .analyze⟩,
    ⟨0x00000003, 0xFFFFFFFF, .build⟩,
    ⟨0x00000004, 0xFFFFFFFF, .canon⟩,
    ⟨0x00000005, 0xFFFFFFFF, .pack⟩,
    ⟨0x00000006, 0xFFFFFFFF, .unpack⟩,
    ⟨0x00000007, 0xFFFFFFFF, .serialize⟩,
    ⟨0x00000008, 0xFFFFFFFF, .parse⟩,
    ⟨0x00000009, 0xFFFFFFFF, .encode⟩,
    ⟨0x0000000A, 0xFFFFFFFF, .decode⟩ ]

/-- "a word w selects the row when `w & mask = match`" (R83). -/
def OpRow.selects (r : OpRow) (w : Word32) : Bool := w &&& r.mask == r.matchWord

/-- The host's probe: the command this decoder reads from the `nbits` low bits of `w`.  A command is
one 32-bit word, so the bits above `nbits` are 0 and the word is written to CMD whole (R80). -/
def decodeTableWord (nbits w : Nat) : Option Instr :=
  match decode (BitVec.ofNat 32 (w % 2 ^ nbits)) with
  | .ok i => some i
  | .error _ => none

end Sys2Proof
end

