-- ==== Sys2Proof/Config.lean ====
section
/-! DEFINITION. The parameters the spec leaves open (R8, R41) and the free values (R41, 93 U1 to U6).

The three OPEN parameters that a rule reads are a structure of plain data which `State.cfg` holds and
no step changes, so a statement about every state holds for every value of them (log 1).  A value
the spec leaves unspecified is an `opaque` constant applied to a counter of State: nothing can be
proved of what it is (logs 4 to 8). -/

namespace Sys2Proof

/-- The OPEN parameters of rule R8 that some rule reads; no rule reads `PORT_BINDING` (log 17). -/
structure Config where
  /-- `FORMAT_VERSION`, the one recognised value of `format_version` (R8, R33, R88). -/
  formatVersion : Byte
  /-- `IBUF_CAP`, the input buffer's capacity in bytes, 0 to 2^64 - 1 (R8, R40). -/
  ibufCap : Word64
  /-- `OBUF_CAP`, the output buffer's capacity in bytes, 0 to 2^64 - 1 (R8, R40). -/
  obufCap : Word64
  deriving DecidableEq, Repr

/-- The defaults rule R8 gives for the model: version 0x01, both capacities 2^64 - 1 (log 1). -/
def Config.default : Config :=
  { formatVersion := 0x01, ibufCap := 0xFFFFFFFFFFFFFFFF, obufCap := 0xFFFFFFFFFFFFFFFF }

/-- One slot of the tree memory NODE (R38).  `par` is the 9-bit parent slot together with `haspar`. -/
structure NodeSlot where
  slot : Nat
  w : Weight
  alive : Bool
  par : Option Nat
  deriving DecidableEq, Repr, Inhabited

/-- The transient registers of rule R39, which live only inside one command. -/
structure Transient where
  ipos : Word64
  opos : Word64
  acc : Byte
  accn : BitVec 3
  bitpos : BitVec 67
  avail : BitVec 67
  cur : CodeWord
  curn : Byte
  emit : Word64
  shadowPres : List Bool
  shadowLen : List Byte
  shadowNsym : BitVec 9
  shadowOriglen : Word64
  shadowPad : Byte
  shadowPayoff : Word64
  deriving DecidableEq, Repr, Inhabited

/-- FREE VALUE: the byte of IBUF at an address the host has not written since reset, by the number of
the reset and the address (R42, R280, U2; log 4). -/
opaque Config.ibufFill : Nat → Nat → Byte

/-- FREE VALUE: the byte of OBUF at an address at or above OBUF_LEN, by the draw's number and the
address (R62, R256, U1, U2, U6; log 5). -/
opaque Config.obufFill : Nat → Nat → Byte

/-- FREE VALUE: the content of a NODE slot outside BUILD and ENCODE (R38, U3; log 6). -/
opaque Config.nodeFill : Nat → Nat → NodeSlot

/-- FREE VALUE: the transient registers outside the command that uses them (R39, U4; log 7). -/
opaque Config.transientFill : Nat → Transient

/-- FREE VALUE: what a host read other than of STATUS returns while `BUSY = 1` (R286, U5; log 8). -/
opaque Config.busyRead : Nat → Word64

end Sys2Proof
end

