-- ==== Sys2Proof/Machine/State.lean ====
section
/-! DEFINITION. The state of HTB (R20 to R43), its reset (R42, R280), and how a step can stop.

HTB executes no stored program: the host delivers each command by a write to CMD (R25, R31).  What
the host does is therefore the machine's input, a list of events in State which `step` takes one at a
time (log 2). -/

namespace Sys2Proof.Machine

/-- The errors with which a command can end (R251 to R253).  There is no constructor for the reserved
numbers 6, 7, 13, 14, 15, "never produced" (U8). -/
inductive CmdError where
  | unsupportedFormatVersion
  | corruptHeader
  | corruptSymbolTable
  | truncatedPayload
  | invalidPadding
  | illegalCommand
  | noCode
  | badArgument
  | noSpace
  | notReady
  deriving DecidableEq, Repr

/-- The fields of STATUS (R32).  Bits [31:8] are reserved and read as 0. -/
structure Status where
  /-- [0]: a command is running. -/
  busy : Bool
  /-- [1]: the last command has ended. -/
  done : Bool
  /-- [2]: the last command ended in error. -/
  err : Bool
  /-- [3]: codebook valid, `CODE = canon(PRES, LEN)`. -/
  cv : Bool
  /-- [7:4]: the error number, 0 when ERR = 0. -/
  errcode : BitVec 4
  deriving DecidableEq, Repr

/-- A byte memory: the bytes that have been written, by address, strictly rising (log 4). -/
abbrev Memory := List Host.Cell

/-- One thing the world outside HTB does (R31, R34, R43, R60, R280), or the end of a running command. -/
inductive HostEvent where
  /-- A register write.  A write to CMD runs its command to the end before the next event (R292). -/
  | regWrite (index : BitVec 16) (value : Word64)
  /-- A register read. -/
  | regRead (index : BitVec 16)
  /-- A byte written to IBUF. -/
  | ibufWrite (addr : Word64) (value : Byte)
  /-- A byte read from IBUF. -/
  | ibufRead (addr : Word64)
  /-- A byte read from OBUF. -/
  | obufRead (addr : Word64)
  /-- The valid output `OBUF[0 .. OBUF_LEN-1]` read byte by byte (the `obuf` line of R96). -/
  | obufReadValid
  /-- A write of a word to CMD with further events before the command has ended (R285, R286). -/
  | cmdStart (w : Word32)
  /-- The running command ends. -/
  | cmdEnd
  /-- The reset input is asserted and released (R280, R281). -/
  | reset
  deriving DecidableEq, Repr

/-- The machine's state: all that R20 names, with the host's pending events and the model's own
counters. -/
structure State where
  /-- The OPEN parameters (R8, R41); no step changes them (log 1). -/
  cfg : Config
  /-- FREQ[0..255] (R21). -/
  freq : Table Word64
  /-- PRES[0..255] (R22). -/
  pres : Table Bool
  /-- LEN[0..255] (R22). -/
  len : Table Byte
  /-- CODE[0..255] (R23). -/
  code : Table CodeWord
  /-- NSYM (R24). -/
  nsym : BitVec 9
  /-- ORIGLEN (R26). -/
  origlen : Word64
  /-- PAD (R27). -/
  pad : Byte
  /-- PAYOFF (R28). -/
  payoff : Word64
  /-- IBUF_LEN (R29). -/
  ibufLen : Word64
  /-- OBUF_LEN (R30). -/
  obufLen : Word64
  /-- CMD (R31). -/
  cmd : Word32
  /-- STATUS (R32). -/
  status : Status
  /-- IBUF (R40, R61): the bytes the host has written since reset. -/
  ibuf : Memory
  /-- OBUF (R40, R62): the bytes of the last output. -/
  obuf : Memory
  /-- MODEL'S OWN: what the host does next, in order (logs 2, 3). -/
  pending : List HostEvent
  /-- MODEL'S OWN: the values the host has read, the newest first (R293; log 9). -/
  seen : List Word64
  /-- MODEL'S OWN: the number of resets, which names the draw of IBUF's contents (log 4). -/
  resets : Nat
  /-- MODEL'S OWN: the number of the draw of every other unspecified value (logs 5 to 8). -/
  draws : Nat
  deriving DecidableEq, Repr

/-- Why the machine stops. -/
inductive Fault where
  /-- A host access to an IBUF address at or above IBUF_CAP: IBUF has "byte addresses 0 to
  `IBUF_CAP - 1`" (R60), so there is no such byte.  Raised by `ibufWrite` and `ibufRead`; safe. -/
  | ibufAddress
  /-- A host access to an OBUF address at or above OBUF_CAP (R60).  Raised by `obufRead`; safe. -/
  | obufAddress
  deriving DecidableEq, Repr

/-- Why an instruction has no meaning. -/
inductive Refusal where
  /-- An instruction of the opcode table that exec does not model.  Raised by no arm; safe. -/
  | notModelled (mnemonic : String)
  deriving DecidableEq, Repr

/-- Every register at its reset value, all zero (R42), for given parameters; the model's own counters
start at 0 (log 16). -/
def State.resetWith (cfg : Config) : State where
  cfg := cfg
  freq := Table.const 0
  pres := Table.const false
  len := Table.const 0
  code := Table.const 0
  nsym := 0
  origlen := 0
  pad := 0
  payoff := 0
  ibufLen := 0
  obufLen := 0
  cmd := 0
  status := { busy := false, done := false, err := false, cv := false, errcode := 0 }
  ibuf := []
  obuf := []
  pending := []
  seen := []
  resets := 0
  draws := 0

/-- The machine right after reset (R42, R280), with the parameters' defaults (R8). -/
def State.reset : State := State.resetWith Config.default

end Sys2Proof.Machine
end

