-- ==== Sys2Proof/Machine/Flags.lean ====
section
/-! DEFINITION. The flags of HTB: the fields of STATUS, what sets and clears them (R32, R81, R256), and
the error numbers (R251). -/

namespace Sys2Proof.Machine

/-- The error numbers, the value of STATUS.ERRCODE (R251). -/
def CmdError.number : CmdError → BitVec 4
  | .unsupportedFormatVersion => 1
  | .corruptHeader => 2
  | .corruptSymbolTable => 3
  | .truncatedPayload => 4
  | .invalidPadding => 5
  | .illegalCommand => 8
  | .noCode => 9
  | .badArgument => 10
  | .noSpace => 11
  | .notReady => 12

/-- STATUS as the 32-bit register the host reads: bits [31:8] reserved, [7:4] ERRCODE, [3] CV, [2] ERR,
[1] DONE, [0] BUSY (R32). -/
def Status.word (st : Status) : Word32 :=
  (0 : BitVec 24) ++ st.errcode ++ BitVec.ofBool st.cv ++ BitVec.ofBool st.err ++
    BitVec.ofBool st.done ++ BitVec.ofBool st.busy

/-- An accepted CMD write: `DONE <- 0; ERR <- 0; ERRCODE <- 0; BUSY <- 1`; CV is unchanged (R32, R81). -/
def Status.accepted (st : Status) : Status :=
  { st with busy := true, done := false, err := false, errcode := 0 }

/-- The end of a command without error: `BUSY <- 0; DONE <- 1` with ERR and ERRCODE 0 (R81, R241;
log 13). -/
def Status.ended (st : Status) : Status :=
  { st with busy := false, done := true, err := false, errcode := 0 }

/-- The end of a command by `raise E`; CV is unchanged (R32, R256). -/
def Status.failed (e : CmdError) (st : Status) : Status :=
  { st with busy := false, done := true, err := true, errcode := e.number }

/-- `STATUS.CV <- b` (R32). -/
def Status.setCv (b : Bool) (st : Status) : Status := { st with cv := b }

end Sys2Proof.Machine
end

