-- ==== Sys2Proof/Machine/Ops.lean ====
section
/-! DEFINITION. The operations every command shares: the byte memories (R40, R60 to R62), accepting a
command (R81), ending it without error (R81) and with one (`raise`, R256), and reset (R280, R281).

HTB's exceptions are the errors with which a command ends (R250).  `State.raise` is the one way to take
one; the return from one is the next accepted CMD write, which clears ERR and ERRCODE (R259), so it is
`State.accept`. -/

namespace Sys2Proof.Machine

/-! ### Byte memories -/

/-- What an unlisted address reads as: it holds no written value.  Its reader takes a free value
(logs 4, 5). -/
def Memory.unlisted : Option Byte := none

/-- The canonical form: addresses strictly rising, no entry equal to what an unlisted address reads as. -/
abbrev Memory.wf (m : Memory) : Prop :=
  m.Pairwise (fun x y => x.1 < y.1) ∧ ∀ x ∈ m, some x.2 ≠ Memory.unlisted

/-- The byte written at an address, if any. -/
def Memory.lookup : Memory → Nat → Option Byte
  | [], _ => Memory.unlisted
  | (k, v) :: m, a => if a = k then some v else Memory.lookup m a

/-- The memory with one byte written. -/
def Memory.write : Memory → Nat → Byte → Memory
  | [], a, b => [(a, b)]
  | (k, v) :: m, a, b =>
    if a < k then (a, b) :: (k, v) :: m
    else if a = k then (a, b) :: m
    else (k, v) :: Memory.write m a b

/-- Bytes written to consecutive addresses from `a` (R62). -/
def Memory.ofBytesFrom : Nat → List Byte → Memory
  | _, [] => []
  | a, b :: bs => (a, b) :: Memory.ofBytesFrom (a + 1) bs

/-- An output from address 0: "outputs are not appended" (R62). -/
def Memory.ofBytes (bs : List Byte) : Memory := Memory.ofBytesFrom 0 bs

/-! ### Commands begin and end -/

/-- A write of w to CMD is accepted: w is stored and STATUS says that a command runs (R31, R81). -/
def State.accept (w : Word32) (s : State) : State :=
  { s with cmd := w, status := s.status.accepted }

/-- A command ends without error (R81).  Every value the spec leaves unspecified after a command is
drawn anew (logs 5 to 7). -/
def State.finish (s : State) : State :=
  { s with status := s.status.ended, draws := s.draws + 1 }

/-- `raise E`: ERR and ERRCODE say E, `OBUF_LEN <- 0`, the command ends and nothing else changes (R256);
the bytes of OBUF "may have been overwritten and are unspecified", so none is kept (log 5). -/
def State.raise (e : CmdError) (s : State) : State :=
  { s with status := s.status.failed e, obufLen := 0, obuf := [], draws := s.draws + 1 }

/-- A command "commits its register writes only when it can no longer fail" (R256): from the state s in
which it was accepted it gives either the state with its effect or an error. -/
def conclude (s : State) : Except CmdError State → Host.Outcome State Fault Refusal
  | .ok t => .next t.finish
  | .error e => .next (s.raise e)

/-- The command a word encodes ends by `raise IllegalCommand` if there is none (R81, R84). -/
def State.raiseIllegal (s : State) : Host.Outcome State Fault Refusal :=
  conclude s (.error .illegalCommand)

/-! ### Writes a command makes -/

/-- `STATUS.CV <- b` (R32). -/
def State.setCv (b : Bool) (s : State) : State := { s with status := s.status.setCv b }

/-- `OBUF[0 .. n-1] <- bytes; OBUF_LEN <- n` (R62); the bytes above are unspecified. -/
def State.output (bytes : List Byte) (s : State) : State :=
  { s with obuf := Memory.ofBytes bytes, obufLen := BitVec.ofNat 64 bytes.length }

/-! ### The hidden state (R38, R39) -/

/-- NODE between commands: "its content after a command is unspecified" (R38; log 6). -/
def State.node (s : State) (slot : Nat) : NodeSlot := Config.nodeFill s.draws slot

/-- The transient registers between commands: "unspecified after" (R39; log 7). -/
def State.transient (s : State) : Transient := Config.transientFill s.draws

/-! ### Reset -/

/-- The reset input: every register takes its reset value, a running command is abandoned, the buffers'
contents are unspecified (R42, R280, R281).  The parameters and what belongs to the host stay (log 15). -/
def State.applyReset (s : State) : State :=
  { State.resetWith s.cfg with
    pending := s.pending, seen := s.seen, resets := s.resets + 1, draws := s.draws + 1 }

end Sys2Proof.Machine
end

