-- ==== Sys2Proof/Machine/Operands.lean ====
section
/-! DEFINITION. How commands and the host reach their operands: the bytes of IBUF and OBUF, the two
addressing modes of rule R68, big-endian fields (R14, R63, R87), the bit order of streams and codes
(R12, R13, R64, R69), and the host's register map (R34 to R36). -/

namespace Sys2Proof.Machine

/-! ### Buffers -/

/-- `IBUF[a]`: the byte the host wrote there, else an unspecified one (R61, U2; log 4). -/
def State.ibufByte (s : State) (a : Nat) : Byte :=
  (s.ibuf.lookup a).getD (Config.ibufFill s.resets a)

/-- `IBUF[0 .. IBUF_LEN-1]`, the input of every command that reads IBUF (R29, R61). -/
def State.input (s : State) : List Byte := (List.range s.ibufLen.toNat).map s.ibufByte

/-- `IBUF[PAYOFF .. IBUF_LEN-1]`, UNPACK's payload (R171). -/
def State.payload (s : State) : List Byte := s.input.drop s.payoff.toNat

/-- `OBUF[a]` as the host reads it: at and above OBUF_LEN "unspecified values after any command" (R62,
U1; log 5). -/
def State.obufByte (s : State) (a : Nat) : Byte :=
  if a < s.obufLen.toNat then (s.obuf.lookup a).getD (Config.obufFill s.draws a)
  else Config.obufFill s.draws a

/-- `OBUF[0 .. OBUF_LEN-1]`, the valid output (R30, R62). -/
def State.outputBytes (s : State) : List Byte := (List.range s.obufLen.toNat).map s.obufByte

/-- "A command that reads IBUF and finds `IBUF_LEN > IBUF_CAP` raises BadArgument" (R61, R253). -/
def State.needInput (s : State) : Except CmdError Unit :=
  if s.cfg.ibufCap < s.ibufLen then .error .badArgument else .ok ()

/-- "PACK, UNPACK or SERIALIZE was issued with STATUS.CV = 0" raises NotReady (R253). -/
def State.needCodebook (s : State) : Except CmdError Unit :=
  if s.status.cv then .ok () else .error .notReady

/-! ### Fixed-offset access (R68 b) -/

/-- `b[i]`, read only at an index below the length of b. -/
def byteAt (b : List Byte) (i : Nat) : Byte := b.getD i 0

/-- The number whose big-endian bytes are given (R14, R63). -/
def bigEndian (bs : List Byte) : Nat := bs.foldl (fun acc b => 256 * acc + b.toNat) 0

/-- `MemRead(b, a, n)` (R14). -/
def memRead (b : List Byte) (a n : Nat) : Nat := bigEndian ((b.drop a).take n)

/-- The n-byte big-endian form of v, "most significant byte at address a" (R14). -/
def bigEndianBytes (v : Nat) : Nat → List Byte
  | 0 => []
  | n + 1 => BitVec.ofNat 8 (v / 256 ^ n) :: bigEndianBytes v n

/-! ### Bits -/

/-- `bits(v, n)`: `v[n-1], ..., v[0]` (R13). -/
def bitsOf (v : Nat) : Nat → List Bool
  | 0 => []
  | n + 1 => v.testBit n :: bitsOf v n

/-- `val(b)`: "the number whose binary digits are the string b, first bit most significant" (R13). -/
def valOf (bs : List Bool) : Nat := bs.foldl (fun acc b => 2 * acc + b.toNat) 0

/-- The bit stream of a byte sequence, most significant bit of each byte first (R12, R69). -/
def streamBits (p : List Byte) : List Bool := p.flatMap fun b => bitsOf b.toNat 8

/-- The m bytes whose bit stream starts with the given bits: byte j is `val(stream[8j .. 8j+7])`
(R157). -/
def bytesOfBits : Nat → List Bool → List Byte
  | 0, _ => []
  | m + 1, bs => BitVec.ofNat 8 (valOf (bs.take 8)) :: bytesOfBits m (bs.drop 8)

/-- The bit string of a present symbol's code, `bits(CODE[s], LEN[s])` (R23, R144). -/
def codeBits (len : Table Byte) (code : Table CodeWord) (s : Symbol) : List Bool :=
  bitsOf (code.get s).toNat (len.get s).toNat

/-! ### Tables -/

/-- The present symbols in ascending order (R17). -/
def presentSymbols (pres : Table Bool) : List Symbol := pres.symbolsWhere id

/-- The number of present symbols (R24). -/
def presentCount (pres : Table Bool) : Nat := (presentSymbols pres).length

/-! ### The register map (R34) -/

/-- The register at a 16-bit register index (R34). -/
def regAt (index : BitVec 16) : Reg :=
  let i := index.toNat
  if i = 0x0000 then .cmd
  else if i = 0x0001 then .status
  else if i = 0x0002 then .ibufLen
  else if i = 0x0003 then .obufLen
  else if i = 0x0004 then .origlen
  else if i = 0x0005 then .pad
  else if i = 0x0006 then .nsym
  else if i = 0x0007 then .payoff
  else if i = 0x0008 then .version
  else if 0x0100 ≤ i ∧ i < 0x0200 then .freq (BitVec.ofNat 8 (i - 0x0100))
  else if 0x0200 ≤ i ∧ i < 0x0300 then .lentab (BitVec.ofNat 8 (i - 0x0200))
  else if 0x0400 ≤ i ∧ i < 0x0800 then
    .codew (BitVec.ofNat 8 ((i - 0x0400) / 4)) (Fin.ofNat 4 (i - 0x0400))
  else .reserved

/-- `LENTAB[s] = {PRES[s], LEN[s]}`, 9 bits (R22, R34). -/
def State.lentab (s : State) (sym : Symbol) : BitVec 9 :=
  BitVec.ofBool (s.pres.get sym) ++ s.len.get sym

/-- `CODEW[s][k]`: "bits `[64*k + 63 : 64*k]` of `zext_256(CODE[s])`" (R36). -/
def State.codew (s : State) (sym : Symbol) (k : Fin 4) : Word64 :=
  ((s.code.get sym).setWidth 256).extractLsb' (64 * k.val) 64

/-- A register's value "zero-extended to 64 bits"; a reserved index reads 0 (R34, R243). -/
def State.readReg (s : State) : Reg → Word64
  | .cmd => s.cmd.setWidth 64
  | .status => s.status.word.setWidth 64
  | .ibufLen => s.ibufLen
  | .obufLen => s.obufLen
  | .origlen => s.origlen
  | .pad => s.pad.setWidth 64
  | .nsym => s.nsym.setWidth 64
  | .payoff => s.payoff
  | .version => s.cfg.formatVersion.setWidth 64
  | .freq sym => s.freq.get sym
  | .lentab sym => (s.lentab sym).setWidth 64
  | .codew sym k => s.codew sym k
  | .reserved => 0

/-- A host register write other than to CMD: a writable register stores the value's low bits; a write to
a read-only or reserved index "changes nothing" (R34, R35, R43, R243). -/
def State.writeReg (s : State) (v : Word64) : Reg → State
  | .cmd => s
  | .status => s
  | .ibufLen => { s with ibufLen := v }
  | .obufLen => s
  | .origlen => { s with origlen := v }
  | .pad => { s with pad := v.setWidth 8 }
  | .nsym => s
  | .payoff => { s with payoff := v }
  | .version => s
  | .freq sym => { s with freq := s.freq.set sym v }
  | .lentab _ => s
  | .codew _ _ => s
  | .reserved => s

end Sys2Proof.Machine
end

