-- ==== Sys2Proof/Machine/Control.lean ====
section
/-! DEFINITION. The control commands NOP and CLEAR (R240 to R242). -/

namespace Sys2Proof.Machine

/-- NOP: nothing but the end of a command without error (R241). -/
def execNop (s : State) : Host.Outcome State Fault Refusal := conclude s (.ok s)

/-- What CLEAR writes: "all to 0; CV to 0"; IBUF, IBUF_LEN and the bytes of OBUF are left alone (R242). -/
def clearEffect (s : State) : State :=
  State.setCv false
    { s with
      freq := Table.const 0, pres := Table.const false, len := Table.const 0, code := Table.const 0,
      nsym := 0, origlen := 0, pad := 0, payoff := 0, obufLen := 0 }

/-- CLEAR (R242). -/
def execClear (s : State) : Host.Outcome State Fault Refusal := conclude s (.ok (clearEffect s))

end Sys2Proof.Machine
end

