-- ==== Sys2Proof/Machine/Codebook.lean ====
section
/-! DEFINITION. The canonical codebook encoder: `canon` (R141 to R143) and CANON (R145). -/

namespace Sys2Proof.Machine

/-- The order "(code length ascending, symbol value ascending)" (R141). -/
abbrev canonLe (len : Table Byte) (a b : Symbol) : Prop :=
  len.get a < len.get b ∨ (len.get a = len.get b ∧ a ≤ b)

/-- The present symbols in the order of rule R141. -/
def canonOrder (pres : Table Bool) (len : Table Byte) : List Symbol :=
  (presentSymbols pres).insertionSort (canonLe len)

/-- `code <- (code + 1) << (L[o[j]] - L[o[j-1]])`, for the symbols after one of length `prev` and code
value `code` (R142). -/
def assignAfter (len : Table Byte) : Nat → Nat → List Symbol → List (Symbol × Nat)
  | _, _, [] => []
  | prev, code, s :: rest =>
    let l := (len.get s).toNat
    let c := (code + 1) <<< (l - prev)
    (s, c) :: assignAfter len l c rest

/-- The code values in order, "starting from code value 0" (R142). -/
def assignCodes (len : Table Byte) : List Symbol → List (Symbol × Nat)
  | [] => []
  | s :: rest => (s, 0) :: assignAfter len (len.get s).toNat 0 rest

/-- `canon(P, L)` (R143).  The values are computed exactly and fit 255 bits whenever the Kraft sum is at
most 1 (R146, R247 d; log 10). -/
def canon (pres : Table Bool) (len : Table Byte) : Table CodeWord :=
  let codes := assignCodes len (canonOrder pres len)
  Table.tabulate fun s => BitVec.ofNat 255 ((codes.lookup s).getD 0)

/-- What CANON writes: CODE, and CV set (R145). -/
def canonEffect (s : State) : State := State.setCv true { s with code := canon s.pres s.len }

/-- CANON (R145). -/
def execCanon (s : State) : Host.Outcome State Fault Refusal := conclude s (.ok (canonEffect s))

end Sys2Proof.Machine
end

