-- ==== Sys2Proof/Machine/Unpacker.lean ====
section
/-! DEFINITION. The bit unpacker: `unpackbits` (R173) and UNPACK (R176).

The meaningful bits of a payload (R172) are walked as the list of its first `avail` stream bits: the
list is empty exactly when `pos >= avail`. -/

namespace Sys2Proof.Machine

/-- A present symbol with its code: what the match test of rule R173 looks at. -/
structure CodeEntry where
  sym : Symbol
  len : Nat
  code : Nat
  deriving DecidableEq, Repr

/-- The codebook: one entry for each present symbol (R171). -/
def codebook (pres : Table Bool) (len : Table Byte) (code : Table CodeWord) : List CodeEntry :=
  (presentSymbols pres).map fun s =>
    { sym := s, len := (len.get s).toNat, code := (code.get s).toNat }

/-- The inner loop of rule R173 from `cur` and `k`: one bit at a time until some present symbol has
`L[s] = k` and `C[s] = cur`; none if the bits run out first (R177, R180). -/
def matchCode (book : List CodeEntry) : Nat → Nat → List Bool → Option (Symbol × List Bool)
  | _, _, [] => none
  | cur, k, b :: bits =>
    let cur' := 2 * cur + b.toNat
    match book.find? fun e => e.len == k + 1 && e.code == cur' with
    | some e => some (e.sym, bits)
    | none => matchCode book cur' (k + 1) bits

/-- `count` more symbols with two or more present, `e` symbols already written; "For one symbol e,
TruncatedPayload is tested before NoSpace" (R173, R176). -/
def unpackMany (cap : Nat) (book : List CodeEntry) :
    Nat → Nat → List Bool → Except CmdError (List Byte)
  | _, 0, _ => .ok []
  | e, count + 1, bits =>
    match matchCode book 0 0 bits with
    | none => .error .truncatedPayload
    | some (s, rest) =>
      if cap ≤ e then .error .noSpace
      else match unpackMany cap book (e + 1) count rest with
        | .ok out => .ok (s :: out)
        | .error x => .error x

/-- `count` more symbols with the one symbol s₀ of code length l, from bit `pos` of `avail`: the bits'
values are not compared (R178). -/
def unpackOne (cap : Nat) (s₀ : Symbol) (l avail : Nat) :
    Nat → Nat → Nat → Except CmdError (List Byte)
  | _, 0, _ => .ok []
  | e, count + 1, pos =>
    if pos + l > avail then .error .truncatedPayload
    else if cap ≤ e then .error .noSpace
    else match unpackOne cap s₀ l avail (e + 1) count (pos + l) with
      | .ok out => .ok (s₀ :: out)
      | .error x => .error x

/-- `unpackbits(p, P, L, C, nsym, pad, count)` writing to a buffer of `cap` bytes (R173, R176).  The pure
function of rule R173 is the case of a cap that no symbol reaches, `count ≤ cap`.  The case of no present
symbol with `nsym = 1` is ruled out by INV1 (log 12). -/
def unpackbits (cap : Nat) (p : List Byte) (pres : Table Bool) (len : Table Byte)
    (code : Table CodeWord) (nsym pad count : Nat) : Except CmdError (List Byte) :=
  if nsym = 0 ∧ count > 0 then .error .corruptSymbolTable
  else if pad > 7 then .error .invalidPadding
  else if p.length = 0 ∧ pad > 0 then .error .invalidPadding
  else
    let avail := 8 * p.length - pad
    if nsym = 1 then
      match presentSymbols pres with
      | s₀ :: _ => unpackOne cap s₀ (len.get s₀).toNat avail 0 count 0
      | [] => if count > 0 then .error .corruptSymbolTable else .ok []
    else unpackMany cap (codebook pres len code) 0 count ((streamBits p).take avail)

/-- What UNPACK writes: OBUF and OBUF_LEN; CV, PAD, ORIGLEN, PAYOFF are not changed (R176). -/
def unpackEffect (s : State) : Except CmdError State := do
  s.needCodebook
  s.needInput
  if s.ibufLen < s.payoff then .error .badArgument
  else do
    let out ← unpackbits s.cfg.obufCap.toNat s.payload s.pres s.len s.code s.nsym.toNat s.pad.toNat
      s.origlen.toNat
    return { s.output out with obufLen := s.origlen }

/-- UNPACK (R176). -/
def execUnpack (s : State) : Host.Outcome State Fault Refusal := conclude s (unpackEffect s)

end Sys2Proof.Machine
end

