-- ==== Sys2Proof/Machine/Deserializer.lean ====
section
/-! DEFINITION. The blob deserializer: `parse` (R212), PARSE (R213) and DECODE (R219, R220). -/

namespace Sys2Proof.Machine

/-- What `parse` returns: `(P, L, c, N, pad, off)` (R212). -/
structure Parsed where
  pres : Table Bool
  len : Table Byte
  nsym : Nat
  origlen : Nat
  pad : Nat
  payoff : Nat
  deriving DecidableEq, Repr

/-- The symbol table's n entries from offset `off` on, into the shadow tables P and L; a symbol that is
already there is a duplicate (R212, R214). -/
def readTable (b : List Byte) : Nat → Nat → Table Bool → Table Byte →
    Except CmdError (Table Bool × Table Byte)
  | 0, _, p, l => .ok (p, l)
  | n + 1, off, p, l =>
    let s := byteAt b off
    if p.get s then .error .corruptSymbolTable
    else readTable b n (off + 2) (p.set s true) (l.set s (byteAt b (off + 1)))

/-- The Kraft sum in integers, the sum over present s of `2^(255 - L[s])`, to compare with 2^255
(R17, R215). -/
def kraftSum (pres : Table Bool) (len : Table Byte) : Nat :=
  ((presentSymbols pres).map fun s => 2 ^ (255 - (len.get s).toNat)).sum

/-- The legal code-length combinations of c entries (R90, R215). -/
def legalLengths (c : Nat) (pres : Table Bool) (len : Table Byte) : Bool :=
  !(c == 1 && (presentSymbols pres).any fun s => (len.get s).toNat > 1) &&
  !(c ≥ 2 && (presentSymbols pres).any fun s => len.get s == 0) &&
  !(c ≥ 2 && kraftSum pres len != 2 ^ 255)

/-- The fields after the symbol table of c entries, and their checks (R212). -/
def parseFixed (b : List Byte) (c : Nat) (p : Table Bool) (l : Table Byte) : Except CmdError Parsed :=
  if b.length < 12 + 2 * c then .error .corruptHeader
  else
    let n := memRead b (3 + 2 * c) 8
    let pad := (byteAt b (11 + 2 * c)).toNat
    if c = 0 ∧ n > 0 then .error .corruptSymbolTable
    else if pad > 7 then .error .invalidPadding
    else if b.length - (12 + 2 * c) = 0 ∧ pad > 0 then .error .invalidPadding
    else .ok { pres := p, len := l, nsym := c, origlen := n, pad := pad, payoff := 12 + 2 * c }

/-- `parse(b)`: the checks "in the field order" of the blob, the first that fails giving the error
(R211, R212). -/
def parse (version : Byte) (b : List Byte) : Except CmdError Parsed :=
  if b.length < 1 then .error .corruptHeader
  else if byteAt b 0 ≠ version then .error .unsupportedFormatVersion
  else if b.length < 3 then .error .corruptHeader
  else
    let c := memRead b 1 2
    if c > 256 then .error .corruptHeader
    else if b.length < 3 + 2 * c then .error .corruptSymbolTable
    else match readTable b c 3 (Table.const false) (Table.const 0) with
      | .error e => .error e
      | .ok (p, l) => if legalLengths c p l then parseFixed b c p l else .error .corruptSymbolTable

/-- The registers PARSE and DECODE load from a parsed blob (R213, R220). -/
def State.loadParsed (r : Parsed) (s : State) : State :=
  { s with
    pres := r.pres, len := r.len, nsym := BitVec.ofNat 9 r.nsym,
    origlen := BitVec.ofNat 64 r.origlen, pad := BitVec.ofNat 8 r.pad,
    payoff := BitVec.ofNat 64 r.payoff }

/-- What PARSE writes: the tables and scalars; CODE and CV are cleared (R213). -/
def parseEffect (s : State) : Except CmdError State := do
  s.needInput
  let r ← parse s.cfg.formatVersion s.input
  return State.setCv false { s.loadParsed r with code := Table.const 0 }

/-- PARSE (R213). -/
def execParse (s : State) : Host.Outcome State Fault Refusal := conclude s (parseEffect s)

/-- What DECODE writes (R220): it reads nothing but the input and the parameters (R221). -/
def decodeEffect (s : State) : Except CmdError State := do
  s.needInput
  let b := s.input
  let r ← parse s.cfg.formatVersion b
  let c := canon r.pres r.len
  let x ← unpackbits s.cfg.obufCap.toNat (b.drop r.payoff) r.pres r.len c r.nsym r.pad r.origlen
  return State.setCv true { (s.loadParsed r).output x with code := c }

/-- DECODE (R220). -/
def execDecode (s : State) : Host.Outcome State Fault Refusal := conclude s (decodeEffect s)

end Sys2Proof.Machine
end

