-- ==== Sys2Proof/Machine/Analyzer.lean ====
section
/-! DEFINITION. The frequency analyzer: `count` (R111) and ANALYZE (R112). -/

namespace Sys2Proof.Machine

/-- `count(d)`: `F[s]` is "the number of indices i in 0..n-1 with `d[i] = s`" (R111).  It fits 64 bits
because an input has at most 2^64 - 1 bytes (R113). -/
def count (d : List Byte) : Table Word64 := Table.tabulate fun s => BitVec.ofNat 64 (d.count s)

/-- One turn of ANALYZE's loop: `F[s] <- F[s] + 1` (R112). -/
def countByte (f : Table Word64) (s : Byte) : Table Word64 := f.set s (f.get s + 1)

/-- ANALYZE's loop over the input in ascending order, from the all-zero table (R112). -/
def countLoop (d : List Byte) : Table Word64 := d.foldl countByte (Table.const 0)

/-- What ANALYZE writes: FREQ and ORIGLEN; CV is not changed (R112). -/
def analyzeEffect (s : State) : Except CmdError State := do
  s.needInput
  return { s with freq := countLoop s.input, origlen := s.ibufLen }

/-- ANALYZE (R112). -/
def execAnalyze (s : State) : Host.Outcome State Fault Refusal := conclude s (analyzeEffect s)

end Sys2Proof.Machine
end

