-- ==== Sys2Proof/Machine/Packer.lean ====
section
/-! DEFINITION. The bit packer: `packbits` (R157) and PACK (R158). -/

namespace Sys2Proof.Machine

/-- The concatenated codes of a byte sequence (R156, R157). -/
def codeStream (len : Table Byte) (code : Table CodeWord) (d : List Byte) : List Bool :=
  d.flatMap (codeBits len code)

/-- The number of zero bits that complete the last byte: `(8 - (T mod 8)) mod 8` (R157, R159). -/
def padOf (t : Nat) : Nat := (8 - t % 8) % 8

/-- `packbits(d, P, L, C)` for a d whose every byte is present: the payload and the padding count
(R157). -/
def packbits (len : Table Byte) (code : Table CodeWord) (d : List Byte) : List Byte × Nat :=
  let stream := codeStream len code d
  let pad := padOf stream.length
  (bytesOfBits ((stream.length + pad) / 8) (stream ++ List.replicate pad false), pad)

/-- The packer's registers (R39): the bytes written so far (OPOS is their number), ACC and ACCN. -/
structure PackState where
  out : List Byte
  acc : Byte
  accn : Nat
  deriving DecidableEq, Repr

/-- `ACC[i] <- b`. -/
def setAccBit (acc : Byte) (i : Nat) (b : Bool) : Byte :=
  if b then acc ||| (1#8 <<< i) else acc &&& ~~~(1#8 <<< i)

/-- One turn of the inner loop of PACK: a bit enters ACC, and a full ACC goes to OBUF (R158). -/
def packBit (cap : Nat) (p : PackState) (b : Bool) : Except CmdError PackState :=
  let acc := setAccBit p.acc (7 - p.accn) b
  if p.accn + 1 = 8 then
    if cap ≤ p.out.length then .error .noSpace else .ok { out := p.out ++ [acc], acc := 0, accn := 0 }
  else .ok { p with acc := acc, accn := p.accn + 1 }

/-- One turn of the outer loop of PACK: the code of one input byte (R158). -/
def packSymbol (cap : Nat) (pres : Table Bool) (len : Table Byte) (code : Table CodeWord)
    (p : PackState) (s : Symbol) : Except CmdError PackState :=
  if pres.get s then (codeBits len code s).foldlM (packBit cap) p else .error .noCode

/-- The end of PACK: a partly filled ACC goes to OBUF; the answer is the output and `pad` (R158). -/
def packFlush (cap : Nat) (p : PackState) : Except CmdError (List Byte × Nat) :=
  if p.accn > 0 then
    if cap ≤ p.out.length then .error .noSpace else .ok (p.out ++ [p.acc], 8 - p.accn)
  else .ok (p.out, 0)

/-- PACK's loops over the input d (R158). -/
def packLoop (cap : Nat) (pres : Table Bool) (len : Table Byte) (code : Table CodeWord)
    (d : List Byte) : Except CmdError (List Byte × Nat) := do
  let p ← d.foldlM (packSymbol cap pres len code) { out := [], acc := 0, accn := 0 }
  packFlush cap p

/-- What PACK writes: OBUF, OBUF_LEN, PAD (R158). -/
def packEffect (s : State) : Except CmdError State := do
  s.needCodebook
  s.needInput
  let r ← packLoop s.cfg.obufCap.toNat s.pres s.len s.code s.input
  return { s.output r.1 with pad := BitVec.ofNat 8 r.2 }

/-- PACK (R158). -/
def execPack (s : State) : Host.Outcome State Fault Refusal := conclude s (packEffect s)

end Sys2Proof.Machine
end

