-- ==== Sys2Proof/Machine/TreeBuilder.lean ====
section
/-! DEFINITION. The Huffman tree builder: the tree memory at work (R121 to R125), `lengths` (R126) and
BUILD (R127).

The slots that BUILD has created stand in a list in ascending slot order; every other slot of NODE is
not read. -/

namespace Sys2Proof.Machine

/-- The slots of NODE created so far, in ascending slot order (R38). -/
abbrev Tree := List NodeSlot

/-- "node x comes before node y when `(x.w, x.slot) < (y.w, y.slot)` in lexicographic order" (R122). -/
def nodePrecedes (x y : NodeSlot) : Bool := x.w < y.w || (x.w == y.w && x.slot < y.slot)

/-- The first node of a list in the order of rule R122. -/
def firstNode : List NodeSlot → Option NodeSlot
  | [] => none
  | x :: xs =>
    match firstNode xs with
    | none => some x
    | some y => if nodePrecedes x y then some x else some y

/-- The alive nodes: those in the priority structure (R38). -/
def Tree.aliveNodes (t : Tree) : List NodeSlot := t.filter (·.alive)

/-- `x.alive <- 0` for the node in a slot (R123). -/
def Tree.kill (t : Tree) (slot : Nat) : Tree :=
  t.map fun x => if x.slot = slot then { x with alive := false } else x

/-- `x.par <- i; x.haspar <- 1` for the node in a slot (R123). -/
def Tree.setPar (t : Tree) (slot i : Nat) : Tree :=
  t.map fun x => if x.slot = slot then { x with par := some i } else x

/-- The merge step with internal node number k: "remove the two lowest-weight nodes, merge into a new
internal node whose weight is their sum, reinsert" (R123).  With fewer than two alive nodes there is
no step. -/
def Tree.merge (t : Tree) (k : Nat) : Tree :=
  match firstNode t.aliveNodes with
  | none => t
  | some a =>
    let t₁ := t.kill a.slot
    match firstNode t₁.aliveNodes with
    | none => t
    | some b =>
      let i := 256 + k
      ((t₁.kill b.slot).setPar a.slot i).setPar b.slot i ++
        [{ slot := i, w := a.w + b.w, alive := true, par := none }]

/-- "While more than one node is alive" (R123), at most `fuel` times: "n leaves take exactly n - 1
steps". -/
def Tree.mergeAll : Nat → Nat → Tree → Tree
  | 0, _, t => t
  | fuel + 1, k, t =>
    if t.aliveNodes.length > 1 then Tree.mergeAll fuel (k + 1) (t.merge k) else t

/-- The parent slot of a slot, if it has one (R38). -/
def Tree.parentOf (t : Tree) (slot : Nat) : Option Nat :=
  (t.find? fun x => x.slot == slot).bind (·.par)

/-- "The depth of a leaf is the number of `par` links from it to the root" (R125), followed at most
`fuel` times. -/
def Tree.depth (t : Tree) : Nat → Nat → Nat
  | 0, _ => 0
  | fuel + 1, slot =>
    match t.parentOf slot with
    | none => 0
    | some p => Tree.depth t fuel p + 1

/-- `NODE_MAX = 511` slots (R8, R9): no path of `par` links is longer. -/
def nodeMax : Nat := 511

/-- The symbols in a frequency table: those with `F[s] > 0` (R111, R121). -/
def countedSymbols (f : Table Word64) : List Symbol := f.symbolsWhere (· != 0)

/-- The leaf of symbol s: slot s, weight `zext_72(FREQ[s])` (R121). -/
def leafOf (f : Table Word64) (s : Symbol) : NodeSlot :=
  { slot := s.toNat, w := (f.get s).setWidth 72, alive := true, par := none }

/-- The leaves of a frequency table, before any merge step (R121). -/
def leavesOf (f : Table Word64) : Tree := (countedSymbols f).map (leafOf f)

/-- The tree after the last merge step (R123, R124). -/
def treeOf (f : Table Word64) : Tree := Tree.mergeAll 255 0 (leavesOf f)

/-- `lengths(F)` (R126): which symbols have a code, and its length.  One symbol alone has length 1, not
the depth 0 of a lone leaf (R129). -/
def lengths (f : Table Word64) : Table Bool × Table Byte :=
  match countedSymbols f with
  | [] => (Table.const false, Table.const 0)
  | [s₀] => (Table.tabulate fun s => s == s₀, Table.tabulate fun s => if s = s₀ then 1 else 0)
  | _ =>
    let t := treeOf f
    (Table.tabulate fun s => f.get s != 0,
     Table.tabulate fun s =>
       if f.get s = 0 then 0 else BitVec.ofNat 8 (t.depth nodeMax s.toNat))

/-- PRES, LEN and NSYM take new code lengths; CODE and CV are cleared (R127, R213). -/
def State.loadLengths (pres : Table Bool) (len : Table Byte) (s : State) : State :=
  State.setCv false
    { s with
      pres := pres, len := len, nsym := BitVec.ofNat 9 (presentCount pres), code := Table.const 0 }

/-- What BUILD writes (R127): it is total on every content of FREQ. -/
def buildEffect (s : State) : State := s.loadLengths (lengths s.freq).1 (lengths s.freq).2

/-- BUILD (R127). -/
def execBuild (s : State) : Host.Outcome State Fault Refusal := conclude s (.ok (buildEffect s))

end Sys2Proof.Machine
end

