-- ==== Sys2Proof/Machine/Serializer.lean ====
section
/-! DEFINITION. The blob serializer: `blob` (R192), SERIALIZE (R194) and ENCODE (R197, R198). -/

namespace Sys2Proof.Machine

/-- The table entries: "all s with `PRES[s] = 1`, smallest s first, each as the byte s followed by the
byte `LEN[s]`" (R191). -/
def tableBytes (pres : Table Bool) (len : Table Byte) : List Byte :=
  (presentSymbols pres).flatMap fun s => [s, len.get s]

/-- `blob(V, P, L, nsym, N, pad, q)` (R85, R192). -/
def blob (v : Byte) (pres : Table Bool) (len : Table Byte) (nsym n pad : Nat) (q : List Byte) :
    List Byte :=
  [v] ++ bigEndianBytes nsym 2 ++ tableBytes pres len ++ bigEndianBytes n 8 ++
    [BitVec.ofNat 8 pad] ++ q

/-- What SERIALIZE writes: OBUF, OBUF_LEN, ORIGLEN, PAD (R194). -/
def serializeEffect (s : State) : Except CmdError State := do
  s.needCodebook
  s.needInput
  let d := s.input
  if d.any fun b => !s.pres.get b then .error .noCode
  else
    let r := packbits s.len s.code d
    let out := blob s.cfg.formatVersion s.pres s.len s.nsym.toNat s.ibufLen.toNat r.2 r.1
    if out.length > s.cfg.obufCap.toNat then .error .noSpace
    else return { s.output out with origlen := s.ibufLen, pad := BitVec.ofNat 8 r.2 }

/-- SERIALIZE (R194). -/
def execSerialize (s : State) : Host.Outcome State Fault Refusal := conclude s (serializeEffect s)

/-- What ENCODE writes (R198): it reads nothing but the input and the parameters (R199). -/
def encodeEffect (s : State) : Except CmdError State := do
  s.needInput
  let d := s.input
  let f := count d
  let pl := lengths f
  let c := canon pl.1 pl.2
  let r := packbits pl.2 c d
  let nsym := presentCount pl.1
  let out := blob s.cfg.formatVersion pl.1 pl.2 nsym s.ibufLen.toNat r.2 r.1
  if out.length > s.cfg.obufCap.toNat then .error .noSpace
  else
    return State.setCv true
      { s.output out with
        freq := f, origlen := s.ibufLen, pres := pl.1, len := pl.2, nsym := BitVec.ofNat 9 nsym,
        code := c, pad := BitVec.ofNat 8 r.2 }

/-- ENCODE (R198). -/
def execEncode (s : State) : Host.Outcome State Fault Refusal := conclude s (encodeEffect s)

end Sys2Proof.Machine
end

