-- ==== Sys2Proof/Machine/Port.lean ====
section
/-! DEFINITION. The host's side of HTB: the effect of each host event (R34, R35, R43, R61, R62, R243),
the running of a command (R81, R292), and what a host access meets while a command runs (R281, R285,
R286; log 14). -/

namespace Sys2Proof.Machine

/-- The command in CMD runs to its end; an illegal word ends at once by IllegalCommand (R81, R84). -/
def State.runCommand (s : State) : Host.Outcome State Fault Refusal :=
  match decode s.cmd with
  | .ok i => exec i s
  | .error _ => s.raiseIllegal

/-- The host reads a value (R293; log 9). -/
def State.observe (v : Word64) (s : State) : State := { s with seen := v :: s.seen }

/-- A host read other than of STATUS while BUSY = 1 "returns an unspecified value" (R286; log 8). -/
def State.observeBusy (s : State) : State :=
  { s.observe (Config.busyRead s.draws) with draws := s.draws + 1 }

/-- A register write: ignored while BUSY = 1 (R285, R286); to CMD, it runs the command of the word's low
32 bits (R31, R81, R243); else R243. -/
def hostRegWrite (index : BitVec 16) (v : Word64) (s : State) : Host.Outcome State Fault Refusal :=
  if s.status.busy then .next s
  else match regAt index with
    | .cmd => (s.accept (v.setWidth 32)).runCommand
    | r => .next (s.writeReg v r)

/-- A register read; while BUSY = 1 only STATUS has a specified value (R243, R286). -/
def hostRegRead (index : BitVec 16) (s : State) : Host.Outcome State Fault Refusal :=
  if s.status.busy && regAt index != .status then .next s.observeBusy
  else .next (s.observe (s.readReg (regAt index)))

/-- A byte written to IBUF, ignored while BUSY = 1 (R61, R286); there is no address at or above
IBUF_CAP (R60; log 11). -/
def hostIbufWrite (addr : Word64) (b : Byte) (s : State) : Host.Outcome State Fault Refusal :=
  if s.status.busy then .next s
  else if s.cfg.ibufCap ≤ addr then .fault .ibufAddress
  else .next { s with ibuf := s.ibuf.write addr.toNat b }

/-- A byte read from IBUF (R43, R60). -/
def hostIbufRead (addr : Word64) (s : State) : Host.Outcome State Fault Refusal :=
  if s.status.busy then .next s.observeBusy
  else if s.cfg.ibufCap ≤ addr then .fault .ibufAddress
  else .next (s.observe ((s.ibufByte addr.toNat).setWidth 64))

/-- A byte read from OBUF (R43, R60, R62). -/
def hostObufRead (addr : Word64) (s : State) : Host.Outcome State Fault Refusal :=
  if s.status.busy then .next s.observeBusy
  else if s.cfg.obufCap ≤ addr then .fault .obufAddress
  else .next (s.observe ((s.obufByte addr.toNat).setWidth 64))

/-- The valid output, read byte by byte in ascending order (R30, R96); while BUSY = 1 one unspecified
value (log 8). -/
def hostObufReadValid (s : State) : Host.Outcome State Fault Refusal :=
  if s.status.busy then .next s.observeBusy
  else .next (s.outputBytes.foldl (fun t b => t.observe (b.setWidth 64)) s)

/-- A CMD write that further events follow before the command ends: it is accepted, or ignored while
BUSY = 1 (R285); an illegal word "ends at once" (R81; log 3). -/
def hostCmdStart (w : Word32) (s : State) : Host.Outcome State Fault Refusal :=
  if s.status.busy then .next s
  else match decode w with
    | .ok _ => .next (s.accept w)
    | .error _ => (s.accept w).raiseIllegal

/-- The running command, if there is one, ends (R81, R246). -/
def engineEnd (s : State) : Host.Outcome State Fault Refusal :=
  if s.status.busy then s.runCommand else .next s

/-- The effect of one event. -/
def hostEvent : HostEvent → State → Host.Outcome State Fault Refusal
  | .regWrite index v, s => hostRegWrite index v s
  | .regRead index, s => hostRegRead index s
  | .ibufWrite addr b, s => hostIbufWrite addr b s
  | .ibufRead addr, s => hostIbufRead addr s
  | .obufRead addr, s => hostObufRead addr s
  | .obufReadValid, s => hostObufReadValid s
  | .cmdStart w, s => hostCmdStart w s
  | .cmdEnd, s => engineEnd s
  | .reset, s => .next s.applyReset

/-- The next event takes place; with no event pending a running command ends by itself (R246), and an
idle machine stays as it is (R280; logs 2, 3). -/
def nextEvent (s : State) : Host.Outcome State Fault Refusal :=
  match s.pending with
  | [] => engineEnd s
  | e :: rest => hostEvent e { s with pending := rest }

/-- The command word `w` placed so that the next step delivers it: the write to CMD is the first pending
event, and no command is running (log 2). -/
def State.placeCommand (s : State) (w : Word32) : State :=
  { s with
    pending := .regWrite 0x0000 (w.setWidth 64) :: s.pending,
    status := { s.status with busy := false } }

end Sys2Proof.Machine
end

