-- ==== Sys2Proof/Machine/Step.lean ====
section
/-! DEFINITION. One step of HTB. -/

namespace Sys2Proof.Machine

/-- One step: the next event of the host takes place (R292). -/
def step (s : State) : Host.Outcome State Fault Refusal := nextEvent s

/-- The host's probe: s with the `nbits` low bits of `w` as the command word that the next step takes. -/
def State.withFetchWord (s : State) (nbits w : Nat) : State :=
  s.placeCommand (BitVec.ofNat 32 (w % 2 ^ nbits))

end Sys2Proof.Machine
end

