-- ==== Sys2Proof/Machine/HostProgram.lean ====
section
/-! DEFINITION. The host-program notation of rules R96 and R97. -/

namespace Sys2Proof.Machine

/-- The mnemonics of a `cmd` line: the commands, and the pseudo-commands of rule R97. -/
inductive Mnemonic where
  | instr (i : Instr)
  | compress
  | decompress
  deriving DecidableEq, Repr

/-- One line of a host program (R96). -/
inductive HostLine where
  | ibuf (bytes : List Byte)
  | wr (index : BitVec 16) (value : Word64)
  | cmd (m : Mnemonic)
  | rd (index : BitVec 16)
  | obuf
  deriving DecidableEq, Repr

/-- "`COMPRESS` is ENCODE and `DECOMPRESS` is DECODE" (R97). -/
def mnemonicInstr : Mnemonic → Instr
  | .instr i => i
  | .compress => .encode
  | .decompress => .decode

/-- The host actions of one line (R96).  A command is one step (R292), so the `cmd` line's reading of
STATUS "until DONE = 1" reads it once (log 2). -/
def lineEvents : HostLine → List HostEvent
  | .ibuf bytes =>
    bytes.zipIdx.map (fun x => .ibufWrite (BitVec.ofNat 64 x.2) x.1) ++
      [.regWrite 0x0002 (BitVec.ofNat 64 bytes.length)]
  | .wr index v => [.regWrite index v]
  | .cmd m => [.regWrite 0x0000 ((encode (mnemonicInstr m)).setWidth 64), .regRead 0x0001]
  | .rd index => [.regRead index]
  | .obuf => [.obufReadValid]

/-- A host program waits to run (R96, R293). -/
def State.loadProgram (s : State) (prog : List HostLine) : State :=
  { s with pending := s.pending ++ prog.flatMap lineEvents }

end Sys2Proof.Machine
end

