-- ==== Sys2Proof/Safety.lean ====
section
/-! DEFINITION. What holds of a safe run: the invariants of rule R37, the canonical form of the buffers,
and the legal values of STATUS (R32). -/

namespace Sys2Proof.Machine

/-- "no code is a proper prefix of another" (R37 INV6), and no two are equal (R146 c). -/
def PrefixFree (pres : Table Bool) (len : Table Byte) (code : Table CodeWord) : Prop :=
  ∀ x y, pres.get x = true → pres.get y = true → x ≠ y →
    ¬ codeBits len code x <+: codeBits len code y

/-- INV2 to INV4 of rule R37 on the code lengths: an absent symbol has length 0; with two or more symbols
the lengths are at least 1 and the code is complete; with one the length is 0 or 1. -/
structure LegalTable (pres : Table Bool) (len : Table Byte) : Prop where
  absent : ∀ x, pres.get x = false → len.get x = 0
  positive : 2 ≤ presentCount pres → ∀ x, pres.get x = true → 1 ≤ (len.get x).toNat
  complete : 2 ≤ presentCount pres → kraftSum pres len = 2 ^ 255
  single : presentCount pres = 1 → ∀ x, pres.get x = true → (len.get x).toNat ≤ 1

/-- INV1 to INV6 of rule R37. -/
structure TableInv (s : State) : Prop where
  inv1 : s.nsym.toNat = presentCount s.pres
  inv2 : ∀ x, s.pres.get x = false → s.len.get x = 0 ∧ s.code.get x = 0
  inv3 : 2 ≤ s.nsym.toNat →
    (∀ x, s.pres.get x = true → 1 ≤ (s.len.get x).toNat ∧ (s.len.get x).toNat ≤ 255) ∧
      kraftSum s.pres s.len = 2 ^ 255
  inv4 : s.nsym.toNat = 1 → ∀ x, s.pres.get x = true → s.len.get x = 0 ∨ s.len.get x = 1
  inv5 : (s.status.cv = true → s.code = canon s.pres s.len) ∧
    (s.status.cv = false → ∀ x, s.code.get x = 0)
  inv6 : s.status.cv = true → PrefixFree s.pres s.len s.code

/-- The buffers: both in canonical form and within their capacities, and every byte of the valid output
is one that a command wrote (R40, R60, R62). -/
structure BufferInv (s : State) : Prop where
  ibufWf : s.ibuf.wf
  obufWf : s.obuf.wf
  ibufBound : ∀ c ∈ s.ibuf, c.1 < s.cfg.ibufCap.toNat
  obufBound : ∀ c ∈ s.obuf, c.1 < s.cfg.obufCap.toNat
  obufLenBound : s.obufLen ≤ s.cfg.obufCap
  obufValid : ∀ a, a < s.obufLen.toNat → (s.obuf.lookup a).isSome = true

/-- The legal values of STATUS: BUSY excludes DONE and ERR, "0 when ERR = 0", ERR only with DONE, and an
error number of rule R251 (R32). -/
structure StatusInv (st : Status) : Prop where
  busyNotDone : st.busy = true → st.done = false
  errDone : st.err = true → st.done = true
  noErrNoCode : st.err = false → st.errcode = 0
  errCode : st.err = true → ∃ e : CmdError, st.errcode = e.number

/-- The invariant of HTB: rule R37, with the buffers' and STATUS's own. -/
structure Inv (s : State) : Prop where
  tables : TableInv s
  buffers : BufferInv s
  status : StatusInv s.status

end Sys2Proof.Machine
end

