-- ==== Sys2Proof/Certificates/Slice0/Obligations.lean ====
section
/-! DEFINITION. The statements for the provers.

"R<n>" in a docstring is the rule of spec/ that the statement formalises, "log <n>" a model's choice
(notes/assumptions/<n>.md) that it rests on. -/

namespace Sys2Proof.Machine

/-! ### The words the statements use -/

/-- One step in which the host event e takes place. -/
def stepOn (e : HostEvent) (s : State) : Host.Outcome State Fault Refusal :=
  step { s with pending := e :: s.pending }

/-- The command i as the host issues it: the accepted write of its word, and its run (R31, R81). -/
def issue (i : Instr) (s : State) : Host.Outcome State Fault Refusal := exec i (s.accept (encode i))

/-- STATUS after a command without error: DONE = 1, the rest but CV zero (R32, R81). -/
def endedOk (cv : Bool) : Status :=
  { busy := false, done := true, err := false, cv := cv, errcode := 0 }

/-- The command ends by `raise e` (R256). -/
def Raises (i : Instr) (s : State) (e : CmdError) : Prop := exec i s = .next (s.raise e)

/-- What no command writes: the parameters, CMD, IBUF_LEN, every byte of IBUF, and the host's own side. -/
structure HostSideKept (s t : State) : Prop where
  cfg : t.cfg = s.cfg
  cmd : t.cmd = s.cmd
  ibufLen : t.ibufLen = s.ibufLen
  ibuf : ∀ a, t.ibuf.lookup a = s.ibuf.lookup a ∧ t.ibufByte a = s.ibufByte a
  pending : t.pending = s.pending
  seen : t.seen = s.seen

/-- PRES, LEN and NSYM unchanged (the "tables" of R44). -/
def TablesKept (s t : State) : Prop := t.pres = s.pres ∧ t.len = s.len ∧ t.nsym = s.nsym

/-- OBUF_LEN and every byte of OBUF unchanged. -/
def OutputKept (s t : State) : Prop :=
  t.obufLen = s.obufLen ∧ ∀ a, t.obuf.lookup a = s.obuf.lookup a

/-- The output is these bytes: `OBUF[0 .. n-1]` and `OBUF_LEN = n` (R62). -/
def OutputIs (t : State) (bytes : List Byte) : Prop :=
  t.obufLen.toNat = bytes.length ∧ t.outputBytes = bytes

/-- Every register at its reset value (R42). -/
structure RegistersAtReset (t : State) : Prop where
  cmd : t.cmd = 0
  status : t.status = { busy := false, done := false, err := false, cv := false, errcode := 0 }
  lengths : t.ibufLen = 0 ∧ t.obufLen = 0 ∧ t.origlen = 0 ∧ t.payoff = 0
  small : t.pad = 0 ∧ t.nsym = 0
  tables : ∀ x, t.freq.get x = 0 ∧ t.pres.get x = false ∧ t.len.get x = 0 ∧ t.code.get x = 0
  version : t.readReg .version = t.cfg.formatVersion.setWidth 64

/-- A read of the register at an index delivers v and changes nothing else (R243). -/
def ReadsAs (s : State) (index : Nat) (v : Word64) : Prop :=
  stepOn (.regRead (BitVec.ofNat 16 index)) s = .next { s with seen := v :: s.seen }

/-- A write of v to the register at an index leads to t. -/
def WritesTo (s : State) (index : Nat) (v : Word64) (t : State) : Prop :=
  stepOn (.regWrite (BitVec.ofNat 16 index) v) s = .next t

/-- Neither a register of R34 nor within a table of it. -/
def ReservedIndex (index : Nat) : Prop :=
  (0x0009 ≤ index ∧ index < 0x0100) ∨ (0x0300 ≤ index ∧ index < 0x0400) ∨
    (0x0800 ≤ index ∧ index < 0x10000)

/-- The errors that each command can raise (R254). -/
def errorsOf : Instr → List CmdError
  | .nop => []
  | .clear => []
  | .analyze => [.badArgument]
  | .build => []
  | .canon => []
  | .pack => [.noCode, .badArgument, .noSpace, .notReady]
  | .unpack =>
    [.corruptSymbolTable, .truncatedPayload, .invalidPadding, .badArgument, .noSpace, .notReady]
  | .serialize => [.noCode, .badArgument, .noSpace, .notReady]
  | .parse =>
    [.unsupportedFormatVersion, .corruptHeader, .corruptSymbolTable, .invalidPadding, .badArgument]
  | .encode => [.badArgument, .noSpace]
  | .decode =>
    [.unsupportedFormatVersion, .corruptHeader, .corruptSymbolTable, .truncatedPayload,
      .invalidPadding, .badArgument, .noSpace]

/-- The total number of code bits of a byte sequence, the sum of the lengths of its codes (R157). -/
def codeBitCount (len : Table Byte) (d : List Byte) : Nat := (d.map fun x => (len.get x).toNat).sum

/-- `encode(d)` of R197, for a version byte. -/
def encodeBlob (version : Byte) (d : List Byte) : List Byte :=
  let pl := lengths (count d)
  let r := packbits pl.2 (canon pl.1 pl.2) d
  blob version pl.1 pl.2 (presentCount pl.1) d.length r.2 r.1

/-- A blob whose table holds the given entries in the given order (R85): version, symbol_count, entries,
and the bytes after the table. -/
def blobOfEntries (version : Byte) (entries : List (Symbol × Byte)) (after : List Byte) : List Byte :=
  [version] ++ bigEndianBytes entries.length 2 ++ (entries.flatMap fun e => [e.1, e.2]) ++ after

end Sys2Proof.Machine

open Sys2Proof Sys2Proof.Machine

/-! ### Words and decoding (R80 to R84, R97) -/

/-- R83: the decoder reads a command from a word exactly when the word selects the command's row of the
operation table. -/
def Obligations.DecodeFollowsOperationTable : Prop :=
  ∀ (w : Word32) (i : Instr), decode w = .ok i ↔ ∃ r ∈ opTable, r.selects w = true ∧ r.instr = i

/-- R80, R83: each word has one meaning, and no bit of it is dropped. -/
def Obligations.DecodeAndEncodeAgree : Prop :=
  ∀ (w : Word32) (i : Instr), decode w = .ok i ↔ w = encode i

/-- R83, column "word": the eleven words, written out; R97: `cmd COMPRESS` writes 0x00000009 to CMD and
`cmd DECOMPRESS` 0x0000000A; R96: `cmd` with a command's mnemonic writes its word, and then STATUS is read.
That the line reads STATUS exactly once is the model's reading of R96's "until DONE = 1" with R292, a command
being one step (log 2). -/
def Obligations.CommandWordsOfTheTable : Prop :=
  decode 0x00000000 = .ok .nop ∧ decode 0x00000001 = .ok .clear ∧ decode 0x00000002 = .ok .analyze ∧
  decode 0x00000003 = .ok .build ∧ decode 0x00000004 = .ok .canon ∧ decode 0x00000005 = .ok .pack ∧
  decode 0x00000006 = .ok .unpack ∧ decode 0x00000007 = .ok .serialize ∧
  decode 0x00000008 = .ok .parse ∧ decode 0x00000009 = .ok .encode ∧
  decode 0x0000000A = .ok .decode ∧
  lineEvents (.cmd .compress) = [.regWrite 0x0000 0x00000009, .regRead 0x0001] ∧
  lineEvents (.cmd .decompress) = [.regWrite 0x0000 0x0000000A, .regRead 0x0001] ∧
  ∀ i, lineEvents (.cmd (.instr i)) = [.regWrite 0x0000 ((encode i).setWidth 64), .regRead 0x0001]

/-- R84: every word above 0x0000000A is illegal, and writing one changes CMD, STATUS and OBUF_LEN alone,
with the error IllegalCommand (number 8); every other word is a command. -/
def Obligations.IllegalWordRaisesIllegalCommand : Prop :=
  (∀ w : Word32, w ≤ 0x0000000A → ∃ i, decode w = .ok i) ∧
  ∀ (s : State) (w : Word32), s.status.busy = false → 0x0000000A < w →
    ∃ t, stepOn (.regWrite 0x0000 (w.setWidth 64)) s = .next t ∧
      t.cmd = w ∧ t.obufLen = 0 ∧
      t.status = { busy := false, done := true, err := true, cv := s.status.cv, errcode := 8 } ∧
      t.cfg = s.cfg ∧ t.freq = s.freq ∧ t.code = s.code ∧ TablesKept s t ∧ t.origlen = s.origlen ∧
      t.pad = s.pad ∧ t.payoff = s.payoff ∧ t.ibufLen = s.ibufLen ∧
      (∀ a, t.ibufByte a = s.ibufByte a) ∧ t.pending = s.pending ∧ t.seen = s.seen

/-- R81: a write to CMD while idle stores the word's low 32 bits, clears DONE, ERR and ERRCODE and sets
BUSY; then the step is the command's, or `raise IllegalCommand`; either way it ends with BUSY = 0 and
DONE = 1. -/
def Obligations.StepRunsTheDecodedCommand : Prop :=
  ∀ (s : State) (v : Word64), s.status.busy = false →
    let w := v.setWidth 32
    let accepted : State :=
      { s with
        cmd := w,
        status := { busy := true, done := false, err := false, cv := s.status.cv, errcode := 0 } }
    (∀ i, decode w = .ok i → stepOn (.regWrite 0x0000 v) s = exec i accepted) ∧
    (∀ x, decode w = .error x →
      stepOn (.regWrite 0x0000 v) s = .next (accepted.raise .illegalCommand)) ∧
    ∃ t, stepOn (.regWrite 0x0000 v) s = .next t ∧ t.status.busy = false ∧ t.status.done = true

/-- R81, R246 and log 3: a CMD write whose command is not run to the end at once, followed by the end of
the command (an event, or no event pending), leads where the one write leads. -/
def Obligations.StartAndEndAreTheAtomicWrite : Prop :=
  ∀ (s : State) (w : Word32) (i : Instr), s.status.busy = false → decode w = .ok i →
    ∃ u, stepOn (.cmdStart w) s = .next u ∧ u.status.busy = true ∧
      stepOn .cmdEnd u = stepOn (.regWrite 0x0000 (w.setWidth 64)) s ∧
      (s.pending = [] → step u = stepOn (.regWrite 0x0000 (w.setWidth 64)) s)

/-! ### The host's accesses (R32, R34 to R36, R60 to R62, R243, R285, R286) -/

/-- R32: the places of STATUS's fields; the bits [31:8] are 0. -/
def Obligations.StatusWordLayout : Prop :=
  ∀ st : Status, st.word.toNat =
    st.busy.toNat + 2 * st.done.toNat + 4 * st.err.toNat + 8 * st.cv.toNat + 16 * st.errcode.toNat

/-- R34, R35, R243: what a register read delivers, for every index; it changes nothing else. -/
def Obligations.HostRegisterReads : Prop :=
  ∀ s : State, s.status.busy = false →
    ReadsAs s 0x0000 (s.cmd.setWidth 64) ∧ ReadsAs s 0x0001 (s.status.word.setWidth 64) ∧
    ReadsAs s 0x0002 s.ibufLen ∧ ReadsAs s 0x0003 s.obufLen ∧ ReadsAs s 0x0004 s.origlen ∧
    ReadsAs s 0x0005 (s.pad.setWidth 64) ∧ ReadsAs s 0x0006 (s.nsym.setWidth 64) ∧
    ReadsAs s 0x0007 s.payoff ∧ ReadsAs s 0x0008 (s.cfg.formatVersion.setWidth 64) ∧
    (∀ x : Symbol, ReadsAs s (0x0100 + x.toNat) (s.freq.get x)) ∧
    (∀ x : Symbol, ReadsAs s (0x0200 + x.toNat)
      (BitVec.ofNat 64 (256 * (s.pres.get x).toNat + (s.len.get x).toNat))) ∧
    (∀ (x : Symbol) (k : Fin 4), ReadsAs s (0x0400 + 4 * x.toNat + k.val) (s.codew x k)) ∧
    ∀ index, ReservedIndex index → ReadsAs s index 0

/-- R34, R35, R43, R243, R291: what a register write other than to CMD changes, for every index: the low
bits of the value enter a writable register, and a write elsewhere changes nothing. -/
def Obligations.HostRegisterWrites : Prop :=
  ∀ (s : State) (v : Word64), s.status.busy = false →
    WritesTo s 0x0002 v { s with ibufLen := v } ∧ WritesTo s 0x0004 v { s with origlen := v } ∧
    WritesTo s 0x0005 v { s with pad := BitVec.ofNat 8 v.toNat } ∧
    WritesTo s 0x0007 v { s with payoff := v } ∧
    (∀ x : Symbol, WritesTo s (0x0100 + x.toNat) v
      { s with freq := Table.tabulate fun y => if y = x then v else s.freq.get y }) ∧
    WritesTo s 0x0001 v s ∧ WritesTo s 0x0003 v s ∧ WritesTo s 0x0006 v s ∧ WritesTo s 0x0008 v s ∧
    (∀ x : Symbol, WritesTo s (0x0200 + x.toNat) v s) ∧
    (∀ (x : Symbol) (k : Fin 4), WritesTo s (0x0400 + 4 * x.toNat + k.val) v s) ∧
    ∀ index, ReservedIndex index → WritesTo s index v s

/-- R36: word k of CODEW[s] is bits 64k+63 down to 64k of CODE[s], and its top bit is 0. -/
def Obligations.CodeReadOut : Prop :=
  ∀ (s : State) (x : Symbol) (k : Fin 4),
    (∀ j, j < 64 → (s.codew x k).getLsbD j = (s.code.get x).getLsbD (64 * k.val + j)) ∧
    (s.codew x 3).getLsbD 63 = false

/-- R43, R60, R61: a byte of IBUF that the host writes is the byte at that address, and no other byte
changes; a read delivers the byte; at and above IBUF_CAP there is no byte (the fault is log 11). -/
def Obligations.HostIbufAccess : Prop :=
  ∀ (s : State) (a : Word64) (b : Byte), s.status.busy = false → s.ibuf.wf →
    (a < s.cfg.ibufCap →
      (∃ t, stepOn (.ibufWrite a b) s = .next t ∧ t.ibuf.wf ∧ t = { s with ibuf := t.ibuf } ∧
        ∀ x, t.ibufByte x = if x = a.toNat then b else s.ibufByte x) ∧
      stepOn (.ibufRead a) s =
        .next { s with seen := (s.ibufByte a.toNat).setWidth 64 :: s.seen }) ∧
    (s.cfg.ibufCap ≤ a →
      stepOn (.ibufWrite a b) s = .fault .ibufAddress ∧
        stepOn (.ibufRead a) s = .fault .ibufAddress)

/-- R43, R60, R62, R96: a read of OBUF delivers the byte, and the `obuf` line the whole valid output in
ascending order; at and above OBUF_CAP there is no byte (the fault is log 11). -/
def Obligations.HostObufAccess : Prop :=
  ∀ (s : State) (a : Word64), s.status.busy = false →
    (a < s.cfg.obufCap → stepOn (.obufRead a) s =
      .next { s with seen := (s.obufByte a.toNat).setWidth 64 :: s.seen }) ∧
    (s.cfg.obufCap ≤ a → stepOn (.obufRead a) s = .fault .obufAddress) ∧
    stepOn .obufReadValid s =
      .next { s with seen := (s.outputBytes.map (·.setWidth 64)).reverse ++ s.seen }

/-- R285, R286 and log 8: while BUSY = 1 every write is ignored, a CMD write among them; a STATUS read
delivers STATUS, which is BUSY = 1 and DONE = ERR = ERRCODE = 0 with the old CV after an accepted CMD
write; any other read delivers a free value; nothing else changes but the number of the draw. -/
def Obligations.HandsOffWhileBusy : Prop :=
  (∀ s : State, s.status.busy = true →
    (∀ index v, stepOn (.regWrite index v) s = .next s) ∧
    (∀ w, stepOn (.cmdStart w) s = .next s) ∧
    (∀ a b, stepOn (.ibufWrite a b) s = .next s) ∧
    stepOn (.regRead 0x0001) s = .next { s with seen := s.status.word.setWidth 64 :: s.seen } ∧
    ∀ e, (∃ index : BitVec 16, index ≠ 0x0001 ∧ e = .regRead index) ∨ (∃ a, e = .ibufRead a) ∨
        (∃ a, e = .obufRead a) ∨ e = .obufReadValid →
      stepOn e s =
        .next { s with seen := Config.busyRead s.draws :: s.seen, draws := s.draws + 1 }) ∧
  ∀ (s : State) (w : Word32), (s.accept w).status.word = if s.status.cv then 0x09 else 0x01

/-! ### Reset and the invariant (R37, R42, R280, R281) -/

/-- R42, R280, R281: every register has its reset value right after reset, and after a reset in any state,
also while a command runs; no byte of IBUF or OBUF keeps a known value.  That the parameters, the pending
events and the values the host has read stay is the model's choice (log 15), not those rules'. -/
def Obligations.ResetValues : Prop :=
  RegistersAtReset State.reset ∧
  ∀ s : State, ∃ t, stepOn .reset s = .next t ∧ RegistersAtReset t ∧ t.cfg = s.cfg ∧
    t.pending = s.pending ∧ t.seen = s.seen ∧
    ∀ a, t.ibuf.lookup a = none ∧ t.obuf.lookup a = none

/-- R37: the invariant holds after reset, for all parameters. -/
def Obligations.InvariantAtReset : Prop := ∀ cfg : Config, Inv (State.resetWith cfg)

/-- R37: every step keeps the invariant: INV1 to INV6, the canonical form and the bounds of the buffers,
and the legal values of STATUS. -/
def Obligations.InvariantKeptByEveryStep : Prop :=
  ∀ s t : State, Inv s → step s = .next t → Inv t

/-! ### How commands end (R246, R251, R254, R256, R259, R287) -/

/-- R251: the error numbers; no two errors share one, and the reserved ones and 0 are never produced. -/
def Obligations.ErrorNumbers : Prop :=
  CmdError.unsupportedFormatVersion.number = 1 ∧ CmdError.corruptHeader.number = 2 ∧
  CmdError.corruptSymbolTable.number = 3 ∧ CmdError.truncatedPayload.number = 4 ∧
  CmdError.invalidPadding.number = 5 ∧ CmdError.illegalCommand.number = 8 ∧
  CmdError.noCode.number = 9 ∧ CmdError.badArgument.number = 10 ∧ CmdError.noSpace.number = 11 ∧
  CmdError.notReady.number = 12 ∧
  ∀ e e' : CmdError, (e.number = e'.number → e = e') ∧ e.number ∉ [0, 6, 7, 13, 14, 15]

/-- R246: every command ends, without error and with ERRCODE = 0 or with one error of its row of R254. -/
def Obligations.EveryCommandEnds : Prop :=
  ∀ (i : Instr) (s : State), ∃ t, exec i s = .next t ∧ t.status.busy = false ∧ t.status.done = true ∧
    ((t.status.err = false ∧ t.status.errcode = 0) ∨
      ∃ e ∈ errorsOf i, t.status.err = true ∧ t.status.errcode = e.number)

/-- R256: a command that ends in error says so in STATUS, sets OBUF_LEN to 0 and changes no other
register and no byte of IBUF. -/
def Obligations.FailedCommandChangesNothingElse : Prop :=
  ∀ (i : Instr) (s t : State), exec i s = .next t → t.status.err = true →
    ∃ e : CmdError,
      t.status =
        { busy := false, done := true, err := true, cv := s.status.cv, errcode := e.number } ∧
      t.obufLen = 0 ∧ HostSideKept s t ∧ t.freq = s.freq ∧ TablesKept s t ∧ t.code = s.code ∧
      t.origlen = s.origlen ∧ t.pad = s.pad ∧ t.payoff = s.payoff

/-- R259: while idle, STATUS changes only by a CMD write or reset; and what the next command does after an
error is what it does from the same state with an empty output and no error. -/
def Obligations.ErrorStaysAndDoesNotBlock : Prop :=
  (∀ s t : State, s.status.busy = false → step s = .next t → t.status ≠ s.status →
    ∃ e rest, s.pending = e :: rest ∧
      ((∃ v, e = .regWrite 0x0000 v) ∨ (∃ w, e = .cmdStart w) ∨ e = .reset)) ∧
  ∀ (s : State) (e : CmdError) (i : Instr),
    issue i (s.raise e) =
      issue i { s with obufLen := 0, obuf := [], draws := s.draws + 1 }

/-- R44: what each command leaves unchanged, whether it ends with an error or not. -/
def Obligations.CommandFrames : Prop :=
  ∀ (i : Instr) (s t : State), exec i s = .next t →
    HostSideKept s t ∧
    (i ∉ [.clear, .analyze, .encode] → t.freq = s.freq) ∧
    (i ∉ [.clear, .build, .parse, .encode, .decode] → TablesKept s t) ∧
    (i ∉ [.clear, .build, .canon, .parse, .encode, .decode] →
      t.code = s.code ∧ t.status.cv = s.status.cv) ∧
    (i ∉ [.clear, .analyze, .serialize, .parse, .encode, .decode] → t.origlen = s.origlen) ∧
    (i ∉ [.clear, .pack, .serialize, .parse, .encode, .decode] → t.pad = s.pad) ∧
    (i ∉ [.clear, .parse, .decode] → t.payoff = s.payoff) ∧
    (i ∈ [.nop, .analyze, .build, .canon, .parse] → t.status.err = false → OutputKept s t) ∧
    (i = .clear → ∀ a, t.obuf.lookup a = s.obuf.lookup a)

/-- R287: BUILD and PARSE clear CODE and CV; without CV the commands that need a codebook end with NotReady;
and where the invariant of R37 holds, they end with NotReady or CODE is the codebook of the lengths. -/
def Obligations.StaleCodebookIsNotUsed : Prop :=
  (∀ (i : Instr) (s t : State), i = .build ∨ i = .parse → exec i s = .next t →
    t.status.err = false → t.status.cv = false ∧ ∀ x, t.code.get x = 0) ∧
  (∀ (i : Instr) (s : State), i ∈ [.pack, .unpack, .serialize] → s.status.cv = false →
    Raises i s .notReady) ∧
  ∀ (i : Instr) (s : State), i ∈ [.pack, .unpack, .serialize] → TableInv s →
    Raises i s .notReady ∨ (s.status.cv = true ∧ s.code = canon s.pres s.len)

/-! ### NOP and CLEAR (R241, R242) -/

/-- R241: NOP ends without error and changes nothing but STATUS. -/
def Obligations.NopResult : Prop :=
  decode 0x00000000 = .ok .nop ∧
  ∀ s : State, ∃ t, exec .nop s = .next t ∧ t.status = endedOk s.status.cv ∧ HostSideKept s t ∧
    t.freq = s.freq ∧ TablesKept s t ∧ t.code = s.code ∧ t.origlen = s.origlen ∧ t.pad = s.pad ∧
    t.payoff = s.payoff ∧ OutputKept s t

/-- R242: CLEAR zeroes the tables, the scalars and CV, and leaves IBUF, IBUF_LEN and the bytes of OBUF
alone. -/
def Obligations.ClearResult : Prop :=
  decode 0x00000001 = .ok .clear ∧
  ∀ s : State, ∃ t, exec .clear s = .next t ∧ t.status = endedOk false ∧ HostSideKept s t ∧
    (∀ x, t.freq.get x = 0 ∧ t.pres.get x = false ∧ t.len.get x = 0 ∧ t.code.get x = 0) ∧
    t.nsym = 0 ∧ t.origlen = 0 ∧ t.pad = 0 ∧ t.payoff = 0 ∧ t.obufLen = 0 ∧
    ∀ a, t.obuf.lookup a = s.obuf.lookup a

/-! ### ANALYZE (R111 to R113) -/

/-- R112: with IBUF_LEN within IBUF_CAP, FREQ is the count table of the input and ORIGLEN its length;
else BadArgument. -/
def Obligations.AnalyzeResult : Prop :=
  decode 0x00000002 = .ok .analyze ∧
  ∀ s : State,
    (s.cfg.ibufCap < s.ibufLen → Raises .analyze s .badArgument) ∧
    (s.ibufLen ≤ s.cfg.ibufCap →
      ∃ t, exec .analyze s = .next t ∧ t.status = endedOk s.status.cv ∧
        (∀ x, (t.freq.get x).toNat = s.input.count x) ∧ t.origlen = s.ibufLen ∧
        HostSideKept s t ∧ TablesKept s t ∧ t.code = s.code ∧ t.pad = s.pad ∧
        t.payoff = s.payoff ∧ OutputKept s t)

/-- R113: after ANALYZE the counts sum to ORIGLEN and IBUF_LEN, and the order of the input bytes does not
matter. -/
def Obligations.AnalyzeTotals : Prop :=
  (∀ s t : State, exec .analyze s = .next t → t.status.err = false →
    (allSymbols.map fun x => (t.freq.get x).toNat).sum = t.origlen.toNat ∧
      t.origlen = s.ibufLen) ∧
  ∀ s s' t t' : State, s.input.Perm s'.input → exec .analyze s = .next t →
    exec .analyze s' = .next t' → t.status.err = false → t'.status.err = false → t.freq = t'.freq

/-! ### BUILD (R121 to R132) -/

/-- R127: BUILD loads `lengths(FREQ)` and its number of present symbols, and clears CODE and CV. -/
def Obligations.BuildResult : Prop :=
  decode 0x00000003 = .ok .build ∧
  ∀ s : State, ∃ t, exec .build s = .next t ∧ t.status = endedOk false ∧
    (t.pres, t.len) = lengths s.freq ∧ t.nsym.toNat = presentCount t.pres ∧
    (∀ x, t.code.get x = 0) ∧ HostSideKept s t ∧ t.freq = s.freq ∧ t.origlen = s.origlen ∧
    t.pad = s.pad ∧ t.payoff = s.payoff ∧ OutputKept s t

/-- R122, R123: a merge step takes the first two alive nodes a and b in the order (weight, slot); they
become dead children of a new alive node in slot 256 + k, whose weight is the 72-bit sum of theirs;
nothing else changes, and one node fewer is alive. -/
def Obligations.MergeTakesTheTwoLightest : Prop :=
  ∀ (t : Tree) (k : Nat), (t.map (·.slot)).Nodup → (∀ x ∈ t, x.slot < 256 + k) →
    2 ≤ t.aliveNodes.length →
    ∃ a b, a ∈ t.aliveNodes ∧ b ∈ t.aliveNodes ∧ a ≠ b ∧
      (∀ x ∈ t.aliveNodes, x ≠ a → a.w < x.w ∨ (a.w = x.w ∧ a.slot < x.slot)) ∧
      (∀ x ∈ t.aliveNodes, x ≠ a → x ≠ b → b.w < x.w ∨ (b.w = x.w ∧ b.slot < x.slot)) ∧
      (∀ x, x ∈ t.merge k ↔
        x = { slot := 256 + k, w := a.w + b.w, alive := true, par := none } ∨
        x = { a with alive := false, par := some (256 + k) } ∨
        x = { b with alive := false, par := some (256 + k) } ∨ (x ∈ t ∧ x ≠ a ∧ x ≠ b)) ∧
      (t.merge k).aliveNodes.length + 1 = t.aliveNodes.length

/-- R123, R124, R132: after j merge steps the slots are distinct and below 256 + j; n leaves take n - 1
merge steps to one root, whose weight is the exact sum of all FREQ, which 72 bits hold; for n at least 2
it is in slot 256 + n - 2. -/
def Obligations.TreeHasOneRoot : Prop :=
  ∀ f : Table Word64,
    let n := (countedSymbols f).length
    let total := (allSymbols.map fun x => (f.get x).toNat).sum
    total < 2 ^ 72 ∧
    (∀ j, let t := Tree.mergeAll j 0 (leavesOf f)
      (t.map (·.slot)).Nodup ∧ ∀ x ∈ t, x.slot < 256 + j) ∧
    (1 ≤ n → (treeOf f).length = 2 * n - 1 ∧
      ∃ r, (treeOf f).aliveNodes = [r] ∧ r.par = none ∧ r.w.toNat = total ∧
        (2 ≤ n → r.slot = 256 + (n - 2)))

/-- R130: the code lengths of any frequency table: which symbols are present, the bounds, and the Kraft
sum 1; so BUILD gives tables that satisfy INV2 to INV4 of R37. -/
def Obligations.LengthsAreACompleteCode : Prop :=
  ∀ f : Table Word64,
    let pl := lengths f
    let n := (countedSymbols f).length
    presentCount pl.1 = n ∧ (∀ x, pl.1.get x = true ↔ f.get x ≠ 0) ∧ LegalTable pl.1 pl.2 ∧
    (n = 1 → ∀ x, pl.1.get x = true → pl.2.get x = 1) ∧
    (2 ≤ n → ∀ x, pl.1.get x = true → 1 ≤ (pl.2.get x).toNat ∧ (pl.2.get x).toNat ≤ n - 1) ∧
    (2 ≤ n → kraftSum pl.1 pl.2 = 2 ^ 255)

/-- R125: with two or more symbols the length of a present symbol is the number of `par` links from its
leaf to the root. -/
def Obligations.CodeLengthIsTheDepth : Prop :=
  ∀ (f : Table Word64) (x : Symbol), 2 ≤ (countedSymbols f).length → f.get x ≠ 0 →
    ∃ path : List Nat,
      path.length = ((lengths f).2.get x).toNat ∧
      List.IsChain (fun a b => (treeOf f).parentOf a = some b) (x.toNat :: path) ∧
      ∃ r, (treeOf f).aliveNodes = [r] ∧ (x.toNat :: path).getLast? = some r.slot

/-- R128, R129: BUILD with no symbol and with one. -/
def Obligations.BuildWithNoneOrOneSymbol : Prop :=
  (∀ s t : State, (∀ x, s.freq.get x = 0) → exec .build s = .next t →
    t.nsym = 0 ∧ ∀ x, t.pres.get x = false ∧ t.len.get x = 0) ∧
  ∀ (s t : State) (x₀ : Symbol), (∀ x, s.freq.get x ≠ 0 ↔ x = x₀) → exec .build s = .next t →
    t.nsym = 1 ∧ t.pres.get x₀ = true ∧ t.len.get x₀ = 1 ∧
      ∀ x, x ≠ x₀ → t.pres.get x = false ∧ t.len.get x = 0

/-! ### CANON (R141 to R147) -/

/-- R145: CANON loads CODE with `canon(PRES, LEN)` and sets CV; a second CANON gives the same CODE. -/
def Obligations.CanonResult : Prop :=
  decode 0x00000004 = .ok .canon ∧
  ∀ s : State, ∃ t, exec .canon s = .next t ∧ t.status = endedOk true ∧
    t.code = canon s.pres s.len ∧ HostSideKept s t ∧ t.freq = s.freq ∧ TablesKept s t ∧
    t.origlen = s.origlen ∧ t.pad = s.pad ∧ t.payoff = s.payoff ∧ OutputKept s t ∧
    ∃ u, exec .canon t = .next u ∧ u.code = t.code

/-- R141, R142: there is a sequence of exactly the present symbols, strictly rising by (length, symbol);
its first has code value 0 and each next one the one before plus 1, shifted left by the difference of the
lengths, with no bit lost when the Kraft sum is at most 1; an absent symbol has 0. -/
def Obligations.CanonAssignsInOrder : Prop :=
  ∀ (pres : Table Bool) (len : Table Byte), kraftSum pres len ≤ 2 ^ 255 →
    let c := canon pres len
    (∀ x, pres.get x = false → c.get x = 0) ∧
    ∃ o : List Symbol, (∀ x, x ∈ o ↔ pres.get x = true) ∧
      o.Pairwise (fun x y => len.get x < len.get y ∨ (len.get x = len.get y ∧ x < y)) ∧
      (∀ x, o.head? = some x → c.get x = 0) ∧
      List.IsChain (fun x y => (c.get y).toNat =
        ((c.get x).toNat + 1) <<< ((len.get y).toNat - (len.get x).toNat)) o

/-- R146: with a Kraft sum of at most 1 every code value fits its length, and the codes are pairwise
distinct and none is a prefix of another. -/
def Obligations.CanonIsAPrefixCode : Prop :=
  ∀ (pres : Table Bool) (len : Table Byte), kraftSum pres len ≤ 2 ^ 255 →
    (∀ x, pres.get x = true → ((canon pres len).get x).toNat < 2 ^ (len.get x).toNat) ∧
    PrefixFree pres len (canon pres len) ∧
    ∀ x y, pres.get x = true → pres.get y = true → x ≠ y →
      codeBits len (canon pres len) x ≠ codeBits len (canon pres len) y

/-- R146, R177: with a Kraft sum of exactly 1 the code is complete: every sequence of 255 or more bits
starts with the code of exactly one present symbol, and the unpacker's match finds it. -/
def Obligations.CompleteCodeAlwaysMatches : Prop :=
  ∀ (pres : Table Bool) (len : Table Byte) (bits : List Bool), kraftSum pres len = 2 ^ 255 →
    (∀ x, pres.get x = true → 1 ≤ (len.get x).toNat) → 255 ≤ bits.length →
    ∃ x rest, pres.get x = true ∧ bits = codeBits len (canon pres len) x ++ rest ∧
      matchCode (codebook pres len (canon pres len)) 0 0 bits = some (x, rest) ∧
      ∀ y, pres.get y = true → codeBits len (canon pres len) y <+: bits → y = x

/-- R147: the only present symbol has code value 0, so its code is as many 0 bits as its length says. -/
def Obligations.OneSymbolCode : Prop :=
  ∀ (pres : Table Bool) (len : Table Byte) (x₀ : Symbol), (∀ x, pres.get x = true ↔ x = x₀) →
    (canon pres len).get x₀ = 0 ∧
      codeBits len (canon pres len) x₀ = List.replicate (len.get x₀).toNat false

/-! ### PACK (R157 to R159) -/

/-- R158: the errors of PACK in the order they are tested, the result, and what it leaves alone. -/
def Obligations.PackResult : Prop :=
  decode 0x00000005 = .ok .pack ∧
  ∀ s : State,
    (s.status.cv = false → Raises .pack s .notReady) ∧
    (s.status.cv = true → s.cfg.ibufCap < s.ibufLen → Raises .pack s .badArgument) ∧
    (s.status.cv = true → s.ibufLen ≤ s.cfg.ibufCap →
      let cap := s.cfg.obufCap.toNat
      (∀ d x d', s.input = d ++ x :: d' → (∀ y ∈ d, s.pres.get y = true) →
        codeBitCount s.len d / 8 ≤ cap → s.pres.get x = false → Raises .pack s .noCode) ∧
      (∀ d x d', s.input = d ++ x :: d' → (∀ y ∈ d, s.pres.get y = true) →
        codeBitCount s.len d / 8 ≤ cap → s.pres.get x = true →
        cap < codeBitCount s.len (d ++ [x]) / 8 → Raises .pack s .noSpace) ∧
      ((∀ y ∈ s.input, s.pres.get y = true) → codeBitCount s.len s.input / 8 ≤ cap →
        cap < (packbits s.len s.code s.input).1.length → Raises .pack s .noSpace) ∧
      ((∀ y ∈ s.input, s.pres.get y = true) → (packbits s.len s.code s.input).1.length ≤ cap →
        ∃ t, exec .pack s = .next t ∧ t.status = endedOk s.status.cv ∧
          OutputIs t (packbits s.len s.code s.input).1 ∧
          t.pad.toNat = (packbits s.len s.code s.input).2 ∧ HostSideKept s t ∧ t.freq = s.freq ∧
          TablesKept s t ∧ t.code = s.code ∧ t.origlen = s.origlen ∧ t.payoff = s.payoff))

/-- R159: the padding count and the payload's length, and the payload's stream: the codes, then zero bits
to the end of the last byte. -/
def Obligations.PackPadding : Prop :=
  ∀ (len : Table Byte) (code : Table CodeWord) (d : List Byte),
    let r := packbits len code d
    let t := codeBitCount len d
    r.2 = (8 - t % 8) % 8 ∧ r.1.length = (t + 7) / 8 ∧ 8 * r.1.length - r.2 = t ∧
      streamBits r.1 = d.flatMap (codeBits len code) ++ List.replicate r.2 false

/-! ### UNPACK (R173 to R182) -/

/-- R176: the tests of UNPACK in order, then the unpacker's error or its output, which has ORIGLEN bytes,
and what it leaves alone. -/
def Obligations.UnpackResult : Prop :=
  decode 0x00000006 = .ok .unpack ∧
  ∀ s : State,
    (s.status.cv = false → Raises .unpack s .notReady) ∧
    (s.status.cv = true → s.cfg.ibufCap < s.ibufLen ∨ s.ibufLen < s.payoff →
      Raises .unpack s .badArgument) ∧
    (s.status.cv = true → s.ibufLen ≤ s.cfg.ibufCap → s.payoff ≤ s.ibufLen →
      let r := unpackbits s.cfg.obufCap.toNat (s.input.drop s.payoff.toNat) s.pres s.len s.code
        s.nsym.toNat s.pad.toNat s.origlen.toNat
      (∀ e, r = .error e → Raises .unpack s e) ∧
      ∀ out, r = .ok out →
        ∃ t, exec .unpack s = .next t ∧ t.status = endedOk s.status.cv ∧ OutputIs t out ∧
          t.obufLen = s.origlen ∧ HostSideKept s t ∧ t.freq = s.freq ∧ TablesKept s t ∧
          t.code = s.code ∧ t.origlen = s.origlen ∧ t.pad = s.pad ∧ t.payoff = s.payoff)

/-- R176: what the capacity does to the unpacker: nothing if the output fits; else the error that the
first symbol that does not fit meets, or NoSpace if that symbol is found. -/
def Obligations.UnpackCapacity : Prop :=
  ∀ (cap count nsym pad : Nat) (p : List Byte) (pres : Table Bool) (len : Table Byte)
    (code : Table CodeWord),
    let pure := fun n => unpackbits n p pres len code nsym pad n
    (count ≤ cap → unpackbits cap p pres len code nsym pad count = pure count) ∧
    (cap < count →
      (∀ e, pure (cap + 1) = .error e →
        unpackbits cap p pres len code nsym pad count = .error e) ∧
      ∀ out, pure (cap + 1) = .ok out →
        unpackbits cap p pres len code nsym pad count = .error .noSpace)

/-- R174, R175: the unpacker's first tests: the empty codebook, then the padding. -/
def Obligations.UnpackFirstTests : Prop :=
  ∀ (cap : Nat) (p : List Byte) (pres : Table Bool) (len : Table Byte) (code : Table CodeWord)
    (nsym pad count : Nat),
    let r := unpackbits cap p pres len code nsym pad count
    (nsym = 0 → 0 < count → r = .error .corruptSymbolTable) ∧
    (¬ (nsym = 0 ∧ 0 < count) → 7 < pad ∨ (p = [] ∧ 0 < pad) → r = .error .invalidPadding) ∧
    (pad ≤ 7 → (p = [] → pad = 0) → r ≠ .error .invalidPadding) ∧
    (nsym = 0 → count = 0 → pad ≤ 7 → (p = [] → pad = 0) → r = .ok [])

/-- R178: with one present symbol the bits are not compared: the output is that symbol repeated, if the
meaningful bits suffice, else TruncatedPayload. -/
def Obligations.UnpackOneSymbol : Prop :=
  ∀ (cap : Nat) (p : List Byte) (pres : Table Bool) (len : Table Byte) (code : Table CodeWord)
    (pad count : Nat) (x₀ : Symbol),
    (∀ x, pres.get x = true ↔ x = x₀) → pad ≤ 7 → (p = [] → pad = 0) → count ≤ cap →
    unpackbits cap p pres len code 1 pad count =
      if count * (len.get x₀).toNat ≤ 8 * p.length - pad then .ok (List.replicate count x₀)
      else .error .truncatedPayload

/-- R179, R180: with two or more symbols the unpacker gives the symbols d exactly when the meaningful bits
start with their codes; it raises no error but TruncatedPayload when the output fits. -/
def Obligations.UnpackReadsTheCodes : Prop :=
  ∀ (cap : Nat) (p : List Byte) (pres : Table Bool) (len : Table Byte) (pad count : Nat),
    LegalTable pres len → 2 ≤ presentCount pres → pad ≤ 7 → (p = [] → pad = 0) → count ≤ cap →
    let c := canon pres len
    let r := unpackbits cap p pres len c (presentCount pres) pad count
    (∀ d, r = .ok d ↔ d.length = count ∧ (∀ x ∈ d, pres.get x = true) ∧
      codeStream len c d <+: (streamBits p).take (8 * p.length - pad)) ∧
    ∀ e, r = .error e → e = .truncatedPayload

/-- R182: the unpacker inverts the packer. -/
def Obligations.UnpackInvertsPack : Prop :=
  ∀ (pres : Table Bool) (len : Table Byte) (d : List Byte) (cap : Nat),
    LegalTable pres len → (∀ x ∈ d, pres.get x = true) → d.length ≤ cap →
    let c := canon pres len
    let r := packbits len c d
    unpackbits cap r.1 pres len c (presentCount pres) r.2 d.length = .ok d

/-! ### The blob: SERIALIZE and PARSE (R85 to R93, R191 to R194, R211 to R216) -/

/-- R191, R192: the length of a blob and what stands at each offset. -/
def Obligations.BlobLayout : Prop :=
  ∀ (v : Byte) (pres : Table Bool) (len : Table Byte) (n pad : Nat) (q : List Byte),
    n < 2 ^ 64 → pad ≤ 7 →
    let c := presentCount pres
    let b := blob v pres len c n pad q
    b.length = 12 + 2 * c + q.length ∧ b[0]? = some v ∧
    b[1]? = some (BitVec.ofNat 8 (c / 256)) ∧ b[2]? = some (BitVec.ofNat 8 (c % 256)) ∧
    (∃ o : List Symbol, o.length = c ∧ o.Pairwise (· < ·) ∧ (∀ x, x ∈ o ↔ pres.get x = true) ∧
      ∀ j x, o[j]? = some x → b[3 + 2 * j]? = some x ∧ b[4 + 2 * j]? = some (len.get x)) ∧
    (∀ i, i < 8 → b[3 + 2 * c + i]? = some (BitVec.ofNat 8 (n / 256 ^ (7 - i)))) ∧
    b[11 + 2 * c]? = some (BitVec.ofNat 8 pad) ∧ b.drop (12 + 2 * c) = q

/-- R194: the errors of SERIALIZE in order, the result, and what it leaves alone. -/
def Obligations.SerializeResult : Prop :=
  decode 0x00000007 = .ok .serialize ∧
  ∀ s : State,
    let r := packbits s.len s.code s.input
    let out := blob s.cfg.formatVersion s.pres s.len s.nsym.toNat s.ibufLen.toNat r.2 r.1
    (s.status.cv = false → Raises .serialize s .notReady) ∧
    (s.status.cv = true → s.cfg.ibufCap < s.ibufLen → Raises .serialize s .badArgument) ∧
    (s.status.cv = true → s.ibufLen ≤ s.cfg.ibufCap →
      ((∃ x ∈ s.input, s.pres.get x = false) → Raises .serialize s .noCode) ∧
      ((∀ x ∈ s.input, s.pres.get x = true) → s.cfg.obufCap.toNat < out.length →
        Raises .serialize s .noSpace) ∧
      ((∀ x ∈ s.input, s.pres.get x = true) → out.length ≤ s.cfg.obufCap.toNat →
        ∃ t, exec .serialize s = .next t ∧ t.status = endedOk s.status.cv ∧ OutputIs t out ∧
          t.origlen = s.ibufLen ∧ t.pad.toNat = r.2 ∧ HostSideKept s t ∧ t.freq = s.freq ∧
          TablesKept s t ∧ t.code = s.code ∧ t.payoff = s.payoff))

/-- R213: PARSE: BadArgument, or the error of `parse`, or the tables and scalars it returns, with CODE and
CV cleared; and what it leaves alone. -/
def Obligations.ParseResult : Prop :=
  decode 0x00000008 = .ok .parse ∧
  ∀ s : State,
    (s.cfg.ibufCap < s.ibufLen → Raises .parse s .badArgument) ∧
    (s.ibufLen ≤ s.cfg.ibufCap →
      (∀ e, parse s.cfg.formatVersion s.input = .error e → Raises .parse s e) ∧
      ∀ r, parse s.cfg.formatVersion s.input = .ok r →
        ∃ t, exec .parse s = .next t ∧ t.status = endedOk false ∧ t.pres = r.pres ∧
          t.len = r.len ∧ t.nsym.toNat = r.nsym ∧ t.origlen.toNat = r.origlen ∧
          t.pad.toNat = r.pad ∧ t.payoff.toNat = r.payoff ∧ (∀ x, t.code.get x = 0) ∧
          HostSideKept s t ∧ t.freq = s.freq ∧ OutputKept s t)

/-- R211, R212, R215, R216: a blob is accepted exactly when it has the layout, no symbol twice, a legal
combination of code lengths, no length without symbols and a legal padding; and what is returned. -/
def Obligations.ParseAcceptsExactly : Prop :=
  ∀ (v : Byte) (b : List Byte) (r : Parsed),
    parse v b = .ok r ↔
      ∃ (entries : List (Symbol × Byte)) (after : List Byte),
        b = blobOfEntries v entries after ∧ entries.length ≤ 256 ∧ (entries.map (·.1)).Nodup ∧
        9 ≤ after.length ∧
        (∀ x, r.pres.get x = true ↔ x ∈ entries.map (·.1)) ∧
        (∀ x, r.len.get x = (entries.lookup x).getD 0) ∧ LegalTable r.pres r.len ∧
        r.nsym = entries.length ∧ r.origlen = bigEndian (after.take 8) ∧
        after[8]? = some (BitVec.ofNat 8 r.pad) ∧ r.pad ≤ 7 ∧ r.payoff = 12 + 2 * entries.length ∧
        (entries = [] → r.origlen = 0) ∧ (after.length = 9 → r.pad = 0)

/-- R211, R212, R217: which error `parse` gives for which damage, in the order of its tests. -/
def Obligations.ParseErrors : Prop :=
  ∀ v : Byte,
    parse v [] = .error .corruptHeader ∧
    (∀ x rest, x ≠ v → parse v (x :: rest) = .error .unsupportedFormatVersion) ∧
    parse v [v] = .error .corruptHeader ∧ (∀ x, parse v [v, x] = .error .corruptHeader) ∧
    (∀ hi lo rest, 256 < 256 * hi.toNat + lo.toNat →
      parse v (v :: hi :: lo :: rest) = .error .corruptHeader) ∧
    (∀ hi lo rest, 256 * hi.toNat + lo.toNat ≤ 256 →
      rest.length < 2 * (256 * hi.toNat + lo.toNat) →
      parse v (v :: hi :: lo :: rest) = .error .corruptSymbolTable) ∧
    ∀ (entries : List (Symbol × Byte)) (after : List Byte) (pres : Table Bool) (len : Table Byte),
      entries.length ≤ 256 → (∀ x, pres.get x = true ↔ x ∈ entries.map (·.1)) →
      (∀ x, len.get x = (entries.lookup x).getD 0) →
      let r := parse v (blobOfEntries v entries after)
      let pad := (after.getD 8 0).toNat
      (¬ (entries.map (·.1)).Nodup → r = .error .corruptSymbolTable) ∧
      ((entries.map (·.1)).Nodup →
        (¬ LegalTable pres len → r = .error .corruptSymbolTable) ∧
        (LegalTable pres len →
          (after.length < 9 → r = .error .corruptHeader) ∧
          (9 ≤ after.length →
            (entries = [] → bigEndian (after.take 8) ≠ 0 → r = .error .corruptSymbolTable) ∧
            (¬ (entries = [] ∧ bigEndian (after.take 8) ≠ 0) →
              7 < pad ∨ (after.length = 9 ∧ 0 < pad) → r = .error .invalidPadding))))

/-- R88: a non-empty input whose first byte is not FORMAT_VERSION is refused with
UnsupportedFormatVersion by PARSE and DECODE, whatever follows; the serializer writes that byte first. -/
def Obligations.OtherVersionsAreRefused : Prop :=
  (∀ (s : State) (x : Byte) (rest : List Byte), s.ibufLen ≤ s.cfg.ibufCap → s.input = x :: rest →
    x ≠ s.cfg.formatVersion →
    Raises .parse s .unsupportedFormatVersion ∧ Raises .decode s .unsupportedFormatVersion) ∧
  ∀ (i : Instr) (s t : State), i = .serialize ∨ i = .encode → exec i s = .next t →
    t.status.err = false → t.outputBytes.head? = some s.cfg.formatVersion

/-- R214: the order of the entries does not matter, for `parse` or for DECODE; a symbol in two entries is
an error. -/
def Obligations.TableOrderDoesNotMatter : Prop :=
  (∀ (v : Byte) (entries entries' : List (Symbol × Byte)) (after : List Byte),
    entries.length ≤ 256 → entries.Perm entries' →
    parse v (blobOfEntries v entries after) = parse v (blobOfEntries v entries' after) ∧
    (¬ (entries.map (·.1)).Nodup →
      parse v (blobOfEntries v entries after) = .error .corruptSymbolTable)) ∧
  ∀ (s s' t t' : State) (entries entries' : List (Symbol × Byte)) (after : List Byte),
    s.cfg = s'.cfg → entries.length ≤ 256 → entries.Perm entries' →
    s.input = blobOfEntries s.cfg.formatVersion entries after →
    s'.input = blobOfEntries s.cfg.formatVersion entries' after →
    exec .decode s = .next t → exec .decode s' = .next t' →
    t.status.err = t'.status.err ∧ t.status.errcode = t'.status.errcode ∧
      t.outputBytes = t'.outputBytes

/-- R212, R222: parsing a blob of legal tables gives back all that went into it. -/
def Obligations.ParseInvertsBlob : Prop :=
  ∀ (v : Byte) (pres : Table Bool) (len : Table Byte) (n pad : Nat) (q : List Byte),
    LegalTable pres len → n < 2 ^ 64 → pad ≤ 7 → (q = [] → pad = 0) →
    (presentCount pres = 0 → n = 0) →
    let b := blob v pres len (presentCount pres) n pad q
    ∃ r, parse v b = .ok r ∧ r.pres = pres ∧ r.len = len ∧ r.nsym = presentCount pres ∧
      r.origlen = n ∧ r.pad = pad ∧ b.drop r.payoff = q

/-! ### ENCODE and DECODE (R197 to R201, R219 to R225) -/

/-- R197, R198: the errors of ENCODE in order, and on success the output `encode(d)` with every register
the command writes and what it leaves alone; and that state is the one after ANALYZE, BUILD, CANON and
SERIALIZE, issued in that order from the same state, but for CMD and the number of the draw. -/
def Obligations.EncodeResult : Prop :=
  decode 0x00000009 = .ok .encode ∧
  (∀ s t : State, issue .encode s = .next t → t.status.err = false →
    ∃ a b c d, issue .analyze s = .next a ∧ issue .build a = .next b ∧ issue .canon b = .next c ∧
      issue .serialize c = .next d ∧ t = { d with cmd := t.cmd, draws := t.draws }) ∧
  ∀ s : State,
    let out := encodeBlob s.cfg.formatVersion s.input
    let pl := lengths (count s.input)
    (s.cfg.ibufCap < s.ibufLen → Raises .encode s .badArgument) ∧
    (s.ibufLen ≤ s.cfg.ibufCap →
      (s.cfg.obufCap.toNat < out.length → Raises .encode s .noSpace) ∧
      (out.length ≤ s.cfg.obufCap.toNat →
        ∃ t, exec .encode s = .next t ∧ t.status = endedOk true ∧ OutputIs t out ∧
          t.freq = count s.input ∧ t.origlen = s.ibufLen ∧ (t.pres, t.len) = pl ∧
          t.nsym.toNat = presentCount pl.1 ∧ t.code = canon pl.1 pl.2 ∧
          t.pad.toNat = (packbits pl.2 (canon pl.1 pl.2) s.input).2 ∧ HostSideKept s t ∧
          t.payoff = s.payoff))

/-- R200, R201: the blobs of the empty input and of one repeated byte. -/
def Obligations.EncodeOfNoneOrOneSymbol : Prop :=
  ∀ v : Byte,
    encodeBlob v [] = v :: List.replicate 11 0 ∧
    ∀ (x : Byte) (n : Nat), 1 ≤ n → n < 2 ^ 64 →
      encodeBlob v (List.replicate n x) =
        [v, 0, 1, x, 1] ++ bigEndianBytes n 8 ++ [BitVec.ofNat 8 ((8 - n % 8) % 8)] ++
          List.replicate ((n + 7) / 8) 0

/-- R219, R220: the errors of DECODE in order, and on success the output, of original_length bytes, with
every register the command writes and what it leaves alone; and that state is the one after PARSE, CANON
and UNPACK, issued in that order from the same state, but for CMD and the number of the draw. -/
def Obligations.DecodeResult : Prop :=
  decode 0x0000000A = .ok .decode ∧
  (∀ s t : State, issue .decode s = .next t → t.status.err = false →
    ∃ a b c, issue .parse s = .next a ∧ issue .canon a = .next b ∧ issue .unpack b = .next c ∧
      t = { c with cmd := t.cmd, draws := t.draws }) ∧
  ∀ s : State,
    (s.cfg.ibufCap < s.ibufLen → Raises .decode s .badArgument) ∧
    (s.ibufLen ≤ s.cfg.ibufCap →
      (∀ e, parse s.cfg.formatVersion s.input = .error e → Raises .decode s e) ∧
      ∀ r, parse s.cfg.formatVersion s.input = .ok r →
        let c := canon r.pres r.len
        let x := unpackbits s.cfg.obufCap.toNat (s.input.drop r.payoff) r.pres r.len c r.nsym r.pad
          r.origlen
        (∀ e, x = .error e → Raises .decode s e ∧ (e = .truncatedPayload ∨ e = .noSpace)) ∧
        ∀ out, x = .ok out →
          ∃ t, exec .decode s = .next t ∧ t.status = endedOk true ∧ OutputIs t out ∧
            out.length = r.origlen ∧ t.pres = r.pres ∧ t.len = r.len ∧ t.nsym.toNat = r.nsym ∧
            t.origlen.toNat = r.origlen ∧ t.pad.toNat = r.pad ∧ t.payoff.toNat = r.payoff ∧
            t.code = c ∧ HostSideKept s t ∧ t.freq = s.freq)

/-- R199, R221: what ENCODE and DECODE do depends on their input and the parameters alone: the error, the
output and every register the command writes. -/
def Obligations.CompositesDependOnInputAlone : Prop :=
  ∀ s s' t t' : State, s.cfg = s'.cfg → s.ibufLen = s'.ibufLen → s.input = s'.input →
    ∀ i : Instr, i = .encode ∨ i = .decode → exec i s = .next t → exec i s' = .next t' →
      t.status.err = t'.status.err ∧ t.status.errcode = t'.status.errcode ∧
      t.outputBytes = t'.outputBytes ∧
      (t.status.err = false →
        t.status = t'.status ∧ t.origlen = t'.origlen ∧ t.pres = t'.pres ∧ t.len = t'.len ∧
        t.nsym = t'.nsym ∧ t.code = t'.code ∧ t.pad = t'.pad ∧
        (i = .encode → t.freq = t'.freq) ∧ (i = .decode → t.payoff = t'.payoff))

/-- R222: if ENCODE of an input succeeds, DECODE of its output succeeds and gives the input back, in any
state with the same version whose buffers hold both. -/
def Obligations.DecodeInvertsEncode : Prop :=
  ∀ s t s' : State, exec .encode s = .next t → t.status.err = false →
    s'.cfg.formatVersion = s.cfg.formatVersion → s'.input = t.outputBytes →
    s'.ibufLen ≤ s'.cfg.ibufCap → s.ibufLen ≤ s'.cfg.obufCap →
    ∃ t', exec .decode s' = .next t' ∧ t'.status.err = false ∧ t'.outputBytes = s.input

/-- R222: if SERIALIZE succeeds with any tables that satisfy R37, DECODE of its output gives the data. -/
def Obligations.DecodeInvertsSerialize : Prop :=
  ∀ s t s' : State, TableInv s → exec .serialize s = .next t → t.status.err = false →
    s'.cfg.formatVersion = s.cfg.formatVersion → s'.input = t.outputBytes →
    s'.ibufLen ≤ s'.cfg.ibufCap → s.ibufLen ≤ s'.cfg.obufCap →
    ∃ t', exec .decode s' = .next t' ∧ t'.status.err = false ∧ t'.outputBytes = s.input

/-- R223 b: what DECODE makes of the output of ENCODE without its last byte: TruncatedPayload if the
payload has two bytes or more, or one byte without padding; InvalidPadding if it has one byte with
padding; CorruptHeader if the data was empty. -/
def Obligations.TruncatedBlob : Prop :=
  ∀ s t s' : State, exec .encode s = .next t → t.status.err = false →
    s'.cfg.formatVersion = s.cfg.formatVersion → s'.input = t.outputBytes.dropLast →
    s'.ibufLen ≤ s'.cfg.ibufCap → s.ibufLen ≤ s'.cfg.obufCap →
    let m := t.obufLen.toNat - (12 + 2 * t.nsym.toNat)
    (2 ≤ m ∨ (m = 1 ∧ t.pad = 0) → Raises .decode s' .truncatedPayload) ∧
    (m = 1 → t.pad ≠ 0 → Raises .decode s' .invalidPadding) ∧
    (s.input = [] → Raises .decode s' .corruptHeader)
end

