-- ==== Sys2Proof/Laws/Bits.lean ====
section
/-! SUPPORT. Bit strings, streams and big-endian fields: `bits` and `val` are inverse (R13), and so are
the bytes of a stream and the stream of its bytes (R12, R164). -/

namespace Sys2Proof.Machine

/-! ### `bits` and `val` (R13) -/

@[simp] theorem bitsOf_length (v n : Nat) : (bitsOf v n).length = n := by
  induction n with
  | zero => rfl
  | succ n ih => simp [bitsOf, ih]

theorem valOf_foldl (acc : Nat) (bs : List Bool) :
    bs.foldl (fun acc b => 2 * acc + b.toNat) acc = acc * 2 ^ bs.length + valOf bs := by
  unfold valOf
  induction bs generalizing acc with
  | nil => simp
  | cons b bs ih =>
    rw [List.foldl_cons, List.foldl_cons, ih, ih (2 * 0 + b.toNat), List.length_cons, Nat.pow_succ]
    ring

@[simp] theorem valOf_nil : valOf [] = 0 := rfl

theorem valOf_cons (b : Bool) (bs : List Bool) :
    valOf (b :: bs) = b.toNat * 2 ^ bs.length + valOf bs := by
  rw [valOf, List.foldl_cons, valOf_foldl]
  simp

theorem valOf_append (a b : List Bool) : valOf (a ++ b) = valOf a * 2 ^ b.length + valOf b := by
  rw [valOf, List.foldl_append, valOf_foldl]
  rfl

/-- The step of the unpacker's CUR: `cur <- 2*cur + bit` (R173). -/
theorem valOf_snoc (a : List Bool) (b : Bool) : valOf (a ++ [b]) = 2 * valOf a + b.toNat := by
  rw [valOf_append, valOf_cons]
  simp
  ring

theorem valOf_lt (bs : List Bool) : valOf bs < 2 ^ bs.length := by
  induction bs with
  | nil => simp
  | cons b bs ih =>
    rw [valOf_cons, List.length_cons, Nat.pow_succ]
    cases b <;> simp <;> omega

theorem valOf_bitsOf (v n : Nat) : valOf (bitsOf v n) = v % 2 ^ n := by
  induction n with
  | zero => simp [bitsOf, Nat.mod_one]
  | succ n ih =>
    rw [bitsOf, valOf_cons, ih, bitsOf_length, Nat.pow_succ, Nat.mod_mul, Nat.toNat_testBit]
    ring

theorem bitsOf_valOf (bs : List Bool) : bitsOf (valOf bs) bs.length = bs := by
  induction bs with
  | nil => rfl
  | cons b bs ih =>
    have hlt := valOf_lt bs
    have htail : ∀ n, n ≤ bs.length → bitsOf (valOf (b :: bs)) n = bitsOf (valOf bs) n := by
      intro n hn
      induction n with
      | zero => rfl
      | succ n ihn =>
        rw [bitsOf, bitsOf, ihn (by omega), valOf_cons, Nat.mul_comm,
          Nat.testBit_two_pow_mul_add _ hlt, if_pos (by omega)]
    rw [List.length_cons, bitsOf, htail _ (Nat.le_refl _), ih, valOf_cons, Nat.mul_comm,
      Nat.testBit_two_pow_mul_add _ hlt, if_neg (by omega)]
    cases b <;> simp

/-- Bit strings of one length with the same value are equal. -/
theorem valOf_inj {a b : List Bool} (hl : a.length = b.length) (hv : valOf a = valOf b) : a = b := by
  rw [← bitsOf_valOf a, ← bitsOf_valOf b, hl, hv]

theorem bitsOf_eq_iff {bs : List Bool} {v n : Nat} (hv : v < 2 ^ n) :
    bs = bitsOf v n ↔ bs.length = n ∧ valOf bs = v := by
  constructor
  · rintro rfl
    exact ⟨bitsOf_length v n, by rw [valOf_bitsOf, Nat.mod_eq_of_lt hv]⟩
  · rintro ⟨rfl, rfl⟩
    exact (bitsOf_valOf bs).symm

/-! ### Streams of bytes (R12) -/

@[simp] theorem streamBits_nil : streamBits [] = [] := rfl

theorem streamBits_cons (b : Byte) (p : List Byte) :
    streamBits (b :: p) = bitsOf b.toNat 8 ++ streamBits p := rfl

theorem streamBits_append (p q : List Byte) : streamBits (p ++ q) = streamBits p ++ streamBits q :=
  List.flatMap_append

@[simp] theorem streamBits_length (p : List Byte) : (streamBits p).length = 8 * p.length := by
  induction p with
  | nil => rfl
  | cons b p ih => rw [streamBits_cons, List.length_append, ih, bitsOf_length, List.length_cons]; ring

@[simp] theorem bytesOfBits_length (m : Nat) (bs : List Bool) : (bytesOfBits m bs).length = m := by
  induction m generalizing bs with
  | zero => rfl
  | succ m ih => simp [bytesOfBits, ih]

/-- The stream of a stream's bytes is the stream (R164). -/
theorem streamBits_bytesOfBits (m : Nat) (bs : List Bool) (h : bs.length = 8 * m) :
    streamBits (bytesOfBits m bs) = bs := by
  induction m generalizing bs with
  | zero => simp [bytesOfBits, List.length_eq_zero_iff.mp h]
  | succ m ih =>
    have h8 : (bs.take 8).length = 8 := by rw [List.length_take]; omega
    have hv : valOf (bs.take 8) < 2 ^ 8 := by simpa only [h8] using valOf_lt (bs.take 8)
    have hb := bitsOf_valOf (bs.take 8)
    rw [h8] at hb
    rw [bytesOfBits, streamBits_cons, ih _ (by rw [List.length_drop]; omega), BitVec.toNat_ofNat,
      Nat.mod_eq_of_lt hv, hb, List.take_append_drop]

/-- The bytes of a byte sequence's stream are the sequence. -/
theorem bytesOfBits_streamBits (p : List Byte) : bytesOfBits p.length (streamBits p) = p := by
  induction p with
  | nil => rfl
  | cons b p ih =>
    rw [List.length_cons, streamBits_cons, bytesOfBits, List.take_left' (bitsOf_length _ _),
      List.drop_left' (bitsOf_length _ _), ih, valOf_bitsOf, Nat.mod_eq_of_lt b.isLt,
      BitVec.ofNat_toNat, BitVec.setWidth_eq]

/-! ### Big-endian fields (R14, R63, R87) -/

theorem bigEndian_foldl (acc : Nat) (bs : List Byte) :
    bs.foldl (fun acc b => 256 * acc + b.toNat) acc = acc * 256 ^ bs.length + bigEndian bs := by
  unfold bigEndian
  induction bs generalizing acc with
  | nil => simp
  | cons b bs ih =>
    rw [List.foldl_cons, List.foldl_cons, ih, ih (256 * 0 + b.toNat), List.length_cons, Nat.pow_succ]
    ring

@[simp] theorem bigEndian_nil : bigEndian [] = 0 := rfl

theorem bigEndian_cons (b : Byte) (bs : List Byte) :
    bigEndian (b :: bs) = b.toNat * 256 ^ bs.length + bigEndian bs := by
  rw [bigEndian, List.foldl_cons, bigEndian_foldl]
  simp

theorem bigEndian_lt (bs : List Byte) : bigEndian bs < 256 ^ bs.length := by
  induction bs with
  | nil => simp
  | cons b bs ih =>
    have hb := b.isLt
    rw [bigEndian_cons, List.length_cons, Nat.pow_succ]
    nlinarith [Nat.mul_le_mul_right (256 ^ bs.length) (Nat.le_of_lt_succ hb)]

@[simp] theorem bigEndianBytes_length (v n : Nat) : (bigEndianBytes v n).length = n := by
  induction n with
  | zero => rfl
  | succ n ih => simp [bigEndianBytes, ih]

/-- Reading back the n-byte big-endian form of v gives v, if it fits. -/
theorem bigEndian_bigEndianBytes (v n : Nat) : bigEndian (bigEndianBytes v n) = v % 256 ^ n := by
  induction n with
  | zero => simp [bigEndianBytes, Nat.mod_one]
  | succ n ih =>
    rw [bigEndianBytes, bigEndian_cons, ih, bigEndianBytes_length, BitVec.toNat_ofNat,
      show 2 ^ 8 = 256 from rfl, Nat.pow_succ 256 n, Nat.mod_mul]
    ring

end Sys2Proof.Machine
end

