-- ==== Sys2Proof/Laws/Table.lean ====
section
/-! SUPPORT. What the table register files do: an entry after a write, extensionality, and the symbols
of a table. -/

namespace Sys2Proof

@[simp] theorem allSymbols_getElem (i : Nat) (h : i < allSymbols.length) :
    allSymbols[i] = BitVec.ofNat 8 i := by
  simp [allSymbols]

@[simp] theorem mem_allSymbols (s : Symbol) : s ∈ allSymbols := by
  rw [allSymbols, List.mem_map]
  exact ⟨s.toNat, List.mem_range.mpr s.isLt, by simp⟩

theorem allSymbols_pairwise : allSymbols.Pairwise (· < ·) := by
  rw [allSymbols, List.pairwise_map]
  refine (List.pairwise_lt_range (n := 256)).imp_of_mem fun {a b} ha hb hab => ?_
  rw [List.mem_range] at ha hb
  rw [BitVec.lt_def, BitVec.toNat_ofNat, BitVec.toNat_ofNat, Nat.mod_eq_of_lt ha,
    Nat.mod_eq_of_lt hb]
  exact hab

theorem allSymbols_nodup : allSymbols.Nodup :=
  allSymbols_pairwise.imp fun h e => by subst e; exact absurd h (BitVec.lt_irrefl _)

namespace Table

variable {α : Type}

@[simp] theorem get_tabulate (f : Symbol → α) (s : Symbol) : (tabulate f).get s = f s := by
  simp [get, tabulate]

@[simp] theorem get_const (v : α) (s : Symbol) : (const v).get s = v := get_tabulate _ s

theorem get_set (t : Table α) (s x : Symbol) (v : α) :
    (t.set s v).get x = if x = s then v else t.get x := by
  simp only [get, set, List.getElem_set, BitVec.toNat_inj, eq_comm]

@[simp] theorem get_set_self (t : Table α) (s : Symbol) (v : α) : (t.set s v).get s = v := by
  rw [get_set, if_pos rfl]

theorem get_set_of_ne (t : Table α) {s x : Symbol} (v : α) (h : x ≠ s) :
    (t.set s v).get x = t.get x := by
  rw [get_set, if_neg h]

/-- Two tables with the same entries are equal. -/
@[ext] theorem ext_get {t u : Table α} (h : ∀ s, t.get s = u.get s) : t = u := by
  obtain ⟨t, ht⟩ := t
  obtain ⟨u, hu⟩ := u
  congr 1
  refine List.ext_getElem (ht.trans hu.symm) fun i h₁ _ => ?_
  have hi : i < 256 := ht ▸ h₁
  simpa [get, Nat.mod_eq_of_lt hi] using h (BitVec.ofNat 8 i)

@[simp] theorem tabulate_get (t : Table α) : tabulate t.get = t := by
  ext s
  rw [get_tabulate]

theorem zip_entries (t : Table α) :
    allSymbols.zip t.entries = allSymbols.map fun s => (s, t.get s) := by
  refine List.ext_getElem (by simp [allSymbols_length, t.size]) fun i h₁ _ => ?_
  have hi : i < 256 := by simpa [allSymbols_length, t.size] using h₁
  simp [get, Nat.mod_eq_of_lt hi]

/-- The symbols of a test are a filter of all symbols. -/
theorem symbolsWhere_eq (t : Table α) (p : α → Bool) :
    t.symbolsWhere p = allSymbols.filter fun s => p (t.get s) := by
  rw [symbolsWhere, zip_entries, List.filter_map, List.map_map]
  exact List.map_id _

@[simp] theorem mem_symbolsWhere {t : Table α} {p : α → Bool} {s : Symbol} :
    s ∈ t.symbolsWhere p ↔ p (t.get s) = true := by
  simp [symbolsWhere_eq]

theorem symbolsWhere_pairwise (t : Table α) (p : α → Bool) :
    (t.symbolsWhere p).Pairwise (· < ·) := by
  rw [symbolsWhere_eq]
  exact allSymbols_pairwise.filter _

theorem symbolsWhere_nodup (t : Table α) (p : α → Bool) : (t.symbolsWhere p).Nodup := by
  rw [symbolsWhere_eq]
  exact allSymbols_nodup.filter _

theorem symbolsWhere_length_le (t : Table α) (p : α → Bool) : (t.symbolsWhere p).length ≤ 256 := by
  rw [symbolsWhere_eq, ← allSymbols_length]
  exact List.length_filter_le _ _

end Table

end Sys2Proof
end

