-- ==== Sys2Proof/Laws/Codebook.lean ====
section
/-! SUPPORT. The canonical code: the order of rule R141, the closed form of rule R143, and the intervals of
rule R146. -/

namespace Sys2Proof.Machine

/-! ### The present symbols -/

@[simp] theorem mem_presentSymbols {pres : Table Bool} {s : Symbol} :
    s ∈ presentSymbols pres ↔ pres.get s = true := by
  simp [presentSymbols]

theorem presentSymbols_pairwise (pres : Table Bool) : (presentSymbols pres).Pairwise (· < ·) :=
  Table.symbolsWhere_pairwise _ _

theorem presentSymbols_nodup (pres : Table Bool) : (presentSymbols pres).Nodup :=
  Table.symbolsWhere_nodup _ _

theorem presentCount_le (pres : Table Bool) : presentCount pres ≤ 256 :=
  Table.symbolsWhere_length_le _ _

/-! ### The order of rule R141 -/

/-- x strictly before y in the order of rule R141. -/
abbrev canonLt (len : Table Byte) (x y : Symbol) : Prop :=
  len.get x < len.get y ∨ (len.get x = len.get y ∧ x < y)

theorem canonLe_total (len : Table Byte) : Std.Total (canonLe len) where
  total a b := by
    simp only [canonLe, BitVec.lt_def, BitVec.le_def, ← BitVec.toNat_inj]
    omega

theorem canonLe_trans (len : Table Byte) : IsTrans Symbol (canonLe len) where
  trans a b c := by
    simp only [canonLe, BitVec.lt_def, BitVec.le_def, ← BitVec.toNat_inj]
    omega

theorem canonOrder_perm (pres : Table Bool) (len : Table Byte) :
    (canonOrder pres len).Perm (presentSymbols pres) :=
  List.perm_insertionSort _ _

@[simp] theorem mem_canonOrder {pres : Table Bool} {len : Table Byte} {s : Symbol} :
    s ∈ canonOrder pres len ↔ pres.get s = true := by
  rw [(canonOrder_perm pres len).mem_iff, mem_presentSymbols]

/-- "for j < j': (LEN[o[j]], o[j]) < (LEN[o[j']], o[j'])" (R141). -/
theorem canonOrder_pairwise (pres : Table Bool) (len : Table Byte) :
    (canonOrder pres len).Pairwise (canonLt len) := by
  have ht := canonLe_total len
  have htr := canonLe_trans len
  have hs : (canonOrder pres len).Pairwise (canonLe len) := List.pairwise_insertionSort _ _
  have hn : (canonOrder pres len).Nodup :=
    (canonOrder_perm pres len).nodup_iff.mpr (presentSymbols_nodup pres)
  refine (hs.and hn).imp fun {a b} h => ?_
  rcases h with ⟨h | ⟨h, hab⟩, hne⟩
  · exact .inl h
  · refine .inr ⟨h, ?_⟩
    rw [BitVec.lt_def]
    rw [BitVec.le_def] at hab
    have : a.toNat ≠ b.toNat := fun e => hne (BitVec.toNat_inj.mp e)
    omega

/-! ### The closed form of rule R143 -/

/-- The sum over the symbols of a list of `2^(l - L[t])`. -/
def codeSum (len : Table Byte) (l : Nat) (ts : List Symbol) : Nat :=
  (ts.map fun t => 2 ^ (l - (len.get t).toNat)).sum

/-- The code value that `assignAfter` gives a symbol: the symbols before it each add `2^(L[s] - L[t])`. -/
theorem lookup_assignAfter (len : Table Byte) (s : Symbol) (before after : List Symbol)
    (prev code : Nat) (hs : s ∉ before)
    (hp : (before ++ s :: after).Pairwise (fun x y => (len.get x).toNat ≤ (len.get y).toNat))
    (hprev : ∀ x ∈ before ++ s :: after, prev ≤ (len.get x).toNat) :
    (assignAfter len prev code (before ++ s :: after)).lookup s =
      some ((code + 1) * 2 ^ ((len.get s).toNat - prev) + codeSum len (len.get s).toNat before) := by
  induction before generalizing prev code with
  | nil => simp [assignAfter, codeSum, Nat.shiftLeft_eq]
  | cons b before ih =>
    rw [List.mem_cons, not_or] at hs
    rw [List.cons_append, List.pairwise_cons] at hp
    have hpb := hprev b List.mem_cons_self
    have hbs := hp.1 s (by simp)
    rw [List.cons_append, assignAfter]
    simp only [List.lookup_cons]
    rw [show (s == b) = false from beq_eq_false_iff_ne.mpr hs.1]
    simp only
    rw [ih _ _ hs.2 hp.2 hp.1, Nat.shiftLeft_eq]
    congr 1
    have e : (len.get s).toNat - prev =
        ((len.get b).toNat - prev) + ((len.get s).toNat - (len.get b).toNat) := by omega
    rw [e, Nat.pow_add, codeSum, codeSum, List.map_cons, List.sum_cons]
    ring

theorem lookup_assignCodes (len : Table Byte) (s : Symbol) (before after : List Symbol)
    (hs : s ∉ before)
    (hp : (before ++ s :: after).Pairwise (fun x y => (len.get x).toNat ≤ (len.get y).toNat)) :
    (assignCodes len (before ++ s :: after)).lookup s =
      some (codeSum len (len.get s).toNat before) := by
  cases before with
  | nil => simp [assignCodes, codeSum]
  | cons b before =>
    rw [List.mem_cons, not_or] at hs
    rw [List.cons_append, List.pairwise_cons] at hp
    rw [List.cons_append, assignCodes]
    simp only [List.lookup_cons]
    rw [show (s == b) = false from beq_eq_false_iff_ne.mpr hs.1]
    simp only
    rw [lookup_assignAfter len s before after _ _ hs.2 hp.2 hp.1]
    simp [codeSum]

/-- The present symbols before a symbol in the order of rule R141. -/
def symbolsBefore (pres : Table Bool) (len : Table Byte) (s : Symbol) : List Symbol :=
  (presentSymbols pres).filter fun t => decide (canonLt len t s)

theorem canonLt_irrefl (len : Table Byte) (x : Symbol) : ¬ canonLt len x x := by
  simp [canonLt]

theorem canonLt_asymm {len : Table Byte} {x y : Symbol} (h : canonLt len x y) :
    ¬ canonLt len y x := by
  simp only [canonLt, BitVec.lt_def, ← BitVec.toNat_inj] at h ⊢
  omega

/-- The symbols that stand before a present symbol in the order are those before it by the order. -/
theorem canonOrder_split {pres : Table Bool} {len : Table Byte} {s : Symbol}
    (h : pres.get s = true) :
    ∃ before after, canonOrder pres len = before ++ s :: after ∧ s ∉ before ∧
      before.Perm (symbolsBefore pres len s) := by
  obtain ⟨before, after, he⟩ := List.append_of_mem (mem_canonOrder (len := len).mpr h)
  have hp := canonOrder_pairwise pres len
  rw [he, List.pairwise_append, List.pairwise_cons] at hp
  have hb : ∀ x ∈ before, canonLt len x s := fun x hx => hp.2.2 x hx s List.mem_cons_self
  have ha : ∀ x ∈ after, ¬ canonLt len x s := fun x hx => canonLt_asymm (hp.2.1.1 x hx)
  refine ⟨before, after, he, fun hs => canonLt_irrefl len s (hb s hs), ?_⟩
  have hf := ((canonOrder_perm pres len).filter fun t => decide (canonLt len t s))
  rw [he, List.filter_append, List.filter_cons,
    List.filter_eq_self.mpr fun x hx => decide_eq_true (hb x hx),
    List.filter_eq_nil_iff.mpr fun x hx => by simpa using ha x hx] at hf
  rwa [decide_eq_false (canonLt_irrefl len s), if_neg Bool.false_ne_true, List.append_nil] at hf

/-- The closed form of rule R143: `C[s] = sum over t before s of 2^(L[s] - L[t])`. -/
theorem canon_get {pres : Table Bool} {len : Table Byte} {s : Symbol} (h : pres.get s = true) :
    (canon pres len).get s =
      BitVec.ofNat 255 (codeSum len (len.get s).toNat (symbolsBefore pres len s)) := by
  obtain ⟨before, after, he, hs, hperm⟩ := canonOrder_split (len := len) h
  have hp := (canonOrder_pairwise pres len).imp
    (S := fun x y => (len.get x).toNat ≤ (len.get y).toNat) fun {x y} hxy => by
      simp only [canonLt, BitVec.lt_def, ← BitVec.toNat_inj] at hxy
      omega
  rw [he] at hp
  rw [canon, Table.get_tabulate, he, lookup_assignCodes len s before after hs hp, Option.getD_some]
  congr 1
  exact (hperm.map _).sum_eq

theorem canon_get_absent {pres : Table Bool} {len : Table Byte} {s : Symbol}
    (h : pres.get s = false) : (canon pres len).get s = 0 := by
  have hno : ∀ prev code o, s ∉ o → (assignAfter len prev code o).lookup s = none := by
    intro prev code o
    induction o generalizing prev code with
    | nil => intro _; rfl
    | cons x o ih =>
      intro hs
      rw [List.mem_cons, not_or] at hs
      rw [assignAfter]
      simp only [List.lookup_cons]
      rw [show (s == x) = false from beq_eq_false_iff_ne.mpr hs.1]
      exact ih _ _ hs.2
  have hs : s ∉ canonOrder pres len := by simp [h]
  rw [canon, Table.get_tabulate]
  cases ho : canonOrder pres len with
  | nil => rfl
  | cons x o =>
    rw [ho, List.mem_cons, not_or] at hs
    rw [assignCodes, List.lookup_cons, show (s == x) = false from beq_eq_false_iff_ne.mpr hs.1]
    simp only
    rw [hno _ _ o hs.2]
    rfl

/-! ### The intervals of rule R146 -/

/-- The Kraft sum of a list of symbols, in units of 2^-255. -/
def kraftOf (len : Table Byte) (ts : List Symbol) : Nat :=
  (ts.map fun t => 2 ^ (255 - (len.get t).toNat)).sum

theorem kraftSum_eq (pres : Table Bool) (len : Table Byte) :
    kraftSum pres len = kraftOf len (presentSymbols pres) := rfl

/-- The start of a symbol's interval: the Kraft sum of the symbols before it (R146). -/
def startOf (pres : Table Bool) (len : Table Byte) (s : Symbol) : Nat :=
  kraftOf len (symbolsBefore pres len s)

/-- The width of a symbol's interval (R146). -/
def widthOf (len : Table Byte) (s : Symbol) : Nat := 2 ^ (255 - (len.get s).toNat)

theorem len_le_255 (len : Table Byte) (s : Symbol) : (len.get s).toNat ≤ 255 := by
  have := (len.get s).isLt
  omega

/-- `C[s]` scaled to the unit 2^-255 is the start of the interval of s (R146). -/
theorem codeSum_scaled (pres : Table Bool) (len : Table Byte) (s : Symbol) :
    codeSum len (len.get s).toNat (symbolsBefore pres len s) * widthOf len s =
      startOf pres len s := by
  have hle : ∀ t ∈ symbolsBefore pres len s, (len.get t).toNat ≤ (len.get s).toNat := by
    intro t ht
    have := (List.mem_filter.mp ht).2
    simp only [canonLt, BitVec.lt_def, ← BitVec.toNat_inj, decide_eq_true_eq] at this
    omega
  have hs := len_le_255 len s
  unfold startOf kraftOf codeSum widthOf
  generalize symbolsBefore pres len s = ts at hle
  induction ts with
  | nil => simp
  | cons t ts ih =>
    rw [List.map_cons, List.sum_cons, Nat.add_mul, ih fun x hx => hle x (List.mem_cons_of_mem _ hx),
      List.map_cons, List.sum_cons, ← Nat.pow_add]
    have := hle t List.mem_cons_self
    congr 2
    omega

theorem kraftOf_perm {len : Table Byte} {ts us : List Symbol} (h : ts.Perm us) :
    kraftOf len ts = kraftOf len us := (h.map _).sum_eq

theorem kraftOf_append (len : Table Byte) (ts us : List Symbol) :
    kraftOf len (ts ++ us) = kraftOf len ts + kraftOf len us := by
  simp [kraftOf]

theorem kraftOf_cons (len : Table Byte) (t : Symbol) (ts : List Symbol) :
    kraftOf len (t :: ts) = widthOf len t + kraftOf len ts := by
  simp [kraftOf, widthOf]

/-- The intervals are inside the Kraft sum. -/
theorem startOf_add_width_le {pres : Table Bool} {len : Table Byte} {s : Symbol}
    (h : pres.get s = true) : startOf pres len s + widthOf len s ≤ kraftSum pres len := by
  obtain ⟨before, after, he, _, hperm⟩ := canonOrder_split (len := len) h
  rw [kraftSum_eq, ← kraftOf_perm (canonOrder_perm pres len), he, kraftOf_append, kraftOf_cons,
    startOf, ← kraftOf_perm hperm]
  omega

/-- The intervals are consecutive: a later symbol's starts at or after an earlier one's end. -/
theorem startOf_of_canonLt {pres : Table Bool} {len : Table Byte} {x y : Symbol}
    (hx : pres.get x = true) (hy : pres.get y = true) (h : canonLt len x y) :
    startOf pres len x + widthOf len x ≤ startOf pres len y := by
  obtain ⟨before, after, he, hyb, hperm⟩ := canonOrder_split (len := len) hy
  have hxm : x ∈ before := hperm.mem_iff.mpr
    (List.mem_filter.mpr ⟨mem_presentSymbols.mpr hx, decide_eq_true h⟩)
  obtain ⟨b₁, b₂, hb⟩ := List.append_of_mem hxm
  have hp := canonOrder_pairwise pres len
  rw [he, hb] at hp
  have hperm₁ : b₁.Perm (symbolsBefore pres len x) := by
    have hf := ((canonOrder_perm pres len).filter fun t => decide (canonLt len t x))
    rw [he, hb] at hf
    have hp1 : ∀ t ∈ b₁, canonLt len t x := by
      intro t ht
      rw [List.append_assoc, List.pairwise_append] at hp
      exact hp.2.2 t ht x (by simp)
    have hp2 : ∀ t ∈ b₂ ++ y :: after, ¬ canonLt len t x := by
      intro t ht
      rw [List.append_assoc, List.pairwise_append, List.cons_append, List.pairwise_cons] at hp
      exact canonLt_asymm (hp.2.1.1 t ht)
    rw [List.append_assoc, List.filter_append, List.cons_append, List.filter_cons,
      List.filter_eq_self.mpr fun t ht => decide_eq_true (hp1 t ht),
      List.filter_eq_nil_iff.mpr fun t ht => by simpa using hp2 t ht] at hf
    rwa [decide_eq_false (canonLt_irrefl len x), if_neg Bool.false_ne_true, List.append_nil] at hf
  rw [startOf, startOf, ← kraftOf_perm hperm, hb, kraftOf_append, kraftOf_cons,
    ← kraftOf_perm hperm₁]
  omega

/-- With a Kraft sum of at most 1 a code value fits its length (R146 a). -/
theorem codeSum_lt {pres : Table Bool} {len : Table Byte} {s : Symbol} (h : pres.get s = true)
    (hk : kraftSum pres len ≤ 2 ^ 255) :
    codeSum len (len.get s).toNat (symbolsBefore pres len s) < 2 ^ (len.get s).toNat := by
  have h₁ := codeSum_scaled pres len s
  have h₂ := startOf_add_width_le (len := len) h
  have hs := len_le_255 len s
  have hw : 2 ^ (len.get s).toNat * widthOf len s = 2 ^ 255 := by
    rw [widthOf, ← Nat.pow_add]
    congr 1
    omega
  have hpos : 0 < widthOf len s := Nat.two_pow_pos _
  by_contra hc
  have := Nat.mul_le_mul_right (widthOf len s) (Nat.le_of_not_lt hc)
  omega

/-- The code value of a present symbol, with a Kraft sum of at most 1. -/
theorem canon_get_toNat {pres : Table Bool} {len : Table Byte} {s : Symbol} (h : pres.get s = true)
    (hk : kraftSum pres len ≤ 2 ^ 255) :
    ((canon pres len).get s).toNat =
      codeSum len (len.get s).toNat (symbolsBefore pres len s) := by
  rw [canon_get h, BitVec.toNat_ofNat, Nat.mod_eq_of_lt]
  exact Nat.lt_of_lt_of_le (codeSum_lt h hk) (Nat.pow_le_pow_right (by decide) (len_le_255 len s))

/-- "Symbols are distinct, so the sequence is unique" (R141). -/
theorem canonLt_total (len : Table Byte) {x y : Symbol} (h : x ≠ y) :
    canonLt len x y ∨ canonLt len y x := by
  have h' : x.toNat ≠ y.toNat := fun e => h (BitVec.toNat_inj.mp e)
  simp only [canonLt, BitVec.lt_def, ← BitVec.toNat_inj]
  omega

theorem codeBits_length (len : Table Byte) (code : Table CodeWord) (s) :
    (codeBits len code s).length = (len.get s).toNat := by
  simp [codeBits]

theorem valOf_codeBits {pres : Table Bool} {len : Table Byte} {s : Symbol} (h : pres.get s = true)
    (hk : kraftSum pres len ≤ 2 ^ 255) :
    valOf (codeBits len (canon pres len) s) =
      codeSum len (len.get s).toNat (symbolsBefore pres len s) := by
  rw [codeBits, valOf_bitsOf, canon_get_toNat h hk, Nat.mod_eq_of_lt (codeSum_lt h hk)]

/-- A code is a binary fraction interval that starts at the Kraft sum of the symbols before it (R146). -/
theorem code_interval {pres : Table Bool} {len : Table Byte} {s : Symbol} (h : pres.get s = true)
    (hk : kraftSum pres len ≤ 2 ^ 255) :
    valOf (codeBits len (canon pres len) s) * widthOf len s = startOf pres len s := by
  rw [valOf_codeBits h hk, codeSum_scaled]

end Sys2Proof.Machine
end

