-- ==== Sys2Proof/Laws/Tree.lean ====
section
/-! SUPPORT. The tree builder: which nodes a merge step takes (R122, R123), what it leaves, and the forest
that the `par` links form after any number of steps (R123 to R125). -/

namespace Sys2Proof.Machine

/-! ### The order of rule R122 -/

theorem nodePrecedes_iff (x y : NodeSlot) :
    nodePrecedes x y = true ↔ x.w < y.w ∨ (x.w = y.w ∧ x.slot < y.slot) := by
  simp [nodePrecedes]

theorem nodePrecedes_trans {x y z : NodeSlot} (hxy : nodePrecedes x y = true)
    (hyz : nodePrecedes y z = true) : nodePrecedes x z = true := by
  rw [nodePrecedes_iff, BitVec.lt_def, ← BitVec.toNat_inj] at *
  omega

/-- "Slots are distinct, so the order is total" (R122). -/
theorem nodePrecedes_total {x y : NodeSlot} (h : x.slot ≠ y.slot) :
    nodePrecedes x y = true ∨ nodePrecedes y x = true := by
  rw [nodePrecedes_iff, nodePrecedes_iff, BitVec.lt_def, BitVec.lt_def, ← BitVec.toNat_inj,
    ← BitVec.toNat_inj]
  omega

theorem firstNode_eq_none {l : List NodeSlot} : firstNode l = none ↔ l = [] := by
  cases l with
  | nil => simp [firstNode]
  | cons x xs =>
    rw [firstNode]
    split
    · simp
    · split <;> simp

/-- The first node of a list is in it, and before every node of another slot. -/
theorem firstNode_spec {l : List NodeSlot} {x : NodeSlot}
    (hn : (l.map (·.slot)).Nodup) (h : firstNode l = some x) :
    x ∈ l ∧ ∀ y ∈ l, y.slot ≠ x.slot → nodePrecedes x y = true := by
  induction l generalizing x with
  | nil => cases h
  | cons z zs ih =>
    rw [List.map_cons, List.nodup_cons] at hn
    rw [firstNode] at h
    split at h
    case h_1 hz =>
      cases h
      rw [firstNode_eq_none] at hz
      subst hz
      exact ⟨List.mem_cons_self, fun y hy hs => by simp_all⟩
    case h_2 y hy =>
      obtain ⟨hyl, hyf⟩ := ih hn.2 hy
      have hzy : z.slot ≠ y.slot := fun e => hn.1 (e ▸ List.mem_map_of_mem hyl)
      split at h
      case isTrue hp =>
        cases h
        refine ⟨List.mem_cons_self, fun u hu hs => ?_⟩
        rcases List.mem_cons.mp hu with rfl | hu
        · exact absurd rfl hs
        · by_cases hus : u.slot = y.slot
          · rcases nodePrecedes_total (x := z) (y := u) (fun e => hs e.symm) with h | h
            · exact h
            · have hw : u = y := by
                by_contra hne
                exact hne (List.inj_on_of_nodup_map hn.2 hu hyl hus)
              exact hw ▸ hp
          · exact nodePrecedes_trans hp (hyf u hu hus)
      case isFalse hp =>
        cases h
        refine ⟨List.mem_cons_of_mem _ hyl, fun u hu hs => ?_⟩
        rcases List.mem_cons.mp hu with rfl | hu
        · exact (nodePrecedes_total hzy).resolve_left hp
        · exact hyf u hu hs

/-! ### One merge step -/

/-- The nodes in slots a and b become dead children of slot i. -/
def adopt (a b i : Nat) (x : NodeSlot) : NodeSlot :=
  if x.slot = a ∨ x.slot = b then { x with alive := false, par := some i } else x

@[simp] theorem adopt_slot (a b i : Nat) (x : NodeSlot) : (adopt a b i x).slot = x.slot := by
  unfold adopt
  split <;> rfl

theorem aliveNodes_kill (t : Tree) (a : Nat) :
    (t.kill a).aliveNodes = t.aliveNodes.filter fun x => x.slot ≠ a := by
  rw [Tree.kill, Tree.aliveNodes, Tree.aliveNodes]
  induction t with
  | nil => rfl
  | cons x t ih =>
    rw [List.map_cons]
    by_cases hx : x.slot = a
    · rw [if_pos hx, List.filter_cons_of_neg (by simp), ih]
      cases hal : x.alive
      · rw [List.filter_cons_of_neg (by simp [hal])]
      · rw [List.filter_cons_of_pos (by simp [hal]), List.filter_cons_of_neg (by simp [hx])]
    · rw [if_neg hx]
      cases hal : x.alive
      · rw [List.filter_cons_of_neg (by simp [hal]), List.filter_cons_of_neg (by simp [hal]), ih]
      · rw [List.filter_cons_of_pos (by simp [hal]), List.filter_cons_of_pos (by simp [hal]),
          List.filter_cons_of_pos (by simp [hx]), ih]

/-- What a merge step does when two or more nodes are alive: it takes the first two nodes a and b in the
order of rule R122, and both become children of the new node (R123). -/
theorem merge_spec {t : Tree} (k : Nat) (hn : (t.map (·.slot)).Nodup)
    (h : 2 ≤ t.aliveNodes.length) :
    ∃ a b, a ∈ t.aliveNodes ∧ b ∈ t.aliveNodes ∧ a.slot ≠ b.slot ∧
      (∀ x ∈ t.aliveNodes, x.slot ≠ a.slot → nodePrecedes a x = true) ∧
      (∀ x ∈ t.aliveNodes, x.slot ≠ a.slot → x.slot ≠ b.slot → nodePrecedes b x = true) ∧
      t.merge k = t.map (adopt a.slot b.slot (256 + k)) ++
        [{ slot := 256 + k, w := a.w + b.w, alive := true, par := none }] := by
  have hsub : (t.aliveNodes.map (·.slot)).Nodup := hn.sublist (List.filter_sublist.map _)
  cases ha : firstNode t.aliveNodes with
  | none => simp [firstNode_eq_none.mp ha] at h
  | some a =>
    obtain ⟨haa, haf⟩ := firstNode_spec hsub ha
    cases hb : firstNode (t.kill a.slot).aliveNodes with
    | none =>
      rw [firstNode_eq_none, aliveNodes_kill, List.filter_eq_nil_iff] at hb
      have hall : ∀ x ∈ t.aliveNodes, x = a := fun x hx =>
        List.inj_on_of_nodup_map hsub hx haa (by simpa using hb x hx)
      have := List.eq_replicate_iff.mpr ⟨rfl, hall⟩
      rw [this, List.map_replicate] at hsub
      have := List.nodup_replicate.mp hsub
      omega
    | some b =>
      have hsub' : ((t.kill a.slot).aliveNodes.map (·.slot)).Nodup := by
        rw [aliveNodes_kill]
        exact hsub.sublist (List.filter_sublist.map _)
      obtain ⟨hba, hbf⟩ := firstNode_spec hsub' hb
      rw [aliveNodes_kill] at hba hbf
      have hba' := List.mem_filter.mp hba
      have hne : b.slot ≠ a.slot := by simpa using hba'.2
      refine ⟨a, b, haa, hba'.1, hne.symm, haf, fun x hx hxa hxb =>
        hbf x (List.mem_filter.mpr ⟨hx, by simpa using hxa⟩) hxb, ?_⟩
      simp only [Tree.merge, ha, hb]
      congr 1
      simp only [Tree.kill, Tree.setPar, List.map_map]
      refine List.map_congr_left fun x _ => ?_
      by_cases hxa : x.slot = a.slot
      · simp [adopt, hxa, hne.symm]
      · by_cases hxb : x.slot = b.slot <;> simp [adopt, hxa, hxb, hne]

theorem parentOf_append_new {t : Tree} {i : Nat} {w : Weight} (x : Nat) :
    Tree.parentOf (t ++ [{ slot := i, w := w, alive := true, par := none }]) x = t.parentOf x := by
  rw [Tree.parentOf, Tree.parentOf, List.find?_append]
  cases ht : t.find? fun y => y.slot == x with
  | some y => simp
  | none =>
    by_cases hi : i = x <;> simp [hi]

theorem parentOf_adopt {t : Tree} {a b i x : Nat} (hx : x ∈ t.map (·.slot)) :
    Tree.parentOf (t.map (adopt a b i)) x = if x = a ∨ x = b then some i else t.parentOf x := by
  induction t with
  | nil => cases hx
  | cons y t ih =>
    rw [Tree.parentOf, Tree.parentOf] at *
    rw [List.map_cons]
    by_cases hy : y.slot = x
    · rw [List.find?_cons_of_pos (by simp [hy]), List.find?_cons_of_pos (by simp [hy])]
      subst hy
      by_cases hab : y.slot = a ∨ y.slot = b
      · simp [adopt, hab]
      · simp [adopt, hab]
    · rw [List.find?_cons_of_neg (by simp [hy]), List.find?_cons_of_neg (by simp [hy])]
      refine ih ?_
      rcases List.mem_cons.mp hx with h | h
      · exact absurd h.symm hy
      · exact h

theorem parentOf_of_not_mem {t : Tree} {x : Nat} (hx : x ∉ t.map (·.slot)) :
    t.parentOf x = none := by
  rw [Tree.parentOf, List.find?_eq_none.mpr]
  · rfl
  · intro y hy he
    exact hx ((beq_iff_eq.mp he) ▸ List.mem_map_of_mem hy)

theorem parentOf_of_mem {t : Tree} {x : NodeSlot} (hn : (t.map (·.slot)).Nodup) (hx : x ∈ t) :
    t.parentOf x.slot = x.par := by
  rw [Tree.parentOf]
  cases hf : t.find? fun y => y.slot == x.slot with
  | none => exact absurd (by simp) (List.find?_eq_none.mp hf x hx)
  | some y =>
    have hy := List.mem_of_find?_eq_some hf
    have hys : y.slot = x.slot := by simpa using List.find?_some hf
    rw [List.inj_on_of_nodup_map hn hy hx hys]
    rfl

end Sys2Proof.Machine
end

