-- ==== Sys2Proof/Laws/Forest.lean ====
section
/-! SUPPORT. The forest that merge steps build (R121 to R125): what holds after any number of them, the
depth of a leaf, and the Kraft sum of the depths. -/

namespace Sys2Proof.Machine

/-- The weights of a list of nodes, summed exactly. -/
def weightSum (l : List NodeSlot) : Nat := (l.map fun x => x.w.toNat).sum

/-- What holds of the tree memory after k merge steps from leaves in the slots S (R121 to R123). -/
structure TreeOk (leaves : List Nat) (total k : Nat) (t : Tree) : Prop where
  slots : t.map (·.slot) = leaves ++ (List.range k).map (256 + ·)
  aliveIff : ∀ x ∈ t, x.alive = true ↔ x.par = none
  parBound : ∀ x ∈ t, ∀ p, x.par = some p → x.slot < p ∧ 256 ≤ p ∧ p < 256 + k
  twoChildren : ∀ i, i < k → (t.filter fun x => x.par = some (256 + i)).length = 2
  aliveCount : t.aliveNodes.length + k = leaves.length
  weight : weightSum t.aliveNodes = total

theorem aliveNodes_adopt {t : Tree} (a b i : Nat) :
    Tree.aliveNodes (t.map (adopt a b i)) = t.aliveNodes.filter fun x => decide (x.slot ≠ a) && decide (x.slot ≠ b) := by
  rw [Tree.aliveNodes, Tree.aliveNodes]
  induction t with
  | nil => rfl
  | cons x t ih =>
    rw [List.map_cons]
    by_cases hx : x.slot = a ∨ x.slot = b
    · rw [adopt, if_pos hx, List.filter_cons_of_neg (by simp), ih]
      cases hal : x.alive
      · rw [List.filter_cons_of_neg (by simp [hal])]
      · rw [List.filter_cons_of_pos (by simp [hal]), List.filter_cons_of_neg]
        rcases hx with hx | hx <;> simp [hx]
    · rw [adopt, if_neg hx]
      rw [not_or] at hx
      cases hal : x.alive
      · rw [List.filter_cons_of_neg (by simp [hal]), List.filter_cons_of_neg (by simp [hal]), ih]
      · rw [List.filter_cons_of_pos (by simp [hal]), List.filter_cons_of_pos (by simp [hal]),
          List.filter_cons_of_pos (by simp [hx.1, hx.2]), ih]

/-- The alive nodes are the two that a merge step takes and the rest. -/
theorem aliveNodes_perm {t : Tree} {a b : NodeSlot} (hn : (t.map (·.slot)).Nodup)
    (ha : a ∈ t.aliveNodes) (hb : b ∈ t.aliveNodes) (hab : a.slot ≠ b.slot) :
    t.aliveNodes.Perm (a :: b :: t.aliveNodes.filter fun x => decide (x.slot ≠ a.slot) && decide (x.slot ≠ b.slot)) := by
  have hsub : (t.aliveNodes.map (·.slot)).Nodup := hn.sublist (List.filter_sublist.map _)
  have hnd : t.aliveNodes.Nodup := List.Nodup.of_map _ hsub
  rw [List.perm_ext_iff_of_nodup hnd]
  · intro x
    simp only [List.mem_cons, List.mem_filter, Bool.and_eq_true, decide_eq_true_eq]
    constructor
    · intro hx
      by_cases hxa : x.slot = a.slot
      · exact .inl (List.inj_on_of_nodup_map hsub hx ha hxa)
      · by_cases hxb : x.slot = b.slot
        · exact .inr (.inl (List.inj_on_of_nodup_map hsub hx hb hxb))
        · exact .inr (.inr ⟨hx, hxa, hxb⟩)
    · rintro (rfl | rfl | ⟨h, _⟩)
      · exact ha
      · exact hb
      · exact h
  · refine List.nodup_cons.mpr ⟨?_, List.nodup_cons.mpr ⟨?_, hnd.filter _⟩⟩
    · simp only [List.mem_cons, List.mem_filter, not_or]
      exact ⟨fun e => hab (e ▸ rfl), by simp⟩
    · simp

theorem TreeOk.nodup {ls : List Nat} {total k : Nat} {t : Tree} (h : TreeOk ls total k t)
    (hl : ls.Nodup) (hb : ∀ s ∈ ls, s < 256) : (t.map (·.slot)).Nodup := by
  rw [h.slots, List.nodup_append]
  refine ⟨hl, (List.nodup_range).map (fun _ _ e => Nat.add_left_cancel e), ?_⟩
  intro x hx y hy e
  obtain ⟨j, _, rfl⟩ := List.mem_map.mp hy
  have := hb x hx
  omega

theorem weightSum_le_of_mem {l : List NodeSlot} {x : NodeSlot} (h : x ∈ l) : x.w.toNat ≤ weightSum l :=
  List.single_le_sum (by simp) _ (List.mem_map_of_mem h)

theorem merge_ok {ls : List Nat} {total k : Nat} {t : Tree} (h : TreeOk ls total k t)
    (hl : ls.Nodup) (hb : ∀ s ∈ ls, s < 256) (htot : total < 2 ^ 72) (h2 : 2 ≤ t.aliveNodes.length) :
    TreeOk ls total (k + 1) (t.merge k) := by
  have hn := h.nodup hl hb
  obtain ⟨a, b, ha, hb', hab, _, _, he⟩ := merge_spec k hn h2
  have hperm := aliveNodes_perm hn ha hb' hab
  have hat := List.mem_filter.mp ha
  have hbt := List.mem_filter.mp hb'
  have hslot : ∀ x ∈ t, x.slot < 256 + k := by
    intro x hx
    have := List.mem_map_of_mem (f := (·.slot)) hx
    rw [h.slots, List.mem_append, List.mem_map] at this
    rcases this with h | ⟨j, hj, hj'⟩
    · have := hb _ h; omega
    · rw [List.mem_range] at hj; omega
  have hnew : Tree.aliveNodes [({ slot := 256 + k, w := a.w + b.w, alive := true, par := none } : NodeSlot)] = [{ slot := 256 + k, w := a.w + b.w, alive := true, par := none }] := rfl
  have halive : (t.merge k).aliveNodes = (t.aliveNodes.filter fun x => decide (x.slot ≠ a.slot) && decide (x.slot ≠ b.slot)) ++ [{ slot := 256 + k, w := a.w + b.w, alive := true, par := none }] := by
    rw [he, Tree.aliveNodes, List.filter_append, ← Tree.aliveNodes, aliveNodes_adopt]; rfl
  constructor
  · rw [he, List.map_append, List.map_map, List.range_succ, List.map_append, ← List.append_assoc, ← h.slots]
    congr 1
    exact List.map_congr_left fun x _ => adopt_slot _ _ _ x
  · intro x hx
    rw [he, List.mem_append, List.mem_map] at hx
    rcases hx with ⟨y, hy, rfl⟩ | hx
    · unfold adopt
      split
      · simp
      · exact h.aliveIff y hy
    · rw [List.mem_singleton] at hx; subst hx; simp
  · intro x hx p hp
    rw [he, List.mem_append, List.mem_map] at hx
    rcases hx with ⟨y, hy, rfl⟩ | hx
    · have hs := hslot y hy
      unfold adopt at hp ⊢
      split at hp
      · next hc => rw [if_pos hc]; simp at hp; subst hp; exact ⟨hs, by omega, by omega⟩
      · next hc => rw [if_neg hc]; have := h.parBound y hy p hp; omega
    · rw [List.mem_singleton] at hx; subst hx; simp at hp
  · intro i hi
    rw [he, List.filter_append, List.length_append, List.filter_map, List.length_map]
    rw [List.filter_cons_of_neg (by simp), List.filter_nil, List.length_nil, Nat.add_zero]
    by_cases hik : i = k
    · subst hik
      have e1 : (t.filter ((fun x => decide (x.par = some (256 + i))) ∘ adopt a.slot b.slot (256 + i))).Perm [a, b] := by
        have hnd : t.Nodup := List.Nodup.of_map _ hn
        rw [List.perm_ext_iff_of_nodup (hnd.filter _) (by simp; exact fun e => hab (e ▸ rfl))]
        intro x
        simp only [List.mem_filter, Function.comp, decide_eq_true_eq, List.mem_cons, List.not_mem_nil, or_false]
        constructor
        · rintro ⟨hx, hp⟩
          unfold adopt at hp
          split at hp
          · next hc => exact hc.imp (List.inj_on_of_nodup_map hn hx hat.1) (List.inj_on_of_nodup_map hn hx hbt.1)
          · have := h.parBound x hx _ hp; omega
        · rintro (rfl | rfl)
          · exact ⟨hat.1, by simp [adopt]⟩
          · exact ⟨hbt.1, by simp [adopt]⟩
      rw [e1.length_eq]; rfl
    · rw [← h.twoChildren i (by omega)]
      congr 1
      refine List.filter_congr fun x hx => ?_
      simp only [Function.comp, adopt]
      split
      · next hc =>
        have : x.par = none := by
          rcases hc with hc | hc
          · rw [List.inj_on_of_nodup_map hn hx hat.1 hc]; exact (h.aliveIff a hat.1).mp hat.2
          · rw [List.inj_on_of_nodup_map hn hx hbt.1 hc]; exact (h.aliveIff b hbt.1).mp hbt.2
        simp [this]; omega
      · rfl
  · rw [halive, List.length_append, List.length_singleton]
    have := hperm.length_eq
    have := h.aliveCount
    simp only [List.length_cons] at *
    omega
  · have hw := h.weight
    have hp2 : weightSum t.aliveNodes = a.w.toNat + (b.w.toNat + weightSum (t.aliveNodes.filter fun x => decide (x.slot ≠ a.slot) && decide (x.slot ≠ b.slot))) :=
      (hperm.map fun (x : NodeSlot) => x.w.toNat).sum_eq.trans (by rw [List.map_cons, List.sum_cons, List.map_cons, List.sum_cons]; rfl)
    rw [halive]
    have hs : ∀ l : List NodeSlot, ∀ x, weightSum (l ++ [x]) = weightSum l + x.w.toNat := by
      intro l x; simp [weightSum]
    rw [hs, BitVec.toNat_add, Nat.mod_eq_of_lt (by omega)]
    omega

/-- The merge steps keep the invariant, and go on while more than one node is alive (R123). -/
theorem mergeAll_ok {ls : List Nat} {total : Nat} (hl : ls.Nodup) (hb : ∀ s ∈ ls, s < 256)
    (htot : total < 2 ^ 72) (fuel k : Nat) (t : Tree) (h : TreeOk ls total k t) :
    ∃ k', TreeOk ls total k' (Tree.mergeAll fuel k t) ∧ k' ≤ k + fuel ∧
      ((Tree.mergeAll fuel k t).aliveNodes.length ≤ 1 ∨ k' = k + fuel) := by
  induction fuel generalizing k t with
  | zero => exact ⟨k, h, Nat.le_refl k, .inr rfl⟩
  | succ n ih =>
    rw [Tree.mergeAll]
    split
    · next h2 =>
      obtain ⟨k', h1, h3, h4⟩ := ih (k + 1) _ (merge_ok h hl hb htot h2)
      exact ⟨k', h1, by omega, h4.imp_right (by omega)⟩
    · exact ⟨k, h, Nat.le_add_right k _, .inl (by omega)⟩

theorem mem_countedSymbols {f : Table Word64} {s : Symbol} : s ∈ countedSymbols f ↔ f.get s ≠ 0 := by
  simp [countedSymbols]

/-- The merge steps never leave no node alive. -/
theorem mergeAll_alive (fuel k : Nat) (ls total) (t : Tree) (hl : ls.Nodup)
    (hb : ∀ s ∈ ls, s < 256) (htot : total < 2 ^ 72) (h : TreeOk ls total k t)
    (h1 : 1 ≤ t.aliveNodes.length) : 1 ≤ (Tree.mergeAll fuel k t).aliveNodes.length := by
  induction fuel generalizing k t with
  | zero => exact h1
  | succ n ih =>
    rw [Tree.mergeAll]
    split
    · next h2 =>
      have h3 := merge_ok h hl hb htot h2
      refine ih _ _ h3 ?_
      have := h3.aliveCount
      have := h.aliveCount
      omega
    · exact h1

/-- The sum of all counts of a frequency table. -/
def freqTotal (f : Table Word64) : Nat := ((countedSymbols f).map fun s => (f.get s).toNat).sum

/-- The invariant holds of the leaves, before any merge step (R121). -/
theorem leaves_ok (f : Table Word64) :
    TreeOk ((countedSymbols f).map (·.toNat)) (freqTotal f) 0 (leavesOf f) := by
  have hal : (leavesOf f).aliveNodes = leavesOf f := by
    rw [Tree.aliveNodes, List.filter_eq_self]
    intro x hx
    obtain ⟨s, _, rfl⟩ := List.mem_map.mp hx
    rfl
  constructor
  · rw [leavesOf, List.map_map]; simp; exact fun _ _ => rfl
  · intro x hx
    obtain ⟨s, _, rfl⟩ := List.mem_map.mp hx
    simp [leafOf]
  · intro x hx p hp
    obtain ⟨s, _, rfl⟩ := List.mem_map.mp hx
    simp [leafOf] at hp
  · intro i hi; omega
  · rw [hal]; simp [leavesOf]
  · rw [hal, weightSum, leavesOf, List.map_map, freqTotal]
    congr 1

theorem freqTotal_lt (f : Table Word64) : freqTotal f < 2 ^ 72 := by
  have h : ∀ l : List Symbol, (l.map fun s => (f.get s).toNat).sum ≤ l.length * (2^64 - 1) := by
    intro l
    induction l with
    | nil => simp
    | cons a l ih =>
      have := (f.get a).isLt
      rw [List.map_cons, List.sum_cons, List.length_cons, Nat.succ_mul]
      omega
  have h1 := h (countedSymbols f)
  have h2 := f.symbolsWhere_length_le (· != 0)
  rw [← countedSymbols] at h2
  rw [freqTotal]
  have := Nat.mul_le_mul_right (2^64-1) h2
  omega

theorem leaves_nodup (f : Table Word64) : ((countedSymbols f).map (·.toNat)).Nodup :=
  (f.symbolsWhere_nodup _).map fun _ _ e => BitVec.toNat_inj.mp e

theorem leaves_lt (f : Table Word64) : ∀ s ∈ (countedSymbols f).map (·.toNat), s < 256 := by
  intro s hs
  obtain ⟨x, _, rfl⟩ := List.mem_map.mp hs
  exact x.isLt

/-- "n leaves take exactly n - 1 steps", and one root remains (R123, R124). -/
theorem treeOf_ok (f : Table Word64) (h : countedSymbols f ≠ []) :
    TreeOk ((countedSymbols f).map (·.toNat)) (freqTotal f) ((countedSymbols f).length - 1)
        (treeOf f) ∧
      (treeOf f).aliveNodes.length = 1 := by
  have hne : 1 ≤ (countedSymbols f).length := List.length_pos_iff.mpr h
  have hle := f.symbolsWhere_length_le (· != 0)
  rw [← countedSymbols] at hle
  have h0 := leaves_ok f
  obtain ⟨k, hk, -, hd⟩ := mergeAll_ok (leaves_nodup f) (leaves_lt f) (freqTotal_lt f) 255 0 _ h0
  have h1 := mergeAll_alive 255 0 _ _ _ (leaves_nodup f) (leaves_lt f) (freqTotal_lt f) h0 (by
    have := h0.aliveCount; rw [List.length_map] at this; omega)
  have hc := hk.aliveCount
  rw [List.length_map] at hc
  have : k = (countedSymbols f).length - 1 := by omega
  subst this
  exact ⟨hk, by rw [treeOf]; omega⟩

/-! ### Depths (R125) -/

variable {ls : List Nat} {total k : Nat} {t : Tree}

/-- A parent is an internal node in a higher slot. -/
theorem parentOf_bound (h : TreeOk ls total k t) {x p : Nat} (hp : t.parentOf x = some p) :
    x < p ∧ 256 ≤ p ∧ p < 256 + k := by
  rw [Tree.parentOf] at hp
  cases hf : t.find? fun y => y.slot == x with
  | none => rw [hf] at hp; cases hp
  | some y =>
    rw [hf] at hp
    have h1 := List.mem_of_find?_eq_some hf
    have h2 : y.slot = x := by simpa using List.find?_some hf
    exact h2 ▸ h.parBound y h1 p hp

/-- More fuel than there are higher slots changes no depth. -/
theorem depth_stable (h : TreeOk ls total k t) (fuel x : Nat) (hf : 256 + k ≤ fuel + x + 1) :
    t.depth (fuel + 1) x = t.depth fuel x := by
  induction fuel generalizing x with
  | zero =>
    rw [Tree.depth, Tree.depth]
    split
    · rfl
    · next p hp => have := parentOf_bound h hp; omega
  | succ n ih =>
    rw [Tree.depth, Tree.depth]
    cases hp : t.parentOf x with
    | none => rfl
    | some p =>
      have := parentOf_bound h hp
      simp only
      rw [ih p (by omega)]

theorem depth_parent (h : TreeOk ls total k t) (hk : k ≤ 255) {x p : Nat}
    (hp : t.parentOf x = some p) : t.depth nodeMax x = t.depth nodeMax p + 1 := by
  have := parentOf_bound h hp
  show t.depth (510 + 1) x = t.depth (510 + 1) p + 1
  rw [depth_stable h 510 p (by omega), Tree.depth, hp]

theorem depth_root {x : Nat} (hp : t.parentOf x = none) : t.depth nodeMax x = 0 := by
  show t.depth (510 + 1) x = _
  rw [Tree.depth, hp]

theorem depth_bound (h : TreeOk ls total k t) (fuel x : Nat) (hx : 256 ≤ x) :
    t.depth fuel x ≤ 256 + k - 1 - x := by
  induction fuel generalizing x with
  | zero => simp [Tree.depth]
  | succ n ih =>
    rw [Tree.depth]
    split
    · omega
    · next p hp =>
      have := parentOf_bound h hp
      have := ih p (by omega)
      omega

/-- After k merge steps no depth is above k (R130). -/
theorem depth_le (h : TreeOk ls total k t) (fuel x : Nat) : t.depth fuel x ≤ k := by
  cases fuel with
  | zero => simp [Tree.depth]
  | succ n =>
    rw [Tree.depth]
    split
    · omega
    · next p hp =>
      have := parentOf_bound h hp
      have := depth_bound h n p (by omega)
      omega

theorem sum_swap {α : Type} (l : List α) (k : Nat) (g : α → Nat → Nat) :
    (l.map fun x => ∑ j ∈ Finset.range k, g x j).sum =
      ∑ j ∈ Finset.range k, (l.map fun x => g x j).sum := by
  induction l with
  | nil => simp
  | cons a l ih => simp [ih, Finset.sum_add_distrib]

theorem sum_ite {α : Type} (l : List α) (p : α → Prop) [DecidablePred p] (c : Nat) :
    (l.map fun x => if p x then c else 0).sum = (l.filter fun x => p x).length * c := by
  induction l with
  | nil => simp
  | cons a l ih =>
    by_cases h : p a
    · simp [h, ih]; ring
    · simp [h, ih]

/-- The depths of the leaves have Kraft sum 1, because every internal node has two children (R130). -/
theorem kraft_tree (h : TreeOk ls total k t) (hl : ls.Nodup) (hb : ∀ s ∈ ls, s < 256)
    (hk1 : 1 ≤ k) (hk : k ≤ 255) (h1 : t.aliveNodes.length = 1) :
    (ls.map fun s => 2 ^ (255 - t.depth nodeMax s)).sum = 2 ^ 255 := by
  have hn := h.nodup hl hb
  set f : Nat → Nat := fun s => 2 ^ (255 - t.depth nodeMax s) with hfdef
  obtain ⟨r, hr⟩ := List.length_eq_one_iff.mp h1
  have hrt : r ∈ t.aliveNodes := by rw [hr]; simp
  have hrm := List.mem_filter.mp hrt
  have hrpar : r.par = none := (h.aliveIff r hrm.1).mp hrm.2
  have hpar : ∀ x ∈ t, x.par = none ↔ x = r := by
    intro x hx
    rw [← h.aliveIff x hx]
    constructor
    · intro ha
      have : x ∈ t.aliveNodes := List.mem_filter.mpr ⟨hx, ha⟩
      rw [hr] at this; simpa using this
    · rintro rfl; exact hrm.2
  have hA : (t.map fun x => if x.par = none then 0 else 2 * f x.slot).sum = ∑ j ∈ Finset.range k, 2 * f (256 + j) := by
    have e1 : (t.map fun x => if x.par = none then 0 else 2 * f x.slot) = t.map fun x => ∑ j ∈ Finset.range k, if x.par = some (256 + j) then f (256 + j) else 0 := by
      refine List.map_congr_left fun x hx => ?_
      cases hp : x.par with
      | none => simp
      | some p =>
        have hb := h.parBound x hx p hp
        have hd := depth_parent h hk ((parentOf_of_mem hn hx).trans hp)
        have hdl := depth_le h nodeMax x.slot
        rw [if_neg (by simp), Finset.sum_eq_single (p - 256)]
        · rw [show 256 + (p - 256) = p by omega, if_pos rfl, hfdef]
          simp only
          rw [hd, ← Nat.pow_succ', show (255 - (t.depth nodeMax p + 1)).succ = 255 - t.depth nodeMax p by omega]
        · intro j _ hj
          rw [if_neg]
          simp; omega
        · intro hj
          rw [Finset.mem_range] at hj; omega
    rw [e1, sum_swap]
    refine Finset.sum_congr rfl fun j hj => ?_
    rw [sum_ite, h.twoChildren j (Finset.mem_range.mp hj)]
  have hB : (t.map fun x => if x.par = none then 0 else 2 * f x.slot).sum + 2 * f r.slot = 2 * (t.map fun x => f x.slot).sum := by
    have e2 : (t.map fun x => if x.par = none then 2 * f r.slot else 0).sum = 2 * f r.slot := by
      rw [sum_ite]
      have : (t.filter fun x => decide (x.par = none)).length = 1 := by
        rw [← h1, Tree.aliveNodes]
        congr 1
        refine List.filter_congr fun x hx => ?_
        rw [Bool.eq_iff_iff, decide_eq_true_eq, h.aliveIff x hx]
      rw [this, Nat.one_mul]
    rw [← e2, ← List.sum_map_add, ← List.sum_map_mul_left]
    congr 1
    refine List.map_congr_left fun x hx => ?_
    by_cases hp : x.par = none
    · rw [if_pos hp, if_pos hp, (hpar x hx).mp hp]; simp
    · rw [if_neg hp, if_neg hp]; simp
  have hC : (t.map fun x => f x.slot).sum = (ls.map f).sum + ∑ j ∈ Finset.range k, f (256 + j) := by
    have : (t.map fun x => f x.slot) = (t.map (·.slot)).map f := by rw [List.map_map]; rfl
    rw [this, h.slots, List.map_append, List.sum_append, List.map_map]
    congr 1
  have hfr : f r.slot = 2 ^ 255 := by
    rw [hfdef]; simp only
    rw [depth_root ((parentOf_of_mem hn hrm.1).trans hrpar)]
  rw [← Finset.mul_sum] at hA
  have : (ls.map f).sum = f r.slot := by omega
  rw [hfr] at this
  exact this

end Sys2Proof.Machine
end

