-- ==== Sys2Proof/Laws/Unpacker.lean ====
section
/-! SUPPORT. The unpacker: the match of rule R173 finds the code that the bits start with. -/

namespace Sys2Proof.Machine

/-- Every code value of a present symbol fits its length (R146 a). -/
def CodesFit (pres : Table Bool) (len : Table Byte) (code : Table CodeWord) : Prop :=
  ∀ x, pres.get x = true → (code.get x).toNat < 2 ^ (len.get x).toNat

theorem mem_codebook {pres : Table Bool} {len : Table Byte} {code : Table CodeWord} {e} :
    e ∈ codebook pres len code ↔
      ∃ x, pres.get x = true ∧
        e = { sym := x, len := (len.get x).toNat, code := (code.get x).toNat } := by
  rw [codebook, List.mem_map]
  exact ⟨fun ⟨x, hx, he⟩ => ⟨x, mem_presentSymbols.mp hx, he.symm⟩,
    fun ⟨x, hx, he⟩ => ⟨x, mem_presentSymbols.mpr hx, he.symm⟩⟩

/-- With the bits p of the code of s read, the match reads its other bits q and gives s. -/
theorem matchCode_codeBits {pres : Table Bool} {len : Table Byte} {code : Table CodeWord}
    (hf : CodesFit pres len code) (hp : PrefixFree pres len code) {s} (hs : pres.get s = true)
    (rest : List Bool) (p q : List Bool) (hq : q ≠ []) (h : p ++ q = codeBits len code s) :
    matchCode (codebook pres len code) (valOf p) p.length (q ++ rest) = some (s, rest) := by
  induction q generalizing p with
  | nil => exact absurd rfl hq
  | cons b q ih =>
    have key : ∀ e ∈ codebook pres len code,
        (e.len == p.length + 1 && e.code == 2 * valOf p + b.toNat) = true →
        e.sym = s ∧ q = [] := by
      intro e he hm
      obtain ⟨x, hx, rfl⟩ := mem_codebook.mp he
      simp only [Bool.and_eq_true, beq_iff_eq] at hm
      have hxb : p ++ [b] = codeBits len code x := by
        rw [codeBits, bitsOf_eq_iff (hf x hx), valOf_snoc, hm.1, hm.2]; simp
      have hpre : codeBits len code x <+: codeBits len code s := ⟨q, by rw [← hxb, ← h]; simp⟩
      have hxs : x = s := by
        by_contra hne
        exact hp x s hx hs hne hpre
      refine ⟨hxs, ?_⟩
      subst hxs
      rw [← hxb] at h
      simpa using h
    rw [List.cons_append, matchCode]
    split
    · next e he =>
      obtain ⟨h1, h2⟩ := key e (List.mem_of_find?_eq_some he) (by simpa using List.find?_some he)
      simp [h1, h2]
    · next he =>
      have := ih (p ++ [b])
      rw [valOf_snoc, List.length_append] at this
      refine this ?_ (by simpa using h)
      rintro rfl
      rw [List.find?_eq_none] at he
      refine he _ (mem_codebook.mpr ⟨s, hs, rfl⟩) ?_
      have h2 := (bitsOf_eq_iff (hf s hs)).mp (h : p ++ [b] = _)
      rw [valOf_snoc] at h2
      simp only [List.length_append, List.length_cons, List.length_nil] at h2
      simp [h2.1, h2.2]

/-- The unpacker reads back the codes of d (R182). -/
theorem unpackMany_codeStream {pres : Table Bool} {len : Table Byte} {code : Table CodeWord}
    (hf : CodesFit pres len code) (hp : PrefixFree pres len code)
    (hpos : ∀ x, pres.get x = true → 1 ≤ (len.get x).toNat) (cap e : Nat) (d : List Byte)
    (hd : ∀ x ∈ d, pres.get x = true) (hc : e + d.length ≤ cap) (rest) :
    unpackMany cap (codebook pres len code) e d.length (codeStream len code d ++ rest) = .ok d := by
  induction d generalizing e with
  | nil => rfl
  | cons x d ih =>
    have hx := hd x List.mem_cons_self
    rw [List.length_cons] at hc
    have hm := matchCode_codeBits hf hp hx (codeStream len code d ++ rest) [] (codeBits len code x) (by
      intro h0
      have := congrArg List.length h0
      have h1 := hpos x hx
      rw [codeBits, bitsOf_length] at this
      simp at this; omega) rfl
    rw [List.length_cons, unpackMany, codeStream, List.flatMap_cons, List.append_assoc]
    rw [valOf_nil, List.length_nil, codeStream] at hm
    rw [hm]
    simp only
    rw [if_neg (by omega)]
    rw [codeStream] at ih
    rw [ih (e+1) (fun y hy => hd y (List.mem_cons_of_mem _ hy)) (by omega)]

theorem unpackOne_ok (cap s₀ l avail e pos count) (h : pos + count * l ≤ avail)
    (hc : e + count ≤ cap) :
  unpackOne cap s₀ l avail e count pos = .ok (List.replicate count s₀) := by
  induction count generalizing e pos with
  | zero => rfl
  | succ n ih =>
    rw [Nat.succ_mul] at h
    have h0 := Nat.zero_le (n * l)
    rw [unpackOne, if_neg (by omega), if_neg (by omega), ih (e+1) (pos+l) (by omega) (by omega)]
    rfl

theorem padOf_spec (t : Nat) : (t + padOf t) % 8 = 0 ∧ padOf t < 8 := by unfold padOf; omega

/-! ### How long the output is -/

theorem unpackMany_length {cap : Nat} {book : List CodeEntry} {e count : Nat} {bits : List Bool}
    {out : List Byte} (h : unpackMany cap book e count bits = .ok out) :
    out.length = count ∧ (count = 0 ∨ e + count ≤ cap) := by
  induction count generalizing e bits out with
  | zero =>
    cases h
    exact ⟨rfl, .inl rfl⟩
  | succ n ih =>
    rw [unpackMany] at h
    split at h
    · cases h
    · split at h
      · cases h
      · next hc =>
        split at h
        · next o ho =>
          cases h
          obtain ⟨h1, h2⟩ := ih ho
          exact ⟨by rw [List.length_cons, h1], .inr (by omega)⟩
        · cases h

theorem unpackOne_length {cap : Nat} {x₀ : Symbol} {l avail e count pos : Nat} {out : List Byte}
    (h : unpackOne cap x₀ l avail e count pos = .ok out) :
    out.length = count ∧ (count = 0 ∨ e + count ≤ cap) := by
  induction count generalizing e pos out with
  | zero =>
    cases h
    exact ⟨rfl, .inl rfl⟩
  | succ n ih =>
    rw [unpackOne] at h
    split at h
    · cases h
    · split at h
      · cases h
      · next hc =>
        split at h
        · next o ho =>
          cases h
          obtain ⟨h1, h2⟩ := ih ho
          exact ⟨by rw [List.length_cons, h1], .inr (by omega)⟩
        · cases h

/-- The unpacker's output has the requested length, within the capacity (R173, R176). -/
theorem unpackbits_length {cap : Nat} {p : List Byte} {pres : Table Bool} {len : Table Byte}
    {code : Table CodeWord} {nsym pad count : Nat} {out : List Byte}
    (h : unpackbits cap p pres len code nsym pad count = .ok out) :
    out.length = count ∧ count ≤ cap := by
  unfold unpackbits at h
  split at h
  · cases h
  · split at h
    · cases h
    · split at h
      · cases h
      · dsimp only at h
        split at h
        · split at h
          · have := unpackOne_length h
            exact ⟨this.1, by omega⟩
          · split at h
            · cases h
            · cases h
              exact ⟨by simp; omega, by omega⟩
        · have := unpackMany_length h
          exact ⟨this.1, by omega⟩

end Sys2Proof.Machine
end

