-- ==== Sys2Proof/Laws/Lengths.lean ====
section
/-! SUPPORT. The code lengths of rule R126, and what legal lengths give the canonical code (R146). -/

namespace Sys2Proof.Machine

/-- Tables of the same symbols list them in the same order. -/
theorem presentSymbols_eq_of {pres : Table Bool} {f : Table Word64}
    (h : ∀ s, pres.get s = true ↔ f.get s ≠ 0) : presentSymbols pres = countedSymbols f := by
  rw [presentSymbols, countedSymbols, Table.symbolsWhere_eq, Table.symbolsWhere_eq]
  refine List.filter_congr fun s _ => ?_
  rw [Bool.eq_iff_iff]
  simpa using h s

/-- `lengths` with two or more symbols: the depths of the leaves (R126). -/
theorem lengths_many {f : Table Word64} (h : 2 ≤ (countedSymbols f).length) :
    lengths f = (Table.tabulate fun s => f.get s != 0,
      Table.tabulate fun s =>
        if f.get s = 0 then 0 else BitVec.ofNat 8 ((treeOf f).depth nodeMax s.toNat)) := by
  rw [lengths]
  split
  · next he => rw [he] at h; simp at h
  · next he => rw [he] at h; simp at h
  · rfl

/-- "P[s] = 1 exactly when F[s] > 0" (R130). -/
theorem lengths_pres (f : Table Word64) (s) : (lengths f).1.get s = true ↔ f.get s ≠ 0 := by
  by_cases h : 2 ≤ (countedSymbols f).length
  · rw [lengths_many h]; simp
  · rw [← mem_countedSymbols, lengths]
    split
    · next he => simp [he]
    · next he => simp [he]
    · next h1 h2 =>
      exfalso
      match hc : countedSymbols f with
      | [] => exact h1 hc
      | [x] => exact h2 x hc
      | _ :: _ :: _ => rw [hc] at h; simp at h

theorem lengths_presentSymbols (f : Table Word64) :
    presentSymbols (lengths f).1 = countedSymbols f := presentSymbols_eq_of (lengths_pres f)

theorem lengths_presentCount (f : Table Word64) :
    presentCount (lengths f).1 = (countedSymbols f).length := by
  rw [presentCount, lengths_presentSymbols]

/-- With n symbols, n at least 2, every leaf has a depth between 1 and n - 1, at most 255 (R130). -/
theorem depth_range {f : Table Word64} (h : 2 ≤ (countedSymbols f).length) {s}
    (hs : f.get s ≠ 0) :
    1 ≤ (treeOf f).depth nodeMax s.toNat ∧
      (treeOf f).depth nodeMax s.toNat ≤ (countedSymbols f).length - 1 ∧
      (countedSymbols f).length - 1 ≤ 255 := by
  have hle := f.symbolsWhere_length_le (· != 0)
  rw [← countedSymbols] at hle
  obtain ⟨hok, h1⟩ := treeOf_ok f (by intro e; rw [e] at h; simp at h)
  refine ⟨?_, depth_le hok _ _, by omega⟩
  obtain ⟨r, hr⟩ := List.length_eq_one_iff.mp h1
  have hn := hok.nodup (leaves_nodup f) (leaves_lt f)
  have hmem : s.toNat ∈ (treeOf f).map (·.slot) := by
    rw [hok.slots]; exact List.mem_append_left _ (List.mem_map_of_mem (mem_countedSymbols.mpr hs))
  obtain ⟨x, hx, hxs⟩ := List.mem_map.mp hmem
  have hroot : 256 + ((countedSymbols f).length - 2) ∈ (treeOf f).map (·.slot) := by
    rw [hok.slots]; exact List.mem_append_right _ (List.mem_map_of_mem (List.mem_range.mpr (by omega)))
  obtain ⟨y, hy, hys⟩ := List.mem_map.mp hroot
  have hya : y.alive = true := by
    rw [hok.aliveIff y hy]
    cases hp : y.par with
    | none => rfl
    | some p => have := hok.parBound y hy p hp; omega
  have hyr : y = r := by
    have : y ∈ (treeOf f).aliveNodes := List.mem_filter.mpr ⟨hy, hya⟩
    rw [hr] at this; simpa using this
  cases hp : x.par with
  | none =>
    have hxa := (hok.aliveIff x hx).mpr hp
    have hxr : x ∈ (treeOf f).aliveNodes := List.mem_filter.mpr ⟨hx, hxa⟩
    rw [hr, List.mem_singleton] at hxr
    rw [hxr, ← hyr] at hxs
    have := s.isLt
    omega
  | some p =>
    have := depth_parent hok (by omega) ((parentOf_of_mem hn hx).trans hp)
    rw [hxs] at this
    omega

/-- The stored length of a symbol is the depth of its leaf: nothing is lost in 8 bits. -/
theorem lengths_len {f : Table Word64} (h : 2 ≤ (countedSymbols f).length) {s}
    (hs : f.get s ≠ 0) :
    ((lengths f).2.get s).toNat = (treeOf f).depth nodeMax s.toNat := by
  have := depth_range h hs
  rw [lengths_many h, Table.get_tabulate, if_neg hs, BitVec.toNat_ofNat, Nat.mod_eq_of_lt (by omega)]

/-- INV3 and INV4 bound the Kraft sum by 1. -/
theorem kraft_le {pres len} (h : LegalTable pres len) : kraftSum pres len ≤ 2 ^ 255 := by
  by_cases h2 : 2 ≤ presentCount pres
  · exact (h.complete h2).le
  · have h1 : presentCount pres = 0 ∨ presentCount pres = 1 := by omega
    rw [presentCount] at h1
    rcases h1 with h1 | h1
    · rw [kraftSum, List.length_eq_zero_iff.mp h1]; simp
    · obtain ⟨s, hs⟩ := List.length_eq_one_iff.mp h1
      rw [kraftSum, hs]
      simp
      exact Nat.pow_le_pow_right Nat.two_pos (Nat.sub_le 255 _)

/-- The codes of legal tables fit their lengths (R146 a). -/
theorem canon_fits {pres len} (h : LegalTable pres len) : CodesFit pres len (canon pres len) := by
  intro x hx
  rw [canon_get_toNat hx (kraft_le h)]
  exact codeSum_lt hx (kraft_le h)

end Sys2Proof.Machine
end

