-- ==== Sys2Proof/Laws/Blob.lean ====
section
/-! SUPPORT. The blob: its length, and the table that is read back from its entries (R192, R212). -/

namespace Sys2Proof.Machine

/-! ### The symbol table -/

/-- The symbol table's bytes for a list of entries (R85). -/
def entryBytes (entries : List (Symbol × Byte)) : List Byte := entries.flatMap fun e => [e.1, e.2]

/-- What `readTable` does, on the entries themselves: a symbol that is there already is an error. -/
def loadEntries : List (Symbol × Byte) → Table Bool → Table Byte →
    Except CmdError (Table Bool × Table Byte)
  | [], p, l => .ok (p, l)
  | (s, b) :: es, p, l =>
    if p.get s then .error .corruptSymbolTable else loadEntries es (p.set s true) (l.set s b)

@[simp] theorem entryBytes_length (es : List (Symbol × Byte)) :
    (entryBytes es).length = 2 * es.length := by
  induction es with
  | nil => rfl
  | cons e es ih =>
    rw [entryBytes, List.flatMap_cons, List.length_append, ← entryBytes, ih]
    simp
    omega

/-- The table's entries are read in order from where they stand. -/
theorem readTable_entries (pre post : List Byte) (es : List (Symbol × Byte)) (p : Table Bool)
    (l : Table Byte) :
    readTable (pre ++ entryBytes es ++ post) es.length pre.length p l = loadEntries es p l := by
  induction es generalizing pre p l with
  | nil => rfl
  | cons e es ih =>
    obtain ⟨s, b⟩ := e
    have h0 : byteAt (pre ++ entryBytes ((s, b) :: es) ++ post) pre.length = s := by
      simp [byteAt, entryBytes]
    have h1 : byteAt (pre ++ entryBytes ((s, b) :: es) ++ post) (pre.length + 1) = b := by
      simp [byteAt, entryBytes]
    have ih' := ih (pre ++ [s, b]) (p.set s true) (l.set s b)
    rw [show pre ++ [s, b] ++ entryBytes es ++ post = pre ++ entryBytes ((s, b) :: es) ++ post by
      simp [entryBytes], List.length_append] at ih'
    rw [List.length_cons, readTable, loadEntries]
    simp only [h0, h1]
    split
    · rfl
    · exact ih'

/-- Without a symbol that is there already, the entries are loaded. -/
theorem loadEntries_ok {es : List (Symbol × Byte)} {p : Table Bool} {l : Table Byte}
    (hn : (es.map (·.1)).Nodup) (hp : ∀ x ∈ es.map (·.1), p.get x = false) :
    ∃ p' l', loadEntries es p l = .ok (p', l') ∧
      (∀ x, p'.get x = true ↔ x ∈ es.map (·.1) ∨ p.get x = true) ∧
      ∀ x, l'.get x = (es.lookup x).getD (l.get x) := by
  induction es generalizing p l with
  | nil => exact ⟨p, l, rfl, by simp, by simp⟩
  | cons e es ih =>
    obtain ⟨s, b⟩ := e
    rw [List.map_cons, List.nodup_cons] at hn
    obtain ⟨p', l', h, h1, h2⟩ := ih (p := p.set s true) (l := l.set s b) hn.2 fun x hx => by
      rw [Table.get_set_of_ne _ _ fun e : x = s => hn.1 (e ▸ hx)]
      exact hp x (List.mem_cons_of_mem _ hx)
    have hps : p.get s = false := hp s List.mem_cons_self
    refine ⟨p', l', by rw [loadEntries, hps, if_neg Bool.false_ne_true, h], fun x => ?_, fun x => ?_⟩
    · rw [h1, Table.get_set]
      by_cases hx : x = s <;> simp [hx]
    · rw [h2, Table.get_set, List.lookup_cons]
      by_cases hx : x = s
      · subst hx
        have hno : es.lookup x = none := by
          rw [List.lookup_eq_none_iff]
          intro q hq
          have hne : q.1 ≠ x := fun e => hn.1 (e ▸ List.mem_map_of_mem (f := (·.1)) hq)
          exact bne_iff_ne.mpr hne.symm
        rw [hno, if_pos rfl, beq_self_eq_true]
        rfl
      · rw [if_neg hx, beq_false_of_ne hx]

/-- With a symbol twice, or one that is there already, the entries are refused. -/
theorem loadEntries_error {es : List (Symbol × Byte)} {p : Table Bool} {l : Table Byte}
    (h : ¬ ((es.map (·.1)).Nodup ∧ ∀ x ∈ es.map (·.1), p.get x = false)) :
    loadEntries es p l = .error .corruptSymbolTable := by
  induction es generalizing p l with
  | nil => exact absurd ⟨List.nodup_nil, nofun⟩ h
  | cons e es ih =>
    obtain ⟨s, b⟩ := e
    rw [loadEntries]
    split
    · rfl
    · next hs =>
      refine ih fun ⟨hn, hp⟩ => h ⟨?_, ?_⟩
      · rw [List.map_cons, List.nodup_cons]
        exact ⟨fun hm => by simpa using hp s hm, hn⟩
      · intro x hx
        rcases List.mem_cons.mp hx with rfl | hx'
        · simpa using hs
        · have hsx : x ≠ s := by
            rintro rfl
            simpa using hp x hx'
          rw [← Table.get_set_of_ne p true hsx]
          exact hp x hx'

theorem loadEntries_cases (es : List (Symbol × Byte)) (p : Table Bool) (l : Table Byte) :
    (∃ r, loadEntries es p l = .ok r) ∨ loadEntries es p l = .error .corruptSymbolTable := by
  by_cases h : (es.map (·.1)).Nodup ∧ ∀ x ∈ es.map (·.1), p.get x = false
  · obtain ⟨p', l', h', _⟩ := loadEntries_ok (l := l) h.1 h.2
    exact .inl ⟨_, h'⟩
  · exact .inr (loadEntries_error h)

/-- Any bytes long enough hold a table of entries. -/
theorem exists_entryBytes (c : Nat) (b : List Byte) (h : 2 * c ≤ b.length) :
    ∃ es post, b = entryBytes es ++ post ∧ es.length = c := by
  induction c generalizing b with
  | zero => exact ⟨[], b, rfl, rfl⟩
  | succ c ih =>
    match b with
    | [] => simp at h
    | [x] =>
      simp only [List.length_singleton] at h
      omega
    | x :: y :: b =>
      simp only [List.length_cons] at h
      obtain ⟨es, post, he, hc⟩ := ih b (by omega)
      exact ⟨(x, y) :: es, post, by simp [entryBytes, he], by simp [hc]⟩

/-! ### The serializer's table and the blob's length -/

theorem tableBytes_eq (pres : Table Bool) (len : Table Byte) :
    tableBytes pres len = entryBytes ((presentSymbols pres).map fun s => (s, len.get s)) := by
  rw [tableBytes, entryBytes, List.flatMap_map]

theorem tableBytes_length (pres : Table Bool) (len : Table Byte) :
    (tableBytes pres len).length = 2 * presentCount pres := by
  rw [tableBytes_eq, entryBytes_length, List.length_map, presentCount]

/-- R192: "Its length is `12 + 2*nsym + |q|`". -/
theorem blob_length (v : Byte) (pres : Table Bool) (len : Table Byte) (nsym n pad : Nat)
    (q : List Byte) :
    (blob v pres len nsym n pad q).length = 12 + 2 * presentCount pres + q.length := by
  simp only [blob, List.length_append, List.length_singleton, bigEndianBytes_length,
    tableBytes_length]
  omega

/-! ### The legal combinations of code lengths (R215) -/

/-- What the three tests of rule R212 on the code lengths say. -/
theorem legalLengths_iff (c : Nat) (pres : Table Bool) (len : Table Byte) :
    legalLengths c pres len = true ↔
      (c = 1 → ∀ x, pres.get x = true → (len.get x).toNat ≤ 1) ∧
      (2 ≤ c → ∀ x, pres.get x = true → 1 ≤ (len.get x).toNat) ∧
      (2 ≤ c → kraftSum pres len = 2 ^ 255) := by
  have hz : ∀ x, len.get x ≠ 0 ↔ 1 ≤ (len.get x).toNat := by
    intro x
    rw [Ne, ← BitVec.toNat_inj]
    simp
    omega
  simp only [legalLengths, Bool.and_eq_true, Bool.not_eq_true', Bool.and_eq_false_iff,
    beq_eq_false_iff_ne, List.any_eq_false, mem_presentSymbols, decide_eq_false_iff_not,
    bne_eq_false_iff_eq, beq_iff_eq, decide_eq_true_eq, ← hz, and_assoc]
  refine and_congr ?_ (and_congr ?_ ?_)
  · rw [imp_iff_not_or]
    simp
  · rw [imp_iff_not_or]
  · rw [imp_iff_not_or]

theorem legalLengths_of {pres : Table Bool} {len : Table Byte} (h : LegalTable pres len) :
    legalLengths (presentCount pres) pres len = true :=
  (legalLengths_iff _ _ _).mpr ⟨h.single, h.positive, h.complete⟩

end Sys2Proof.Machine
end

