-- ==== Sys2Proof/Laws/State.lean ====
section
/-! SUPPORT. What each update of State leaves in each field, so that no proof unfolds a record update. -/

namespace Sys2Proof.Machine

/-! ### STATUS (R32) -/

variable (st : Status) (b : Bool) (e : CmdError)

@[simp] theorem Status.accepted_busy : st.accepted.busy = true := rfl
@[simp] theorem Status.accepted_done : st.accepted.done = false := rfl
@[simp] theorem Status.accepted_err : st.accepted.err = false := rfl
@[simp] theorem Status.accepted_cv : st.accepted.cv = st.cv := rfl
@[simp] theorem Status.accepted_errcode : st.accepted.errcode = 0 := rfl

@[simp] theorem Status.ended_busy : st.ended.busy = false := rfl
@[simp] theorem Status.ended_done : st.ended.done = true := rfl
@[simp] theorem Status.ended_err : st.ended.err = false := rfl
@[simp] theorem Status.ended_cv : st.ended.cv = st.cv := rfl
@[simp] theorem Status.ended_errcode : st.ended.errcode = 0 := rfl

@[simp] theorem Status.failed_busy : (st.failed e).busy = false := rfl
@[simp] theorem Status.failed_done : (st.failed e).done = true := rfl
@[simp] theorem Status.failed_err : (st.failed e).err = true := rfl
@[simp] theorem Status.failed_cv : (st.failed e).cv = st.cv := rfl
@[simp] theorem Status.failed_errcode : (st.failed e).errcode = e.number := rfl

@[simp] theorem Status.setCv_busy : (st.setCv b).busy = st.busy := rfl
@[simp] theorem Status.setCv_done : (st.setCv b).done = st.done := rfl
@[simp] theorem Status.setCv_err : (st.setCv b).err = st.err := rfl
@[simp] theorem Status.setCv_cv : (st.setCv b).cv = b := rfl
@[simp] theorem Status.setCv_errcode : (st.setCv b).errcode = st.errcode := rfl

/-! ### An accepted CMD write (R81). -/

@[simp] theorem State.accept_cfg (w : Word32) (s : State) :
    (s.accept w).cfg = s.cfg := rfl
@[simp] theorem State.accept_freq (w : Word32) (s : State) :
    (s.accept w).freq = s.freq := rfl
@[simp] theorem State.accept_pres (w : Word32) (s : State) :
    (s.accept w).pres = s.pres := rfl
@[simp] theorem State.accept_len (w : Word32) (s : State) :
    (s.accept w).len = s.len := rfl
@[simp] theorem State.accept_code (w : Word32) (s : State) :
    (s.accept w).code = s.code := rfl
@[simp] theorem State.accept_nsym (w : Word32) (s : State) :
    (s.accept w).nsym = s.nsym := rfl
@[simp] theorem State.accept_origlen (w : Word32) (s : State) :
    (s.accept w).origlen = s.origlen := rfl
@[simp] theorem State.accept_pad (w : Word32) (s : State) :
    (s.accept w).pad = s.pad := rfl
@[simp] theorem State.accept_payoff (w : Word32) (s : State) :
    (s.accept w).payoff = s.payoff := rfl
@[simp] theorem State.accept_ibufLen (w : Word32) (s : State) :
    (s.accept w).ibufLen = s.ibufLen := rfl
@[simp] theorem State.accept_obufLen (w : Word32) (s : State) :
    (s.accept w).obufLen = s.obufLen := rfl
@[simp] theorem State.accept_cmd (w : Word32) (s : State) :
    (s.accept w).cmd = w := rfl
@[simp] theorem State.accept_status (w : Word32) (s : State) :
    (s.accept w).status = s.status.accepted := rfl
@[simp] theorem State.accept_ibuf (w : Word32) (s : State) :
    (s.accept w).ibuf = s.ibuf := rfl
@[simp] theorem State.accept_obuf (w : Word32) (s : State) :
    (s.accept w).obuf = s.obuf := rfl
@[simp] theorem State.accept_pending (w : Word32) (s : State) :
    (s.accept w).pending = s.pending := rfl
@[simp] theorem State.accept_seen (w : Word32) (s : State) :
    (s.accept w).seen = s.seen := rfl
@[simp] theorem State.accept_resets (w : Word32) (s : State) :
    (s.accept w).resets = s.resets := rfl
@[simp] theorem State.accept_draws (w : Word32) (s : State) :
    (s.accept w).draws = s.draws := rfl

/-! ### The end of a command without error (R81). -/

@[simp] theorem State.finish_cfg (s : State) :
    (s.finish).cfg = s.cfg := rfl
@[simp] theorem State.finish_freq (s : State) :
    (s.finish).freq = s.freq := rfl
@[simp] theorem State.finish_pres (s : State) :
    (s.finish).pres = s.pres := rfl
@[simp] theorem State.finish_len (s : State) :
    (s.finish).len = s.len := rfl
@[simp] theorem State.finish_code (s : State) :
    (s.finish).code = s.code := rfl
@[simp] theorem State.finish_nsym (s : State) :
    (s.finish).nsym = s.nsym := rfl
@[simp] theorem State.finish_origlen (s : State) :
    (s.finish).origlen = s.origlen := rfl
@[simp] theorem State.finish_pad (s : State) :
    (s.finish).pad = s.pad := rfl
@[simp] theorem State.finish_payoff (s : State) :
    (s.finish).payoff = s.payoff := rfl
@[simp] theorem State.finish_ibufLen (s : State) :
    (s.finish).ibufLen = s.ibufLen := rfl
@[simp] theorem State.finish_obufLen (s : State) :
    (s.finish).obufLen = s.obufLen := rfl
@[simp] theorem State.finish_cmd (s : State) :
    (s.finish).cmd = s.cmd := rfl
@[simp] theorem State.finish_status (s : State) :
    (s.finish).status = s.status.ended := rfl
@[simp] theorem State.finish_ibuf (s : State) :
    (s.finish).ibuf = s.ibuf := rfl
@[simp] theorem State.finish_obuf (s : State) :
    (s.finish).obuf = s.obuf := rfl
@[simp] theorem State.finish_pending (s : State) :
    (s.finish).pending = s.pending := rfl
@[simp] theorem State.finish_seen (s : State) :
    (s.finish).seen = s.seen := rfl
@[simp] theorem State.finish_resets (s : State) :
    (s.finish).resets = s.resets := rfl
@[simp] theorem State.finish_draws (s : State) :
    (s.finish).draws = s.draws + 1 := rfl

/-! ### `raise E` (R256). -/

@[simp] theorem State.raise_cfg (e : CmdError) (s : State) :
    (s.raise e).cfg = s.cfg := rfl
@[simp] theorem State.raise_freq (e : CmdError) (s : State) :
    (s.raise e).freq = s.freq := rfl
@[simp] theorem State.raise_pres (e : CmdError) (s : State) :
    (s.raise e).pres = s.pres := rfl
@[simp] theorem State.raise_len (e : CmdError) (s : State) :
    (s.raise e).len = s.len := rfl
@[simp] theorem State.raise_code (e : CmdError) (s : State) :
    (s.raise e).code = s.code := rfl
@[simp] theorem State.raise_nsym (e : CmdError) (s : State) :
    (s.raise e).nsym = s.nsym := rfl
@[simp] theorem State.raise_origlen (e : CmdError) (s : State) :
    (s.raise e).origlen = s.origlen := rfl
@[simp] theorem State.raise_pad (e : CmdError) (s : State) :
    (s.raise e).pad = s.pad := rfl
@[simp] theorem State.raise_payoff (e : CmdError) (s : State) :
    (s.raise e).payoff = s.payoff := rfl
@[simp] theorem State.raise_ibufLen (e : CmdError) (s : State) :
    (s.raise e).ibufLen = s.ibufLen := rfl
@[simp] theorem State.raise_obufLen (e : CmdError) (s : State) :
    (s.raise e).obufLen = 0 := rfl
@[simp] theorem State.raise_cmd (e : CmdError) (s : State) :
    (s.raise e).cmd = s.cmd := rfl
@[simp] theorem State.raise_status (e : CmdError) (s : State) :
    (s.raise e).status = s.status.failed e := rfl
@[simp] theorem State.raise_ibuf (e : CmdError) (s : State) :
    (s.raise e).ibuf = s.ibuf := rfl
@[simp] theorem State.raise_obuf (e : CmdError) (s : State) :
    (s.raise e).obuf = [] := rfl
@[simp] theorem State.raise_pending (e : CmdError) (s : State) :
    (s.raise e).pending = s.pending := rfl
@[simp] theorem State.raise_seen (e : CmdError) (s : State) :
    (s.raise e).seen = s.seen := rfl
@[simp] theorem State.raise_resets (e : CmdError) (s : State) :
    (s.raise e).resets = s.resets := rfl
@[simp] theorem State.raise_draws (e : CmdError) (s : State) :
    (s.raise e).draws = s.draws + 1 := rfl

/-! ### A write of CV (R32). -/

@[simp] theorem State.setCv_cfg (b : Bool) (s : State) :
    (s.setCv b).cfg = s.cfg := rfl
@[simp] theorem State.setCv_freq (b : Bool) (s : State) :
    (s.setCv b).freq = s.freq := rfl
@[simp] theorem State.setCv_pres (b : Bool) (s : State) :
    (s.setCv b).pres = s.pres := rfl
@[simp] theorem State.setCv_len (b : Bool) (s : State) :
    (s.setCv b).len = s.len := rfl
@[simp] theorem State.setCv_code (b : Bool) (s : State) :
    (s.setCv b).code = s.code := rfl
@[simp] theorem State.setCv_nsym (b : Bool) (s : State) :
    (s.setCv b).nsym = s.nsym := rfl
@[simp] theorem State.setCv_origlen (b : Bool) (s : State) :
    (s.setCv b).origlen = s.origlen := rfl
@[simp] theorem State.setCv_pad (b : Bool) (s : State) :
    (s.setCv b).pad = s.pad := rfl
@[simp] theorem State.setCv_payoff (b : Bool) (s : State) :
    (s.setCv b).payoff = s.payoff := rfl
@[simp] theorem State.setCv_ibufLen (b : Bool) (s : State) :
    (s.setCv b).ibufLen = s.ibufLen := rfl
@[simp] theorem State.setCv_obufLen (b : Bool) (s : State) :
    (s.setCv b).obufLen = s.obufLen := rfl
@[simp] theorem State.setCv_cmd (b : Bool) (s : State) :
    (s.setCv b).cmd = s.cmd := rfl
@[simp] theorem State.setCv_status (b : Bool) (s : State) :
    (s.setCv b).status = s.status.setCv b := rfl
@[simp] theorem State.setCv_ibuf (b : Bool) (s : State) :
    (s.setCv b).ibuf = s.ibuf := rfl
@[simp] theorem State.setCv_obuf (b : Bool) (s : State) :
    (s.setCv b).obuf = s.obuf := rfl
@[simp] theorem State.setCv_pending (b : Bool) (s : State) :
    (s.setCv b).pending = s.pending := rfl
@[simp] theorem State.setCv_seen (b : Bool) (s : State) :
    (s.setCv b).seen = s.seen := rfl
@[simp] theorem State.setCv_resets (b : Bool) (s : State) :
    (s.setCv b).resets = s.resets := rfl
@[simp] theorem State.setCv_draws (b : Bool) (s : State) :
    (s.setCv b).draws = s.draws := rfl

/-! ### An output (R62). -/

@[simp] theorem State.output_cfg (bs : List Byte) (s : State) :
    (s.output bs).cfg = s.cfg := rfl
@[simp] theorem State.output_freq (bs : List Byte) (s : State) :
    (s.output bs).freq = s.freq := rfl
@[simp] theorem State.output_pres (bs : List Byte) (s : State) :
    (s.output bs).pres = s.pres := rfl
@[simp] theorem State.output_len (bs : List Byte) (s : State) :
    (s.output bs).len = s.len := rfl
@[simp] theorem State.output_code (bs : List Byte) (s : State) :
    (s.output bs).code = s.code := rfl
@[simp] theorem State.output_nsym (bs : List Byte) (s : State) :
    (s.output bs).nsym = s.nsym := rfl
@[simp] theorem State.output_origlen (bs : List Byte) (s : State) :
    (s.output bs).origlen = s.origlen := rfl
@[simp] theorem State.output_pad (bs : List Byte) (s : State) :
    (s.output bs).pad = s.pad := rfl
@[simp] theorem State.output_payoff (bs : List Byte) (s : State) :
    (s.output bs).payoff = s.payoff := rfl
@[simp] theorem State.output_ibufLen (bs : List Byte) (s : State) :
    (s.output bs).ibufLen = s.ibufLen := rfl
@[simp] theorem State.output_obufLen (bs : List Byte) (s : State) :
    (s.output bs).obufLen = BitVec.ofNat 64 bs.length := rfl
@[simp] theorem State.output_cmd (bs : List Byte) (s : State) :
    (s.output bs).cmd = s.cmd := rfl
@[simp] theorem State.output_status (bs : List Byte) (s : State) :
    (s.output bs).status = s.status := rfl
@[simp] theorem State.output_ibuf (bs : List Byte) (s : State) :
    (s.output bs).ibuf = s.ibuf := rfl
@[simp] theorem State.output_obuf (bs : List Byte) (s : State) :
    (s.output bs).obuf = Memory.ofBytes bs := rfl
@[simp] theorem State.output_pending (bs : List Byte) (s : State) :
    (s.output bs).pending = s.pending := rfl
@[simp] theorem State.output_seen (bs : List Byte) (s : State) :
    (s.output bs).seen = s.seen := rfl
@[simp] theorem State.output_resets (bs : List Byte) (s : State) :
    (s.output bs).resets = s.resets := rfl
@[simp] theorem State.output_draws (bs : List Byte) (s : State) :
    (s.output bs).draws = s.draws := rfl

/-! ### New code lengths (R127). -/

@[simp] theorem State.loadLengths_cfg (p : Table Bool) (l : Table Byte) (s : State) :
    (s.loadLengths p l).cfg = s.cfg := rfl
@[simp] theorem State.loadLengths_freq (p : Table Bool) (l : Table Byte) (s : State) :
    (s.loadLengths p l).freq = s.freq := rfl
@[simp] theorem State.loadLengths_pres (p : Table Bool) (l : Table Byte) (s : State) :
    (s.loadLengths p l).pres = p := rfl
@[simp] theorem State.loadLengths_len (p : Table Bool) (l : Table Byte) (s : State) :
    (s.loadLengths p l).len = l := rfl
@[simp] theorem State.loadLengths_code (p : Table Bool) (l : Table Byte) (s : State) :
    (s.loadLengths p l).code = Table.const 0 := rfl
@[simp] theorem State.loadLengths_nsym (p : Table Bool) (l : Table Byte) (s : State) :
    (s.loadLengths p l).nsym = BitVec.ofNat 9 (presentCount p) := rfl
@[simp] theorem State.loadLengths_origlen (p : Table Bool) (l : Table Byte) (s : State) :
    (s.loadLengths p l).origlen = s.origlen := rfl
@[simp] theorem State.loadLengths_pad (p : Table Bool) (l : Table Byte) (s : State) :
    (s.loadLengths p l).pad = s.pad := rfl
@[simp] theorem State.loadLengths_payoff (p : Table Bool) (l : Table Byte) (s : State) :
    (s.loadLengths p l).payoff = s.payoff := rfl
@[simp] theorem State.loadLengths_ibufLen (p : Table Bool) (l : Table Byte) (s : State) :
    (s.loadLengths p l).ibufLen = s.ibufLen := rfl
@[simp] theorem State.loadLengths_obufLen (p : Table Bool) (l : Table Byte) (s : State) :
    (s.loadLengths p l).obufLen = s.obufLen := rfl
@[simp] theorem State.loadLengths_cmd (p : Table Bool) (l : Table Byte) (s : State) :
    (s.loadLengths p l).cmd = s.cmd := rfl
@[simp] theorem State.loadLengths_status (p : Table Bool) (l : Table Byte) (s : State) :
    (s.loadLengths p l).status = s.status.setCv false := rfl
@[simp] theorem State.loadLengths_ibuf (p : Table Bool) (l : Table Byte) (s : State) :
    (s.loadLengths p l).ibuf = s.ibuf := rfl
@[simp] theorem State.loadLengths_obuf (p : Table Bool) (l : Table Byte) (s : State) :
    (s.loadLengths p l).obuf = s.obuf := rfl
@[simp] theorem State.loadLengths_pending (p : Table Bool) (l : Table Byte) (s : State) :
    (s.loadLengths p l).pending = s.pending := rfl
@[simp] theorem State.loadLengths_seen (p : Table Bool) (l : Table Byte) (s : State) :
    (s.loadLengths p l).seen = s.seen := rfl
@[simp] theorem State.loadLengths_resets (p : Table Bool) (l : Table Byte) (s : State) :
    (s.loadLengths p l).resets = s.resets := rfl
@[simp] theorem State.loadLengths_draws (p : Table Bool) (l : Table Byte) (s : State) :
    (s.loadLengths p l).draws = s.draws := rfl

/-! ### A parsed blob's registers (R213). -/

@[simp] theorem State.loadParsed_cfg (r : Parsed) (s : State) :
    (s.loadParsed r).cfg = s.cfg := rfl
@[simp] theorem State.loadParsed_freq (r : Parsed) (s : State) :
    (s.loadParsed r).freq = s.freq := rfl
@[simp] theorem State.loadParsed_pres (r : Parsed) (s : State) :
    (s.loadParsed r).pres = r.pres := rfl
@[simp] theorem State.loadParsed_len (r : Parsed) (s : State) :
    (s.loadParsed r).len = r.len := rfl
@[simp] theorem State.loadParsed_code (r : Parsed) (s : State) :
    (s.loadParsed r).code = s.code := rfl
@[simp] theorem State.loadParsed_nsym (r : Parsed) (s : State) :
    (s.loadParsed r).nsym = BitVec.ofNat 9 r.nsym := rfl
@[simp] theorem State.loadParsed_origlen (r : Parsed) (s : State) :
    (s.loadParsed r).origlen = BitVec.ofNat 64 r.origlen := rfl
@[simp] theorem State.loadParsed_pad (r : Parsed) (s : State) :
    (s.loadParsed r).pad = BitVec.ofNat 8 r.pad := rfl
@[simp] theorem State.loadParsed_payoff (r : Parsed) (s : State) :
    (s.loadParsed r).payoff = BitVec.ofNat 64 r.payoff := rfl
@[simp] theorem State.loadParsed_ibufLen (r : Parsed) (s : State) :
    (s.loadParsed r).ibufLen = s.ibufLen := rfl
@[simp] theorem State.loadParsed_obufLen (r : Parsed) (s : State) :
    (s.loadParsed r).obufLen = s.obufLen := rfl
@[simp] theorem State.loadParsed_cmd (r : Parsed) (s : State) :
    (s.loadParsed r).cmd = s.cmd := rfl
@[simp] theorem State.loadParsed_status (r : Parsed) (s : State) :
    (s.loadParsed r).status = s.status := rfl
@[simp] theorem State.loadParsed_ibuf (r : Parsed) (s : State) :
    (s.loadParsed r).ibuf = s.ibuf := rfl
@[simp] theorem State.loadParsed_obuf (r : Parsed) (s : State) :
    (s.loadParsed r).obuf = s.obuf := rfl
@[simp] theorem State.loadParsed_pending (r : Parsed) (s : State) :
    (s.loadParsed r).pending = s.pending := rfl
@[simp] theorem State.loadParsed_seen (r : Parsed) (s : State) :
    (s.loadParsed r).seen = s.seen := rfl
@[simp] theorem State.loadParsed_resets (r : Parsed) (s : State) :
    (s.loadParsed r).resets = s.resets := rfl
@[simp] theorem State.loadParsed_draws (r : Parsed) (s : State) :
    (s.loadParsed r).draws = s.draws := rfl

/-! ### A host read (R243). -/

@[simp] theorem State.observe_cfg (v : Word64) (s : State) :
    (s.observe v).cfg = s.cfg := rfl
@[simp] theorem State.observe_freq (v : Word64) (s : State) :
    (s.observe v).freq = s.freq := rfl
@[simp] theorem State.observe_pres (v : Word64) (s : State) :
    (s.observe v).pres = s.pres := rfl
@[simp] theorem State.observe_len (v : Word64) (s : State) :
    (s.observe v).len = s.len := rfl
@[simp] theorem State.observe_code (v : Word64) (s : State) :
    (s.observe v).code = s.code := rfl
@[simp] theorem State.observe_nsym (v : Word64) (s : State) :
    (s.observe v).nsym = s.nsym := rfl
@[simp] theorem State.observe_origlen (v : Word64) (s : State) :
    (s.observe v).origlen = s.origlen := rfl
@[simp] theorem State.observe_pad (v : Word64) (s : State) :
    (s.observe v).pad = s.pad := rfl
@[simp] theorem State.observe_payoff (v : Word64) (s : State) :
    (s.observe v).payoff = s.payoff := rfl
@[simp] theorem State.observe_ibufLen (v : Word64) (s : State) :
    (s.observe v).ibufLen = s.ibufLen := rfl
@[simp] theorem State.observe_obufLen (v : Word64) (s : State) :
    (s.observe v).obufLen = s.obufLen := rfl
@[simp] theorem State.observe_cmd (v : Word64) (s : State) :
    (s.observe v).cmd = s.cmd := rfl
@[simp] theorem State.observe_status (v : Word64) (s : State) :
    (s.observe v).status = s.status := rfl
@[simp] theorem State.observe_ibuf (v : Word64) (s : State) :
    (s.observe v).ibuf = s.ibuf := rfl
@[simp] theorem State.observe_obuf (v : Word64) (s : State) :
    (s.observe v).obuf = s.obuf := rfl
@[simp] theorem State.observe_pending (v : Word64) (s : State) :
    (s.observe v).pending = s.pending := rfl
@[simp] theorem State.observe_seen (v : Word64) (s : State) :
    (s.observe v).seen = v :: s.seen := rfl
@[simp] theorem State.observe_resets (v : Word64) (s : State) :
    (s.observe v).resets = s.resets := rfl
@[simp] theorem State.observe_draws (v : Word64) (s : State) :
    (s.observe v).draws = s.draws := rfl

/-! ### Reset (R42, R280). -/

@[simp] theorem State.applyReset_cfg (s : State) :
    (s.applyReset).cfg = s.cfg := rfl
@[simp] theorem State.applyReset_freq (s : State) :
    (s.applyReset).freq = Table.const 0 := rfl
@[simp] theorem State.applyReset_pres (s : State) :
    (s.applyReset).pres = Table.const false := rfl
@[simp] theorem State.applyReset_len (s : State) :
    (s.applyReset).len = Table.const 0 := rfl
@[simp] theorem State.applyReset_code (s : State) :
    (s.applyReset).code = Table.const 0 := rfl
@[simp] theorem State.applyReset_nsym (s : State) :
    (s.applyReset).nsym = 0 := rfl
@[simp] theorem State.applyReset_origlen (s : State) :
    (s.applyReset).origlen = 0 := rfl
@[simp] theorem State.applyReset_pad (s : State) :
    (s.applyReset).pad = 0 := rfl
@[simp] theorem State.applyReset_payoff (s : State) :
    (s.applyReset).payoff = 0 := rfl
@[simp] theorem State.applyReset_ibufLen (s : State) :
    (s.applyReset).ibufLen = 0 := rfl
@[simp] theorem State.applyReset_obufLen (s : State) :
    (s.applyReset).obufLen = 0 := rfl
@[simp] theorem State.applyReset_cmd (s : State) :
    (s.applyReset).cmd = 0 := rfl
@[simp] theorem State.applyReset_status (s : State) :
    (s.applyReset).status = (State.resetWith s.cfg).status := rfl
@[simp] theorem State.applyReset_ibuf (s : State) :
    (s.applyReset).ibuf = [] := rfl
@[simp] theorem State.applyReset_obuf (s : State) :
    (s.applyReset).obuf = [] := rfl
@[simp] theorem State.applyReset_pending (s : State) :
    (s.applyReset).pending = s.pending := rfl
@[simp] theorem State.applyReset_seen (s : State) :
    (s.applyReset).seen = s.seen := rfl
@[simp] theorem State.applyReset_resets (s : State) :
    (s.applyReset).resets = s.resets + 1 := rfl
@[simp] theorem State.applyReset_draws (s : State) :
    (s.applyReset).draws = s.draws + 1 := rfl

/-! ### A command placed for the next step. -/

@[simp] theorem State.placeCommand_cfg (w : Word32) (s : State) :
    (s.placeCommand w).cfg = s.cfg := rfl
@[simp] theorem State.placeCommand_freq (w : Word32) (s : State) :
    (s.placeCommand w).freq = s.freq := rfl
@[simp] theorem State.placeCommand_pres (w : Word32) (s : State) :
    (s.placeCommand w).pres = s.pres := rfl
@[simp] theorem State.placeCommand_len (w : Word32) (s : State) :
    (s.placeCommand w).len = s.len := rfl
@[simp] theorem State.placeCommand_code (w : Word32) (s : State) :
    (s.placeCommand w).code = s.code := rfl
@[simp] theorem State.placeCommand_nsym (w : Word32) (s : State) :
    (s.placeCommand w).nsym = s.nsym := rfl
@[simp] theorem State.placeCommand_origlen (w : Word32) (s : State) :
    (s.placeCommand w).origlen = s.origlen := rfl
@[simp] theorem State.placeCommand_pad (w : Word32) (s : State) :
    (s.placeCommand w).pad = s.pad := rfl
@[simp] theorem State.placeCommand_payoff (w : Word32) (s : State) :
    (s.placeCommand w).payoff = s.payoff := rfl
@[simp] theorem State.placeCommand_ibufLen (w : Word32) (s : State) :
    (s.placeCommand w).ibufLen = s.ibufLen := rfl
@[simp] theorem State.placeCommand_obufLen (w : Word32) (s : State) :
    (s.placeCommand w).obufLen = s.obufLen := rfl
@[simp] theorem State.placeCommand_cmd (w : Word32) (s : State) :
    (s.placeCommand w).cmd = s.cmd := rfl
@[simp] theorem State.placeCommand_status (w : Word32) (s : State) :
    (s.placeCommand w).status = { s.status with busy := false } := rfl
@[simp] theorem State.placeCommand_ibuf (w : Word32) (s : State) :
    (s.placeCommand w).ibuf = s.ibuf := rfl
@[simp] theorem State.placeCommand_obuf (w : Word32) (s : State) :
    (s.placeCommand w).obuf = s.obuf := rfl
@[simp] theorem State.placeCommand_pending (w : Word32) (s : State) :
    (s.placeCommand w).pending = HostEvent.regWrite 0x0000 (w.setWidth 64) :: s.pending := rfl
@[simp] theorem State.placeCommand_seen (w : Word32) (s : State) :
    (s.placeCommand w).seen = s.seen := rfl
@[simp] theorem State.placeCommand_resets (w : Word32) (s : State) :
    (s.placeCommand w).resets = s.resets := rfl
@[simp] theorem State.placeCommand_draws (w : Word32) (s : State) :
    (s.placeCommand w).draws = s.draws := rfl

end Sys2Proof.Machine
end

