-- ==== Sys2Proof/Laws/Ops.lean ====
section
/-! SUPPORT. What a command can do, said once: it ends with its effect or by `raise`. -/

namespace Sys2Proof.Machine

/-- The effect of a command, without its end: the new state or the error (R256). -/
def effect : Instr → State → Except CmdError State
  | .nop, s => .ok s
  | .clear, s => .ok (clearEffect s)
  | .analyze, s => analyzeEffect s
  | .build, s => .ok (buildEffect s)
  | .canon, s => .ok (canonEffect s)
  | .pack, s => packEffect s
  | .unpack, s => unpackEffect s
  | .serialize, s => serializeEffect s
  | .parse, s => parseEffect s
  | .encode, s => encodeEffect s
  | .decode, s => decodeEffect s

/-- Every command is its effect, concluded. -/
theorem exec_eq_conclude (i : Instr) (s : State) : exec i s = conclude s (effect i s) := by
  cases i <;> rfl

theorem conclude_ok {s t : State} {r : Except CmdError State} (h : r = .ok t) :
    conclude s r = .next t.finish := by
  rw [h]; rfl

theorem conclude_error {s : State} {e : CmdError} {r : Except CmdError State} (h : r = .error e) :
    conclude s r = .next (s.raise e) := by
  rw [h]; rfl

/-- What `conclude` can answer: a next state, by one of two ways. -/
theorem conclude_cases (s : State) (r : Except CmdError State) :
    (∃ t, r = .ok t ∧ conclude s r = .next t.finish) ∨
      ∃ e, r = .error e ∧ conclude s r = .next (s.raise e) := by
  cases r with
  | ok t => exact .inl ⟨t, rfl, rfl⟩
  | error e => exact .inr ⟨e, rfl, rfl⟩

/-- What a command can do: end with its effect, or by `raise`. -/
theorem exec_cases {i : Instr} {s t : State} (h : exec i s = .next t) :
    (∃ u, effect i s = .ok u ∧ t = u.finish) ∨ ∃ e, effect i s = .error e ∧ t = s.raise e := by
  rw [exec_eq_conclude] at h
  rcases conclude_cases s (effect i s) with ⟨u, hu, hc⟩ | ⟨e, he, hc⟩
  · exact .inl ⟨u, hu, by rw [hc] at h; exact (Host.Outcome.next.inj h).symm⟩
  · exact .inr ⟨e, he, by rw [hc] at h; exact (Host.Outcome.next.inj h).symm⟩

theorem exec_of_effect_ok {i : Instr} {s u : State} (h : effect i s = .ok u) :
    exec i s = .next u.finish := by
  rw [exec_eq_conclude, conclude_ok h]

theorem exec_of_effect_error {i : Instr} {s : State} {e : CmdError} (h : effect i s = .error e) :
    exec i s = .next (s.raise e) := by
  rw [exec_eq_conclude, conclude_error h]

/-! ### Peeling the checks of an effect -/

theorem except_bind_ok {α β : Type} {x : Except CmdError α} {f : α → Except CmdError β} {b : β} :
    x >>= f = .ok b ↔ ∃ a, x = .ok a ∧ f a = .ok b := by
  cases x with
  | ok a => exact ⟨fun h => ⟨a, rfl, h⟩, fun ⟨_, h, hb⟩ => by cases h; exact hb⟩
  | error e => exact ⟨fun h => (nomatch h), fun ⟨_, h, _⟩ => (nomatch h)⟩

theorem except_bind_error {α β : Type} {x : Except CmdError α} {f : α → Except CmdError β}
    {e : CmdError} :
    x >>= f = .error e ↔ x = .error e ∨ ∃ a, x = .ok a ∧ f a = .error e := by
  cases x with
  | ok a =>
    refine ⟨fun h => .inr ⟨a, rfl, h⟩, ?_⟩
    rintro (h | ⟨_, h, hb⟩)
    · cases h
    · cases h; exact hb
  | error x =>
    refine ⟨fun h => .inl (congrArg _ (Except.error.inj h)), ?_⟩
    rintro (h | ⟨_, h, _⟩)
    · exact congrArg _ (Except.error.inj h)
    · cases h

theorem State.needInput_ok {s : State} {u : Unit} :
    s.needInput = .ok u ↔ s.ibufLen ≤ s.cfg.ibufCap := by
  unfold State.needInput
  split
  case isTrue h => simp only [reduceCtorEq, false_iff, BitVec.not_le]; exact h
  case isFalse h => simpa using h

theorem State.needInput_error {s : State} {e : CmdError} :
    s.needInput = .error e ↔ s.cfg.ibufCap < s.ibufLen ∧ e = .badArgument := by
  unfold State.needInput
  split
  case isTrue h => simp [h, eq_comm]
  case isFalse h => simp [h]

theorem State.needCodebook_ok {s : State} {u : Unit} :
    s.needCodebook = .ok u ↔ s.status.cv = true := by
  unfold State.needCodebook
  split
  case isTrue h => simp [h]
  case isFalse h => simp [h]

theorem State.needCodebook_error {s : State} {e : CmdError} :
    s.needCodebook = .error e ↔ s.status.cv = false ∧ e = .notReady := by
  unfold State.needCodebook
  split
  case isTrue h => simp [h]
  case isFalse h => simp [h, eq_comm]

/-! ### Running the command in CMD -/

theorem State.runCommand_of_decode {s : State} {i : Instr} (h : decode s.cmd = .ok i) :
    s.runCommand = exec i s := by
  simp [State.runCommand, h]

theorem State.runCommand_of_illegal {s : State} {x : DecodeError} (h : decode s.cmd = .error x) :
    s.runCommand = .next (s.raise .illegalCommand) := by
  simp [State.runCommand, h, State.raiseIllegal, conclude]

/-- What the command in CMD can do. -/
theorem State.runCommand_cases {s t : State} (h : s.runCommand = .next t) :
    (∃ i u, decode s.cmd = .ok i ∧ effect i s = .ok u ∧ t = u.finish) ∨ ∃ e, t = s.raise e := by
  cases hd : decode s.cmd with
  | ok i =>
    rw [State.runCommand_of_decode hd] at h
    rcases exec_cases h with ⟨u, hu, ht⟩ | ⟨e, _, ht⟩
    · exact .inl ⟨i, u, rfl, hu, ht⟩
    · exact .inr ⟨e, ht⟩
  | error x =>
    rw [State.runCommand_of_illegal hd] at h
    exact .inr ⟨.illegalCommand, (Host.Outcome.next.inj h).symm⟩

end Sys2Proof.Machine
end

