-- ==== Sys2Proof/Laws/Commands.lean ====
section
/-! SUPPORT. Each command's effect, said once: when it succeeds and with which state, and when it ends with
which error. -/

namespace Sys2Proof.Machine

variable {s t : State} {e : CmdError}

theorem analyzeEffect_ok : analyzeEffect s = .ok t ↔
    s.ibufLen ≤ s.cfg.ibufCap ∧ { s with freq := countLoop s.input, origlen := s.ibufLen } = t := by
  simp only [analyzeEffect, except_bind_ok, State.needInput_ok, exists_const, pure, Except.pure,
    Except.ok.injEq]

theorem analyzeEffect_error :
    analyzeEffect s = .error e ↔ s.cfg.ibufCap < s.ibufLen ∧ e = .badArgument := by
  simp [analyzeEffect, except_bind_error, State.needInput_error, pure, Except.pure]

theorem packEffect_ok : packEffect s = .ok t ↔
    s.status.cv = true ∧ s.ibufLen ≤ s.cfg.ibufCap ∧
      ∃ r, packLoop s.cfg.obufCap.toNat s.pres s.len s.code s.input = .ok r ∧
        { s.output r.1 with pad := BitVec.ofNat 8 r.2 } = t := by
  simp only [packEffect, except_bind_ok, State.needCodebook_ok, State.needInput_ok, exists_const,
    pure, Except.pure, Except.ok.injEq]

theorem packEffect_error : packEffect s = .error e ↔
    (s.status.cv = false ∧ e = .notReady) ∨
    (s.status.cv = true ∧ s.cfg.ibufCap < s.ibufLen ∧ e = .badArgument) ∨
    (s.status.cv = true ∧ s.ibufLen ≤ s.cfg.ibufCap ∧
      packLoop s.cfg.obufCap.toNat s.pres s.len s.code s.input = .error e) := by
  simp only [packEffect, except_bind_error, State.needCodebook_ok, State.needCodebook_error,
    State.needInput_ok, State.needInput_error, exists_const, pure, Except.pure, reduceCtorEq,
    and_false, or_false]
  tauto

theorem unpackEffect_ok : unpackEffect s = .ok t ↔
    s.status.cv = true ∧ s.ibufLen ≤ s.cfg.ibufCap ∧ s.payoff ≤ s.ibufLen ∧
      ∃ out, unpackbits s.cfg.obufCap.toNat s.payload s.pres s.len s.code s.nsym.toNat s.pad.toNat
          s.origlen.toNat = .ok out ∧
        { s.output out with obufLen := s.origlen } = t := by
  simp only [unpackEffect, except_bind_ok, State.needCodebook_ok, State.needInput_ok, exists_const]
  by_cases h : s.ibufLen < s.payoff
  · simp [h, BitVec.not_le.mpr h]
  · simp [h, BitVec.not_lt.mp h, except_bind_ok, pure, Except.pure]

theorem unpackEffect_error : unpackEffect s = .error e ↔
    (s.status.cv = false ∧ e = .notReady) ∨
    (s.status.cv = true ∧ (s.cfg.ibufCap < s.ibufLen ∨ s.ibufLen < s.payoff) ∧
      e = .badArgument) ∨
    (s.status.cv = true ∧ s.ibufLen ≤ s.cfg.ibufCap ∧ s.payoff ≤ s.ibufLen ∧
      unpackbits s.cfg.obufCap.toNat s.payload s.pres s.len s.code s.nsym.toNat s.pad.toNat
        s.origlen.toNat = .error e) := by
  simp only [unpackEffect, except_bind_error, State.needCodebook_ok, State.needCodebook_error,
    State.needInput_ok, State.needInput_error, exists_const]
  rw [← BitVec.not_le (x := s.ibufLen) (y := s.cfg.ibufCap)]
  by_cases h : s.ibufLen < s.payoff
  · simp only [h, BitVec.not_le.mpr h, if_true, Except.error.injEq, or_true, true_and, false_and,
      and_false, or_false, eq_comm (a := CmdError.badArgument)]
    tauto
  · simp [h, BitVec.not_lt.mp h, except_bind_error, pure, Except.pure]
    tauto

/-- SERIALIZE's output (R194). -/
def State.serialized (s : State) : List Byte :=
  blob s.cfg.formatVersion s.pres s.len s.nsym.toNat s.ibufLen.toNat
    (packbits s.len s.code s.input).2 (packbits s.len s.code s.input).1

theorem serializeEffect_eq (s : State) : serializeEffect s = (do
    s.needCodebook
    s.needInput
    if s.input.any fun b => !s.pres.get b then .error .noCode
    else if s.cfg.obufCap.toNat < s.serialized.length then .error .noSpace
    else .ok { s.output s.serialized with
      origlen := s.ibufLen, pad := BitVec.ofNat 8 (packbits s.len s.code s.input).2 }) := rfl

theorem serializeEffect_ok : serializeEffect s = .ok t ↔
    s.status.cv = true ∧ s.ibufLen ≤ s.cfg.ibufCap ∧ (∀ x ∈ s.input, s.pres.get x = true) ∧
      s.serialized.length ≤ s.cfg.obufCap.toNat ∧
      { s.output s.serialized with
        origlen := s.ibufLen, pad := BitVec.ofNat 8 (packbits s.len s.code s.input).2 } = t := by
  simp only [serializeEffect_eq, except_bind_ok, State.needCodebook_ok, State.needInput_ok,
    exists_const]
  split
  case isTrue h =>
    have hn : ¬ ∀ x ∈ s.input, s.pres.get x = true := by simpa using h
    simp only [reduceCtorEq, and_false, hn, false_and]
  case isFalse h =>
    have hn : ∀ x ∈ s.input, s.pres.get x = true := by simpa using h
    split
    case isTrue hl => simp only [reduceCtorEq, and_false, Nat.not_le.mpr hl, false_and]
    case isFalse hl =>
      rw [Except.ok.injEq, iff_true_intro hn, true_and, iff_true_intro (Nat.le_of_not_lt hl),
        true_and]

theorem serializeEffect_error : serializeEffect s = .error e ↔
    (s.status.cv = false ∧ e = .notReady) ∨
    (s.status.cv = true ∧ s.cfg.ibufCap < s.ibufLen ∧ e = .badArgument) ∨
    (s.status.cv = true ∧ s.ibufLen ≤ s.cfg.ibufCap ∧ (∃ x ∈ s.input, s.pres.get x = false) ∧
      e = .noCode) ∨
    (s.status.cv = true ∧ s.ibufLen ≤ s.cfg.ibufCap ∧ (∀ x ∈ s.input, s.pres.get x = true) ∧
      s.cfg.obufCap.toNat < s.serialized.length ∧ e = .noSpace) := by
  simp only [serializeEffect_eq, except_bind_error, State.needCodebook_ok,
    State.needCodebook_error, State.needInput_ok, State.needInput_error, exists_const]
  split
  case isTrue h =>
    have hy : ∃ x ∈ s.input, s.pres.get x = false := by simpa using h
    have hn : ¬ ∀ x ∈ s.input, s.pres.get x = true := by simpa using h
    rw [iff_true_intro hy, iff_false_intro hn, Except.error.injEq, eq_comm (a := CmdError.noCode)]
    tauto
  case isFalse h =>
    have hn : ¬ ∃ x ∈ s.input, s.pres.get x = false := by simpa using h
    have hy : ∀ x ∈ s.input, s.pres.get x = true := by simpa using h
    rw [iff_true_intro hy, iff_false_intro hn]
    split
    case isTrue hl =>
      rw [iff_true_intro hl, Except.error.injEq, eq_comm (a := CmdError.noSpace)]
      tauto
    case isFalse hl =>
      simp only [hl, reduceCtorEq]
      tauto

theorem parseEffect_ok : parseEffect s = .ok t ↔
    s.ibufLen ≤ s.cfg.ibufCap ∧ ∃ r, parse s.cfg.formatVersion s.input = .ok r ∧
      State.setCv false { s.loadParsed r with code := Table.const 0 } = t := by
  simp only [parseEffect, except_bind_ok, State.needInput_ok, exists_const, pure, Except.pure,
    Except.ok.injEq]

theorem parseEffect_error : parseEffect s = .error e ↔
    (s.cfg.ibufCap < s.ibufLen ∧ e = .badArgument) ∨
    (s.ibufLen ≤ s.cfg.ibufCap ∧ parse s.cfg.formatVersion s.input = .error e) := by
  simp only [parseEffect, except_bind_error, State.needInput_ok, State.needInput_error,
    exists_const, pure, Except.pure, reduceCtorEq, and_false, or_false, exists_false]

/-- ENCODE's output (R198). -/
def State.encoded (s : State) : List Byte :=
  let pl := lengths (count s.input)
  let r := packbits pl.2 (canon pl.1 pl.2) s.input
  blob s.cfg.formatVersion pl.1 pl.2 (presentCount pl.1) s.ibufLen.toNat r.2 r.1

/-- The state that ENCODE leaves on success, before it ends (R198). -/
def State.encodedState (s : State) : State :=
  let f := count s.input
  let pl := lengths f
  State.setCv true
    { s.output s.encoded with
      freq := f, origlen := s.ibufLen, pres := pl.1, len := pl.2,
      nsym := BitVec.ofNat 9 (presentCount pl.1), code := canon pl.1 pl.2,
      pad := BitVec.ofNat 8 (packbits pl.2 (canon pl.1 pl.2) s.input).2 }

@[simp] theorem State.encodedState_cfg (s : State) :
    s.encodedState.cfg = s.cfg := by
  simp [State.encodedState]
@[simp] theorem State.encodedState_freq (s : State) :
    s.encodedState.freq = count s.input := by
  simp [State.encodedState]
@[simp] theorem State.encodedState_pres (s : State) :
    s.encodedState.pres = (lengths (count s.input)).1 := by
  simp [State.encodedState]
@[simp] theorem State.encodedState_len (s : State) :
    s.encodedState.len = (lengths (count s.input)).2 := by
  simp [State.encodedState]
@[simp] theorem State.encodedState_code (s : State) :
    s.encodedState.code = canon (lengths (count s.input)).1 (lengths (count s.input)).2 := by
  simp [State.encodedState]
@[simp] theorem State.encodedState_nsym (s : State) :
    s.encodedState.nsym = BitVec.ofNat 9 (presentCount (lengths (count s.input)).1) := by
  simp [State.encodedState]
@[simp] theorem State.encodedState_origlen (s : State) :
    s.encodedState.origlen = s.ibufLen := by
  simp [State.encodedState]
@[simp] theorem State.encodedState_pad (s : State) :
    s.encodedState.pad = BitVec.ofNat 8 (packbits (lengths (count s.input)).2
      (canon (lengths (count s.input)).1 (lengths (count s.input)).2) s.input).2 := by
  simp [State.encodedState]
@[simp] theorem State.encodedState_payoff (s : State) :
    s.encodedState.payoff = s.payoff := by
  simp [State.encodedState]
@[simp] theorem State.encodedState_ibufLen (s : State) :
    s.encodedState.ibufLen = s.ibufLen := by
  simp [State.encodedState]
@[simp] theorem State.encodedState_obufLen (s : State) :
    s.encodedState.obufLen = BitVec.ofNat 64 s.encoded.length := by
  simp [State.encodedState]
@[simp] theorem State.encodedState_cmd (s : State) :
    s.encodedState.cmd = s.cmd := by
  simp [State.encodedState]
@[simp] theorem State.encodedState_status (s : State) :
    s.encodedState.status = s.status.setCv true := by
  simp [State.encodedState]
@[simp] theorem State.encodedState_ibuf (s : State) :
    s.encodedState.ibuf = s.ibuf := by
  simp [State.encodedState]
@[simp] theorem State.encodedState_obuf (s : State) :
    s.encodedState.obuf = Memory.ofBytes s.encoded := by
  simp [State.encodedState]
@[simp] theorem State.encodedState_pending (s : State) :
    s.encodedState.pending = s.pending := by
  simp [State.encodedState]
@[simp] theorem State.encodedState_seen (s : State) :
    s.encodedState.seen = s.seen := by
  simp [State.encodedState]
@[simp] theorem State.encodedState_resets (s : State) :
    s.encodedState.resets = s.resets := by
  simp [State.encodedState]
@[simp] theorem State.encodedState_draws (s : State) :
    s.encodedState.draws = s.draws := by
  simp [State.encodedState]

theorem encodeEffect_eq (s : State) : encodeEffect s = (do
    s.needInput
    if s.cfg.obufCap.toNat < s.encoded.length then .error .noSpace
    else .ok s.encodedState) := rfl

theorem encodeEffect_ok : encodeEffect s = .ok t ↔
    s.ibufLen ≤ s.cfg.ibufCap ∧ s.encoded.length ≤ s.cfg.obufCap.toNat ∧ s.encodedState = t := by
  simp only [encodeEffect_eq, except_bind_ok, State.needInput_ok, exists_const]
  split
  case isTrue hl => simp only [reduceCtorEq, and_false, Nat.not_le.mpr hl, false_and]
  case isFalse hl =>
    rw [Except.ok.injEq, iff_true_intro (Nat.le_of_not_lt hl), true_and]

theorem encodeEffect_error : encodeEffect s = .error e ↔
    (s.cfg.ibufCap < s.ibufLen ∧ e = .badArgument) ∨
    (s.ibufLen ≤ s.cfg.ibufCap ∧ s.cfg.obufCap.toNat < s.encoded.length ∧ e = .noSpace) := by
  simp only [encodeEffect_eq, except_bind_error, State.needInput_ok, State.needInput_error,
    exists_const]
  split
  case isTrue hl =>
    rw [iff_true_intro hl, Except.error.injEq, eq_comm (a := CmdError.noSpace), true_and]
  case isFalse hl => simp only [hl, reduceCtorEq, false_and]

theorem decodeEffect_ok : decodeEffect s = .ok t ↔
    s.ibufLen ≤ s.cfg.ibufCap ∧ ∃ r, parse s.cfg.formatVersion s.input = .ok r ∧
      ∃ x, unpackbits s.cfg.obufCap.toNat (s.input.drop r.payoff) r.pres r.len
          (canon r.pres r.len) r.nsym r.pad r.origlen = .ok x ∧
        State.setCv true { (s.loadParsed r).output x with code := canon r.pres r.len } = t := by
  simp only [decodeEffect, except_bind_ok, State.needInput_ok, exists_const, pure, Except.pure,
    Except.ok.injEq]

theorem decodeEffect_error : decodeEffect s = .error e ↔
    (s.cfg.ibufCap < s.ibufLen ∧ e = .badArgument) ∨
    (s.ibufLen ≤ s.cfg.ibufCap ∧ (parse s.cfg.formatVersion s.input = .error e ∨
      ∃ r, parse s.cfg.formatVersion s.input = .ok r ∧
        unpackbits s.cfg.obufCap.toNat (s.input.drop r.payoff) r.pres r.len
          (canon r.pres r.len) r.nsym r.pad r.origlen = .error e)) := by
  simp only [decodeEffect, except_bind_error, State.needInput_ok, State.needInput_error,
    exists_const, pure, Except.pure, reduceCtorEq, and_false, or_false]

end Sys2Proof.Machine
end

