-- ==== Sys2Proof/Laws/Memory.lean ====
section
/-! SUPPORT. The byte memories: a read after a write, and the canonical form every operation keeps. -/

namespace Sys2Proof.Machine

theorem Memory.unlisted_ne (x : Host.Cell) : some x.2 ≠ Memory.unlisted := by
  simp [Memory.unlisted]

/-- The canonical form is that the addresses rise: an unlisted address has no value of its own. -/
theorem Memory.wf_iff (m : Memory) : m.wf ↔ m.Pairwise (fun x y => x.1 < y.1) :=
  ⟨And.left, fun h => ⟨h, fun x _ => Memory.unlisted_ne x⟩⟩

theorem Memory.wf_nil : Memory.wf [] := ⟨.nil, nofun⟩

/-- A read after a write to the same address gives the byte written; elsewhere nothing changes. -/
theorem Memory.lookup_write (m : Memory) (a x : Nat) (b : Byte) (h : m.wf) :
    (m.write a b).lookup x = if x = a then some b else m.lookup x := by
  induction m with
  | nil => rfl
  | cons c m ih =>
    obtain ⟨k, v⟩ := c
    rw [Memory.wf_iff, List.pairwise_cons] at h
    have ih := ih ((Memory.wf_iff m).mpr h.2)
    simp only [Memory.write]
    split
    · simp only [Memory.lookup]
    · split
      · subst a
        by_cases hx : x = k <;> simp [Memory.lookup, hx]
      · simp only [Memory.lookup, ih]
        by_cases hx : x = k
        · rw [if_pos hx, if_neg (by omega), if_pos hx]
        · rw [if_neg hx, if_neg hx]

theorem Memory.mem_write {m : Memory} {a : Nat} {b : Byte} {c : Host.Cell}
    (h : c ∈ m.write a b) : c = (a, b) ∨ c ∈ m := by
  induction m with
  | nil => simpa [Memory.write] using h
  | cons d m ih =>
    obtain ⟨k, v⟩ := d
    simp only [Memory.write] at h
    split at h
    · simpa using h
    · split at h
      · exact (List.mem_cons.mp h).imp_right (List.mem_cons_of_mem _)
      · rw [List.mem_cons] at h
        rcases h with h | h
        · exact .inr (h ▸ List.mem_cons_self)
        · exact (ih h).imp_right (List.mem_cons_of_mem _)

/-- A write keeps the canonical form. -/
theorem Memory.write_wf {m : Memory} (a : Nat) (b : Byte) (h : m.wf) : (m.write a b).wf := by
  rw [Memory.wf_iff] at h ⊢
  induction m with
  | nil => simp [Memory.write]
  | cons d m ih =>
    obtain ⟨k, v⟩ := d
    rw [List.pairwise_cons] at h
    simp only [Memory.write]
    split
    case isTrue hk =>
      refine List.pairwise_cons.mpr ⟨fun c hc => ?_, List.pairwise_cons.mpr h⟩
      rcases List.mem_cons.mp hc with rfl | hc
      · exact hk
      · exact Nat.lt_trans hk (h.1 c hc)
    case isFalse hk =>
      split
      case isTrue he => exact List.pairwise_cons.mpr ⟨fun c hc => he ▸ h.1 c hc, h.2⟩
      case isFalse he =>
        refine List.pairwise_cons.mpr ⟨fun c hc => ?_, ih h.2⟩
        rcases Memory.mem_write hc with rfl | hc
        · show k < a
          omega
        · exact h.1 c hc

theorem Memory.mem_ofBytesFrom {a : Nat} {bs : List Byte} {c : Host.Cell}
    (h : c ∈ Memory.ofBytesFrom a bs) : a ≤ c.1 ∧ c.1 < a + bs.length := by
  induction bs generalizing a with
  | nil => simp [Memory.ofBytesFrom] at h
  | cons b bs ih =>
    rcases List.mem_cons.mp h with rfl | h
    · exact ⟨Nat.le_refl _, by simp⟩
    · have := ih h
      simp only [List.length_cons]
      omega

/-- An output is in canonical form. -/
theorem Memory.ofBytesFrom_wf (a : Nat) (bs : List Byte) : (Memory.ofBytesFrom a bs).wf := by
  rw [Memory.wf_iff]
  induction bs generalizing a with
  | nil => exact List.Pairwise.nil
  | cons b bs ih =>
    exact List.pairwise_cons.mpr ⟨fun c hc => (Memory.mem_ofBytesFrom hc).1, ih (a + 1)⟩

theorem Memory.ofBytes_wf (bs : List Byte) : (Memory.ofBytes bs).wf := Memory.ofBytesFrom_wf 0 bs

theorem Memory.lookup_ofBytesFrom (a : Nat) (bs : List Byte) (x : Nat) (h : a ≤ x) :
    (Memory.ofBytesFrom a bs).lookup x = bs[x - a]? := by
  induction bs generalizing a with
  | nil => rfl
  | cons b bs ih =>
    simp only [Memory.ofBytesFrom, Memory.lookup]
    split
    · next he => simp [he]
    · rw [ih (a + 1) (by omega), show x - a = (x - (a + 1)) + 1 by omega, List.getElem?_cons_succ]

/-- An output's byte at an address is the output's byte of that index. -/
@[simp] theorem Memory.lookup_ofBytes (bs : List Byte) (x : Nat) :
    (Memory.ofBytes bs).lookup x = bs[x]? := by
  rw [Memory.ofBytes, Memory.lookup_ofBytesFrom 0 bs x (Nat.zero_le x), Nat.sub_zero]

end Sys2Proof.Machine
end

