-- ==== Sys2Proof/Laws/Operands.lean ====
section
/-! SUPPORT. The input and the output of a command, and the counts of the analyzer (R29, R30, R111). -/

namespace Sys2Proof.Machine

@[simp] theorem State.input_length (s : State) : s.input.length = s.ibufLen.toNat := by
  simp [State.input]

/-- The input depends on IBUF, IBUF_LEN and the number of the reset alone. -/
theorem State.input_congr {s t : State} (hb : t.ibuf = s.ibuf) (hl : t.ibufLen = s.ibufLen)
    (hr : t.resets = s.resets) : t.input = s.input := by
  have hbyte : t.ibufByte = s.ibufByte := by
    funext a
    rw [State.ibufByte, State.ibufByte, hb, hr]
  rw [State.input, State.input, hl, hbyte]

/-- The valid output of a state that holds an output. -/
theorem State.outputBytes_of {t : State} {bytes : List Byte} (hb : t.obuf = Memory.ofBytes bytes)
    (hl : t.obufLen.toNat = bytes.length) : t.outputBytes = bytes := by
  rw [State.outputBytes, hl]
  refine List.ext_getElem (by simp) fun i h₁ h₂ => ?_
  rw [List.getElem_map, List.getElem_range, State.obufByte, hl, if_pos h₂, hb,
    Memory.lookup_ofBytes, List.getElem?_eq_getElem h₂, Option.getD_some]

/-- An output that fits a capacity has its length in OBUF_LEN. -/
theorem toNat_ofNat_of_le {n : Nat} {cap : Word64} (h : n ≤ cap.toNat) :
    (BitVec.ofNat 64 n).toNat = n := by
  rw [BitVec.toNat_ofNat, Nat.mod_eq_of_lt (Nat.lt_of_le_of_lt h cap.isLt)]

/-- The turns of ANALYZE's loop add to the counts. -/
theorem foldl_countByte (d : List Byte) (f : Table Word64) (x : Symbol) :
    (d.foldl countByte f).get x = f.get x + BitVec.ofNat 64 (d.count x) := by
  induction d generalizing f with
  | nil => simp
  | cons b d ih =>
    rw [List.foldl_cons, ih, countByte, Table.get_set, List.count_cons]
    by_cases hx : x = b
    · subst hx
      rw [if_pos rfl, beq_self_eq_true, if_pos rfl, BitVec.add_assoc, BitVec.ofNat_add,
        BitVec.add_comm 1]
      rfl
    · rw [if_neg hx, beq_false_of_ne (Ne.symm hx), if_neg Bool.false_ne_true, Nat.add_zero]

/-- ANALYZE's loop gives `count` (R112). -/
theorem countLoop_eq (d : List Byte) : countLoop d = count d := by
  refine Table.ext_get fun x => ?_
  rw [countLoop, foldl_countByte, Table.get_const, count, Table.get_tabulate]
  exact BitVec.zero_add _

/-- A count fits 64 bits when the length does (R113). -/
theorem count_get_toNat {d : List Byte} (h : d.length < 2 ^ 64) (x : Symbol) :
    ((count d).get x).toNat = d.count x := by
  rw [count, Table.get_tabulate, BitVec.toNat_ofNat,
    Nat.mod_eq_of_lt (Nat.lt_of_le_of_lt List.count_le_length h)]

end Sys2Proof.Machine
end

