-- ==== Sys2Proof/Laws/Packer.lean ====
section
/-! SUPPORT. The packer: its registers hold the stream so far (R39, R158), so its loops give `packbits`
(R157) or NoSpace. -/

namespace Sys2Proof.Machine

/-- The packer's registers hold the stream `bits`: whole bytes in OBUF, the rest in the high positions
of ACC, and the low positions of ACC zero. -/
structure Holds (p : PackState) (bits : List Bool) : Prop where
  room : p.accn < 8
  count : bits.length = 8 * p.out.length + p.accn
  stream : streamBits p.out ++ bitsOf p.acc.toNat 8 = bits ++ List.replicate (8 - p.accn) false

theorem holds_start : Holds { out := [], acc := 0, accn := 0 } [] := by
  constructor <;> decide

/-- A bit written below the bits that ACC holds. -/
theorem setAccBit_bits (acc : Byte) (n : Fin 8) (b : Bool)
    (h : (bitsOf acc.toNat 8).drop n.val = List.replicate (8 - n.val) false) :
    bitsOf (setAccBit acc (7 - n.val) b).toNat 8 =
      (bitsOf acc.toNat 8).take n.val ++ b :: List.replicate (7 - n.val) false := by
  revert acc n b
  decide +kernel

/-- What one turn of the inner loop does: the bit is added to the stream, or the byte that it fills does
not fit. -/
theorem packBit_holds {p : PackState} {bits : List Bool} (cap : Nat) (b : Bool) (h : Holds p bits)
    (hc : p.out.length ≤ cap) :
    if (bits.length + 1) / 8 ≤ cap then
      ∃ p', packBit cap p b = .ok p' ∧ Holds p' (bits ++ [b]) ∧ p'.out.length ≤ cap
    else packBit cap p b = .error .noSpace := by
  have hr := h.room
  have hcnt := h.count
  have hdrop : (bitsOf p.acc.toNat 8).drop p.accn = List.replicate (8 - p.accn) false := by
    have := congrArg (List.drop (8 * p.out.length + p.accn)) h.stream
    rw [List.drop_append, streamBits_length, List.drop_of_length_le (by simp), List.nil_append,
      Nat.add_sub_cancel_left, List.drop_left' hcnt] at this
    exact this
  have htake : streamBits p.out ++ (bitsOf p.acc.toNat 8).take p.accn = bits := by
    have := congrArg (List.take (8 * p.out.length + p.accn)) h.stream
    rw [List.take_append, streamBits_length, List.take_of_length_le (by simp),
      Nat.add_sub_cancel_left, List.take_left' hcnt] at this
    exact this
  have hset := setAccBit_bits p.acc ⟨p.accn, hr⟩ b hdrop
  simp only at hset
  have hstream : streamBits p.out ++ bitsOf (setAccBit p.acc (7 - p.accn) b).toNat 8 =
      bits ++ [b] ++ List.replicate (7 - p.accn) false := by
    rw [hset, ← List.append_assoc, htake, List.append_assoc, List.singleton_append]
  rw [packBit]
  by_cases h8 : p.accn + 1 = 8
  · rw [if_pos h8]
    by_cases hcap : cap ≤ p.out.length
    · rw [if_neg (by omega), if_pos hcap]
    · rw [if_pos (by omega), if_neg hcap]
      refine ⟨_, rfl, ⟨Nat.zero_lt_succ 7, ?_, ?_⟩, ?_⟩
      · simp only [List.length_append, List.length_singleton]
        omega
      · rw [show 7 - p.accn = 0 by omega, List.replicate_zero, List.append_nil] at hstream
        show streamBits (p.out ++ [setAccBit p.acc (7 - p.accn) b]) ++ _ = _
        rw [streamBits_append, streamBits_cons, streamBits_nil, List.append_nil,
          show 7 - p.accn = 0 by omega, hstream]
        exact congrArg _ (show bitsOf 0 8 = List.replicate 8 false by decide)
      · simp only [List.length_append, List.length_singleton]
        omega
  · rw [if_neg h8, if_pos (by omega)]
    refine ⟨_, rfl, ⟨by simp only; omega, ?_, ?_⟩, hc⟩
    · simp only [List.length_append, List.length_singleton]
      omega
    · simp only
      rw [hstream, show 8 - (p.accn + 1) = 7 - p.accn by omega]

/-- What the inner loop does with several bits. -/
theorem packBits_holds {p : PackState} {bits : List Bool} (cap : Nat) (bs : List Bool)
    (h : Holds p bits) (hc : p.out.length ≤ cap) :
    if (bits.length + bs.length) / 8 ≤ cap then
      ∃ p', bs.foldlM (packBit cap) p = .ok p' ∧ Holds p' (bits ++ bs) ∧ p'.out.length ≤ cap
    else bs.foldlM (packBit cap) p = .error .noSpace := by
  induction bs generalizing p bits with
  | nil =>
    have := h.count
    have := h.room
    rw [List.length_nil, Nat.add_zero, if_pos (by omega)]
    exact ⟨p, rfl, by simpa using h, hc⟩
  | cons b bs ih =>
    have hb := packBit_holds cap b h hc
    rw [List.foldlM_cons, List.length_cons]
    by_cases h1 : (bits.length + 1) / 8 ≤ cap
    · rw [if_pos h1] at hb
      obtain ⟨p', hp', hh, hc'⟩ := hb
      have := ih hh hc'
      rw [List.length_append, List.length_singleton, List.append_assoc, List.singleton_append,
        Nat.add_assoc, Nat.add_comm 1] at this
      rw [hp']
      exact this
    · rw [if_neg h1] at hb
      rw [if_neg (by omega), hb]
      rfl

theorem codeStream_append (len : Table Byte) (code : Table CodeWord) (d d' : List Byte) :
    codeStream len code (d ++ d') = codeStream len code d ++ codeStream len code d' :=
  List.flatMap_append

theorem codeStream_cons (len : Table Byte) (code : Table CodeWord) (x : Byte) (d : List Byte) :
    codeStream len code (x :: d) = codeBits len code x ++ codeStream len code d := rfl

theorem codeStream_length (len : Table Byte) (code : Table CodeWord) (d : List Byte) :
    (codeStream len code d).length = (d.map fun x => (len.get x).toNat).sum := by
  rw [codeStream, List.length_flatMap]
  congr 1
  exact List.map_congr_left fun x _ => by rw [codeBits, bitsOf_length]

/-- What the outer loop does with bytes whose symbols are all present. -/
theorem packSymbols_holds {pres : Table Bool} {len : Table Byte} {code : Table CodeWord}
    {p : PackState} {bits : List Bool} (cap : Nat) (d : List Byte)
    (hd : ∀ x ∈ d, pres.get x = true) (h : Holds p bits) (hc : p.out.length ≤ cap) :
    if (bits.length + (codeStream len code d).length) / 8 ≤ cap then
      ∃ p', d.foldlM (packSymbol cap pres len code) p = .ok p' ∧
        Holds p' (bits ++ codeStream len code d) ∧ p'.out.length ≤ cap
    else d.foldlM (packSymbol cap pres len code) p = .error .noSpace := by
  induction d generalizing p bits with
  | nil =>
    have := h.count
    have := h.room
    rw [codeStream, List.flatMap_nil, List.length_nil, Nat.add_zero, if_pos (by omega)]
    exact ⟨p, rfl, by simpa using h, hc⟩
  | cons x d ih =>
    have hb := packBits_holds cap (codeBits len code x) h hc
    have hsym : packSymbol cap pres len code p x = (codeBits len code x).foldlM (packBit cap) p := by
      rw [packSymbol, if_pos (hd x List.mem_cons_self)]
    rw [List.foldlM_cons, hsym, codeStream_cons, List.length_append]
    by_cases h1 : (bits.length + (codeBits len code x).length) / 8 ≤ cap
    · rw [if_pos h1] at hb
      obtain ⟨p', hp', hh, hc'⟩ := hb
      have := ih (fun y hy => hd y (List.mem_cons_of_mem _ hy)) hh hc'
      rw [List.length_append, List.append_assoc, Nat.add_assoc] at this
      rw [hp']
      exact this
    · rw [if_neg h1] at hb
      rw [if_neg (by omega), hb]
      rfl

theorem packbits_length (len : Table Byte) (code : Table CodeWord) (d : List Byte) :
    (packbits len code d).1.length = ((codeStream len code d).length + 7) / 8 := by
  simp only [packbits, bytesOfBits_length, padOf]
  omega

/-- The end of PACK: the registers give `packbits`, or the last byte does not fit. -/
theorem packFlush_holds {len : Table Byte} {code : Table CodeWord} {d : List Byte} {p : PackState}
    (cap : Nat) (h : Holds p (codeStream len code d)) (hc : p.out.length ≤ cap) :
    packFlush cap p = if (packbits len code d).1.length ≤ cap then .ok (packbits len code d)
      else .error .noSpace := by
  have hr := h.room
  have hcnt := h.count
  have hpad : padOf (codeStream len code d).length = (8 - p.accn) % 8 := by
    rw [padOf]
    omega
  rw [packbits_length, packFlush]
  by_cases h0 : p.accn > 0
  · rw [if_pos h0]
    by_cases hcap : cap ≤ p.out.length
    · rw [if_pos hcap, if_neg (by omega)]
    · rw [if_neg hcap, if_pos (by omega)]
      have hpad' : (8 - p.accn) % 8 = 8 - p.accn := by omega
      have hm : ((codeStream len code d).length + (8 - p.accn)) / 8 = (p.out ++ [p.acc]).length := by
        simp only [List.length_append, List.length_singleton]
        omega
      have hs : codeStream len code d ++ List.replicate (8 - p.accn) false =
          streamBits (p.out ++ [p.acc]) := by
        rw [streamBits_append, ← h.stream, streamBits_cons, streamBits_nil, List.append_nil]
      rw [packbits]
      simp only [hpad, hpad', hm, hs, bytesOfBits_streamBits]
  · have h0' : p.accn = 0 := by omega
    rw [if_neg h0, if_pos (by omega)]
    have hm : ((codeStream len code d).length + 0) / 8 = p.out.length := by omega
    have hs : codeStream len code d = streamBits p.out := by
      have := congrArg (List.take (8 * p.out.length)) h.stream
      rw [List.take_left' (streamBits_length _), List.take_left' (by omega)] at this
      exact this.symm
    rw [packbits]
    simp only [hpad, h0']
    rw [show (8 - 0) % 8 = 0 by rfl, hm, List.replicate_zero, List.append_nil, hs,
      bytesOfBits_streamBits]

/-- PACK's loops on bytes whose symbols are all present: `packbits`, or NoSpace. -/
theorem packLoop_eq {pres : Table Bool} {len : Table Byte} {code : Table CodeWord} {d : List Byte}
    (cap : Nat) (hd : ∀ x ∈ d, pres.get x = true) :
    packLoop cap pres len code d = if (packbits len code d).1.length ≤ cap
      then .ok (packbits len code d) else .error .noSpace := by
  have hl := packSymbols_holds (len := len) (code := code) cap d hd holds_start (Nat.zero_le cap)
  rw [List.length_nil, Nat.zero_add] at hl
  rw [packLoop]
  by_cases h1 : (codeStream len code d).length / 8 ≤ cap
  · rw [if_pos h1] at hl
    obtain ⟨p, hp, hh, hc⟩ := hl
    rw [hp]
    exact packFlush_holds cap hh hc
  · rw [if_neg h1] at hl
    rw [hl, packbits_length, if_neg (by omega)]
    rfl

end Sys2Proof.Machine
end

