-- ==== Sys2Proof/Laws/PerInstr.lean ====
section
/-! SUPPORT. One statement per command, about the command as syntax: its word is legal (R84), selects
exactly its row of the operation table (R83) and decodes to it (R81). -/

/-- The word of i is well formed, is the match of the row of i and of no other row, and decodes to i. -/
def Sys2Proof.Laws.EncodeDecode.Statement (i : Sys2Proof.Instr) : Prop :=
  i.wellFormed = true ∧ Sys2Proof.wordWellFormed (Sys2Proof.encode i) = true ∧
    (∀ r ∈ Sys2Proof.opTable, r.selects (Sys2Proof.encode i) = true ↔ r.instr = i) ∧
    (∃ r ∈ Sys2Proof.opTable, r.matchWord = Sys2Proof.encode i) ∧
    Sys2Proof.decode (Sys2Proof.encode i) = .ok i

theorem Sys2Proof.Laws.EncodeDecode.nop : Sys2Proof.Laws.EncodeDecode.Statement .nop := by
  unfold Sys2Proof.Laws.EncodeDecode.Statement
  decide

theorem Sys2Proof.Laws.EncodeDecode.clear : Sys2Proof.Laws.EncodeDecode.Statement .clear := by
  unfold Sys2Proof.Laws.EncodeDecode.Statement
  decide

theorem Sys2Proof.Laws.EncodeDecode.analyze : Sys2Proof.Laws.EncodeDecode.Statement .analyze := by
  unfold Sys2Proof.Laws.EncodeDecode.Statement
  decide

theorem Sys2Proof.Laws.EncodeDecode.build : Sys2Proof.Laws.EncodeDecode.Statement .build := by
  unfold Sys2Proof.Laws.EncodeDecode.Statement
  decide

theorem Sys2Proof.Laws.EncodeDecode.canon : Sys2Proof.Laws.EncodeDecode.Statement .canon := by
  unfold Sys2Proof.Laws.EncodeDecode.Statement
  decide

theorem Sys2Proof.Laws.EncodeDecode.pack : Sys2Proof.Laws.EncodeDecode.Statement .pack := by
  unfold Sys2Proof.Laws.EncodeDecode.Statement
  decide

theorem Sys2Proof.Laws.EncodeDecode.unpack : Sys2Proof.Laws.EncodeDecode.Statement .unpack := by
  unfold Sys2Proof.Laws.EncodeDecode.Statement
  decide

theorem Sys2Proof.Laws.EncodeDecode.serialize : Sys2Proof.Laws.EncodeDecode.Statement .serialize := by
  unfold Sys2Proof.Laws.EncodeDecode.Statement
  decide

theorem Sys2Proof.Laws.EncodeDecode.parse : Sys2Proof.Laws.EncodeDecode.Statement .parse := by
  unfold Sys2Proof.Laws.EncodeDecode.Statement
  decide

theorem Sys2Proof.Laws.EncodeDecode.encode : Sys2Proof.Laws.EncodeDecode.Statement .encode := by
  unfold Sys2Proof.Laws.EncodeDecode.Statement
  decide

theorem Sys2Proof.Laws.EncodeDecode.decode : Sys2Proof.Laws.EncodeDecode.Statement .decode := by
  unfold Sys2Proof.Laws.EncodeDecode.Statement
  decide
end

