-- ==== Sys2Proof/Laws/Port.lean ====
section
/-! SUPPORT. The host's port: which register stands at an index (R34), and the effect of each event on an
idle machine. -/

namespace Sys2Proof.Machine

/-! ### The register map -/

theorem regAt_freq (x : Symbol) : regAt (BitVec.ofNat 16 (0x0100 + x.toNat)) = .freq x := by
  have hx := x.isLt
  have hi : (BitVec.ofNat 16 (0x0100 + x.toNat)).toNat = 0x0100 + x.toNat := by
    rw [BitVec.toNat_ofNat]
    omega
  simp only [regAt, hi]
  iterate 9 rw [if_neg (by omega)]
  rw [if_pos (by omega), Nat.add_sub_cancel_left, BitVec.ofNat_toNat, BitVec.setWidth_eq]

theorem regAt_lentab (x : Symbol) : regAt (BitVec.ofNat 16 (0x0200 + x.toNat)) = .lentab x := by
  have hx := x.isLt
  have hi : (BitVec.ofNat 16 (0x0200 + x.toNat)).toNat = 0x0200 + x.toNat := by
    rw [BitVec.toNat_ofNat]
    omega
  simp only [regAt, hi]
  iterate 10 rw [if_neg (by omega)]
  rw [if_pos (by omega), Nat.add_sub_cancel_left, BitVec.ofNat_toNat, BitVec.setWidth_eq]

theorem regAt_codew (x : Symbol) (k : Fin 4) :
    regAt (BitVec.ofNat 16 (0x0400 + 4 * x.toNat + k.val)) = .codew x k := by
  have hx := x.isLt
  have hk := k.isLt
  have hi : (BitVec.ofNat 16 (0x0400 + 4 * x.toNat + k.val)).toNat = 0x0400 + 4 * x.toNat + k.val := by
    rw [BitVec.toNat_ofNat]
    omega
  have hf : Fin.ofNat 4 (0x0400 + 4 * x.toNat + k.val - 0x0400) = k := by
    apply Fin.ext
    rw [Fin.val_ofNat]
    omega
  simp only [regAt, hi]
  iterate 11 rw [if_neg (by omega)]
  rw [if_pos (by omega), hf,
    show (0x0400 + 4 * x.toNat + k.val - 0x0400) / 4 = x.toNat by omega, BitVec.ofNat_toNat,
    BitVec.setWidth_eq]

theorem regAt_reserved {index : Nat}
    (h : (0x0009 ≤ index ∧ index < 0x0100) ∨ (0x0300 ≤ index ∧ index < 0x0400) ∨
      (0x0800 ≤ index ∧ index < 0x10000)) : regAt (BitVec.ofNat 16 index) = .reserved := by
  have hi : (BitVec.ofNat 16 index).toNat = index := by
    rw [BitVec.toNat_ofNat]
    omega
  simp only [regAt, hi]
  iterate 12 rw [if_neg (by omega)]

theorem Reg.of_ite {p : Prop} [Decidable p] {a b c : Reg} (h : (if p then a else b) = c)
    (ha : a ≠ c) : b = c := by
  by_cases hp : p
  · rw [if_pos hp] at h
    exact absurd h ha
  · rwa [if_neg hp] at h

/-- Only index 0 is CMD. -/
theorem regAt_eq_cmd {index : BitVec 16} : regAt index = .cmd ↔ index = 0 := by
  refine ⟨fun h => ?_, fun h => h ▸ rfl⟩
  by_contra hne
  have h0 : index.toNat ≠ 0x0000 := fun e => hne (BitVec.eq_of_toNat_eq e)
  unfold regAt at h
  dsimp only at h
  rw [if_neg h0] at h
  iterate 11 replace h := Reg.of_ite h nofun
  cases h

/-- Only index 1 is STATUS. -/
theorem regAt_eq_status {index : BitVec 16} : regAt index = .status ↔ index = 1 := by
  refine ⟨fun h => ?_, fun h => h ▸ rfl⟩
  by_contra hne
  have h0 : index.toNat ≠ 0x0001 := fun e => hne (BitVec.eq_of_toNat_eq e)
  unfold regAt at h
  dsimp only at h
  replace h := Reg.of_ite h nofun
  rw [if_neg h0] at h
  iterate 10 replace h := Reg.of_ite h nofun
  cases h

/-! ### Events on an idle machine -/

variable {s : State}

/-- An accepted CMD write runs the command of its low 32 bits (R81). -/
theorem hostRegWrite_cmd (h : s.status.busy = false) (v : Word64) :
    hostRegWrite 0x0000 v s = (s.accept (v.setWidth 32)).runCommand := by
  rw [hostRegWrite, h, if_neg Bool.false_ne_true, regAt_eq_cmd.mpr rfl]

theorem hostRegWrite_idle (h : s.status.busy = false) {index : BitVec 16} (hi : regAt index ≠ .cmd)
    (v : Word64) : hostRegWrite index v s = .next (s.writeReg v (regAt index)) := by
  rw [hostRegWrite, h, if_neg Bool.false_ne_true]
  split
  · next hc => exact absurd hc hi
  · rfl

theorem hostRegRead_idle (h : s.status.busy = false) (index : BitVec 16) :
    hostRegRead index s = .next (s.observe (s.readReg (regAt index))) := by
  rw [hostRegRead, h, Bool.false_and, if_neg Bool.false_ne_true]

theorem hostCmdStart_ok (h : s.status.busy = false) {w : Word32} {i : Instr}
    (hd : decode w = .ok i) : hostCmdStart w s = .next (s.accept w) := by
  rw [hostCmdStart, h, if_neg Bool.false_ne_true, hd]

theorem hostCmdStart_illegal (h : s.status.busy = false) {w : Word32} {x : DecodeError}
    (hd : decode w = .error x) :
    hostCmdStart w s = .next ((s.accept w).raise .illegalCommand) := by
  rw [hostCmdStart, h, if_neg Bool.false_ne_true, hd]
  rfl

theorem engineEnd_busy (h : s.status.busy = true) : engineEnd s = s.runCommand := by
  rw [engineEnd, if_pos h]

theorem engineEnd_idle (h : s.status.busy = false) : engineEnd s = .next s := by
  rw [engineEnd, h, if_neg Bool.false_ne_true]

/-- One step takes the first pending event. -/
theorem step_cons {e : HostEvent} {rest : List HostEvent} (h : s.pending = e :: rest) :
    step s = hostEvent e { s with pending := rest } := by
  rw [step, nextEvent, h]

theorem step_nil (h : s.pending = []) : step s = engineEnd s := by
  rw [step, nextEvent, h]

end Sys2Proof.Machine
end

