-- ==== Sys2Proof/Tests/Slice0.lean ====
section
/-! SUPPORT. The model's own tests, and a witness for the hypotheses of every statement.

The expected values of the tests are those of 95_test_vectors.md; a docstring names the vector. -/

namespace Sys2Proof.Tests

open Sys2Proof.Machine

-- The kernel evaluations run one after another, so that they do not ask for memory all at once.
set_option Elab.async false

/-! ### Test beds -/

/-- The reset state with both capacities `cap`, and an input in IBUF. -/
def bed (cap : Nat) (data : List Byte) : State :=
  { State.resetWith { formatVersion := 1, ibufCap := .ofNat 64 cap, obufCap := .ofNat 64 cap } with
    ibuf := Memory.ofBytes data, ibufLen := .ofNat 64 data.length }

/-- The table with the given entries and 0 elsewhere. -/
def entries (w : Nat) (rows : List (Symbol × Nat)) : Table (BitVec w) :=
  Table.tabulate fun x => .ofNat w ((rows.lookup x).getD 0)

/-- A table of code lengths in place (PRES, LEN, NSYM). -/
def withLengths (rows : List (Symbol × Nat)) (s : State) : State :=
  { s with
    pres := Table.tabulate fun x => rows.any (·.1 == x), len := entries 8 rows,
    nsym := .ofNat 9 rows.length }

/-- A codebook in place: the code values, with CV = 1. -/
def withCodes (rows : List (Symbol × Nat)) (s : State) : State :=
  State.setCv true { s with code := entries 255 rows }

theorem entries_get (w : Nat) (rows : List (Symbol × Nat)) (x : Symbol) :
    (entries w rows).get x = .ofNat w ((rows.lookup x).getD 0) := Table.get_tabulate _ x

theorem withLengths_pres (rows : List (Symbol × Nat)) (s : State) (x : Symbol) :
    (withLengths rows s).pres.get x = rows.any (·.1 == x) := Table.get_tabulate _ x

theorem withLengths_len (rows : List (Symbol × Nat)) (s : State) (x : Symbol) :
    (withLengths rows s).len.get x = .ofNat 8 ((rows.lookup x).getD 0) := entries_get 8 rows x

/-- The codebook of vectors V-C7 and V-P6. -/
def abraLengths : List (Symbol × Nat) := [(0x41, 1), (0x42, 3), (0x43, 3), (0x44, 3), (0x52, 3)]

def abraCodes : List (Symbol × Nat) := [(0x41, 0), (0x42, 4), (0x43, 5), (0x44, 6), (0x52, 7)]

def withAbra (s : State) : State := withCodes abraCodes (withLengths abraLengths s)

/-- "ABRACADABRA". -/
def abra : List Byte := [0x41, 0x42, 0x52, 0x41, 0x43, 0x41, 0x44, 0x41, 0x42, 0x52, 0x41]

/-- The blob of vector V-S3. -/
def abraBlob : List Byte :=
  [0x01, 0x00, 0x05, 0x41, 0x01, 0x42, 0x03, 0x43, 0x03, 0x44, 0x03, 0x52, 0x03] ++
    [0, 0, 0, 0, 0, 0, 0, 0x0B, 0x01, 0x4E, 0xAC, 0x9C]

/-- The blob of vector V-S2. -/
def aaaaBlob : List Byte := [0x01, 0x00, 0x01, 0x41, 0x01, 0, 0, 0, 0, 0, 0, 0, 0x04, 0x04, 0x00]

/-- The state after an outcome satisfies a test. -/
def nextHas (p : State → Bool) : Host.Outcome State Fault Refusal → Bool
  | .next t => p t
  | .fault _ => false
  | .refused _ => false

theorem nextHas_spec {p : State → Bool} {o : Host.Outcome State Fault Refusal}
    (h : nextHas p o = true) : ∃ t, o = .next t ∧ p t = true := by
  cases o with
  | next t => exact ⟨t, rfl, h⟩
  | fault _ => cases h
  | refused _ => cases h

theorem exec_next (i : Instr) (s : State) : ∃ t, exec i s = .next t := by
  rw [exec_eq_conclude]
  rcases conclude_cases s (effect i s) with ⟨u, -, hc⟩ | ⟨e, -, hc⟩ <;> exact ⟨_, hc⟩

/-! ### Well-formedness and decoding (R80 to R84) -/

/-- Check 1 refuses OP 9 with bit 8 set (V-X5). -/
theorem test_zeroField_refused :
    zeroFieldOk 0x00000109 = false ∧ wordWellFormed 0x00000109 = false ∧
      decode 0x00000109 = .error .zeroFieldNotZero := by decide

/-- Check 2 refuses the first reserved OP (V-X4). -/
theorem test_opField_refused :
    opFieldOk 0x0000000B = false ∧ wordWellFormed 0x0000000B = false ∧
      decode 0x0000000B = .error .reservedOp := by decide

theorem test_word_nop : decode 0b00000000000000000000000000000000 = .ok .nop := by decide
theorem test_word_clear : decode 0b00000000000000000000000000000001 = .ok .clear := by decide
theorem test_word_analyze : decode 0b00000000000000000000000000000010 = .ok .analyze := by decide
theorem test_word_build : decode 0b00000000000000000000000000000011 = .ok .build := by decide
theorem test_word_canon : decode 0b00000000000000000000000000000100 = .ok .canon := by decide
theorem test_word_pack : decode 0b00000000000000000000000000000101 = .ok .pack := by decide
theorem test_word_unpack : decode 0b00000000000000000000000000000110 = .ok .unpack := by decide
theorem test_word_serialize : decode 0b00000000000000000000000000000111 = .ok .serialize := by decide
theorem test_word_parse : decode 0b00000000000000000000000000001000 = .ok .parse := by decide
theorem test_word_encode : decode 0b00000000000000000000000000001001 = .ok .encode := by decide
theorem test_word_decode : decode 0b00000000000000000000000000001010 = .ok .decode := by decide

/-- The host's probe reads the word, and the next step runs it. -/
theorem test_withFetchWord :
    decodeTableWord 32 0x9 = some .encode ∧ decodeTableWord 32 0x0B = none ∧
      nextHas (fun t => t.status.word = 0x02 && t.cmd = 0) (step (State.reset.withFetchWord 32 0)) ∧
      nextHas (fun t => t.status.word = 0x86) (step (State.reset.withFetchWord 32 0x0B)) := by
  decide +kernel

/-! ### One step of each command -/

/-- V-X6: NOP clears an error and does not restore OBUF_LEN. -/
theorem test_nop :
    nextHas (fun t => t.status.word = 0x0A && t.obufLen = 0 && t.nsym = 5)
      (exec .nop ((withAbra (bed 64 [])).raise .illegalCommand)) := by decide +kernel

/-- V-X3: CLEAR. -/
theorem test_clear :
    nextHas (fun t => t.status.word = 0x02 && t.nsym = 0 && t.lentab 0x41 = 0 &&
        t.codew 0x52 0 = 0 && t.ibufLen = 11)
      (exec .clear (withAbra (bed 64 abra))) := by decide +kernel

/-- V-A2. -/
theorem test_analyze :
    nextHas (fun t => [0x41, 0x42, 0x43, 0x44, 0x52, 0x5A].map t.freq.get = [5, 2, 1, 1, 2, 0] &&
        t.origlen = 11 && t.status.word = 0x02)
      (exec .analyze (bed 64 abra)) := by decide +kernel

/-- V-A5: the old counts are discarded. -/
theorem test_analyze_discards :
    nextHas (fun t => t.freq.get 0x10 = 1)
      (exec .analyze { bed 64 [0x10] with freq := Table.const 99 }) := by decide +kernel

/-- V-B7: a leaf comes before an internal node of the same weight. -/
theorem test_build_tie :
    nextHas (fun t => [0, 1, 2, 3, 4].map t.lentab = [0x102, 0x102, 0x102, 0x102, 0x000] &&
        t.nsym = 4)
      (exec .build { bed 64 [] with freq := entries 64 [(0, 1), (1, 1), (2, 2), (3, 2)] }) := by
  decide +kernel

/-- V-B5: the weights need more than 64 bits. -/
theorem test_build_wide :
    nextHas (fun t => [0, 1, 2].map t.lentab = [0x102, 0x102, 0x101])
      (exec .build
        { bed 64 [] with freq := entries 64 [(0, 2^64 - 1), (1, 2^64 - 1), (2, 2^64 - 1)] }) := by
  decide +kernel

/-- V-C8: a shorter code comes first, whatever the symbol. -/
theorem test_canon :
    nextHas (fun t => [0, 1, 2, 3, 4, 5].map t.code.get = [30, 31, 14, 6, 2, 0] &&
        t.status.word = 0x0A)
      (exec .canon (withLengths [(0, 5), (1, 5), (2, 4), (3, 3), (4, 2), (5, 1)] (bed 64 []))) := by
  decide +kernel

/-- V-P6. -/
theorem test_pack :
    nextHas (fun t => t.outputBytes = [0x4E, 0xAC, 0x9C] && t.pad = 1 && t.status.word = 0x0A)
      (exec .pack (withAbra (bed 64 abra))) := by decide +kernel

/-- V-P11: a symbol without a code. -/
theorem test_pack_noCode :
    nextHas (fun t => t.status.word = 0x9E && t.obufLen = 0 && t.pad = 0)
      (exec .pack (withAbra (bed 64 [0x41, 0x45]))) := by decide +kernel

/-- V-U1. -/
theorem test_unpack :
    nextHas (fun t => t.outputBytes = abra && t.obufLen = 11 && t.status.word = 0x0A)
      (exec .unpack
        { withAbra (bed 64 [0x4E, 0xAC, 0x9C]) with pad := 1, origlen := 11 }) := by decide +kernel

/-- V-U2: the padding bits are not read. -/
theorem test_unpack_truncated :
    nextHas (fun t => t.status.word = 0x4E && t.obufLen = 0)
      (exec .unpack { withAbra (bed 64 [0x4E, 0xAC]) with pad := 1, origlen := 11 }) := by
  decide +kernel

/-- V-S14. -/
theorem test_serialize :
    nextHas (fun t => t.outputBytes = abraBlob && t.pad = 1 && t.origlen = 11)
      (exec .serialize (withAbra (bed 64 abra))) := by decide +kernel

/-- V-D23, PARSE. -/
theorem test_parse :
    nextHas (fun t => [0x41, 0x42, 0x52, 0x45].map t.lentab = [0x101, 0x103, 0x103, 0] &&
        t.nsym = 5 && t.origlen = 11 && t.pad = 1 && t.payoff = 22 && t.status.word = 0x02)
      (exec .parse (bed 64 abraBlob)) := by decide +kernel

/-- V-D15: one symbol of length 2. -/
theorem test_parse_corrupt :
    nextHas (fun t => t.status.word = 0x36)
      (exec .parse (bed 64 [1, 0, 1, 0x41, 2, 0, 0, 0, 0, 0, 0, 0, 4, 0, 0])) := by decide +kernel

/-- V-S2. -/
theorem test_encode :
    nextHas (fun t => t.outputBytes = aaaaBlob && t.nsym = 1 && t.pad = 4 && t.status.word = 0x0A)
      (exec .encode (bed 64 [0x41, 0x41, 0x41, 0x41])) := by decide +kernel

/-- V-D23, DECODE. -/
theorem test_decode :
    nextHas (fun t => t.outputBytes = abra && t.code.get 0x52 = 7 && t.status.word = 0x0A)
      (exec .decode (bed 64 abraBlob)) := by decide +kernel

/-- V-T2: the padding is tested before the payload is read. -/
theorem test_decode_padding :
    nextHas (fun t => t.status.word = 0x56) (exec .decode (bed 64 aaaaBlob.dropLast)) := by
  decide +kernel

/-! ### Witnesses: states and operands that meet the hypotheses of each statement

`witness_<Name>` is about `Obligations.<Name>`; a statement that is absent here has no hypothesis. -/

theorem witness_IllegalWordRaisesIllegalCommand :
    (0x0000000A : Word32) ≤ 0x0000000A ∧ State.reset.status.busy = false ∧
      (0x0000000A : Word32) < 0x0000000B ∧ (0x0000000A : Word32) < 0xFFFFFFFF := by decide

theorem witness_StepRunsTheDecodedCommand :
    State.reset.status.busy = false ∧ decode ((0x1_00000009 : Word64).setWidth 32) = .ok .encode ∧
      decode ((0x109 : Word64).setWidth 32) = .error .zeroFieldNotZero := by decide

theorem witness_StartAndEndAreTheAtomicWrite :
    State.reset.status.busy = false ∧ decode 0x00000003 = .ok .build ∧ State.reset.pending = [] := by
  decide

/-- Each index range of R34 at its first and last index; no index stands in two of them. -/
theorem witness_HostRegisterReads :
    State.reset.status.busy = false ∧ ReservedIndex 0x0009 ∧ ReservedIndex 0x00FF ∧
      ReservedIndex 0x0300 ∧ ReservedIndex 0x03FF ∧ ReservedIndex 0x0800 ∧ ReservedIndex 0xFFFF ∧
      0x0100 + (255 : Symbol).toNat = 0x01FF ∧ 0x0200 + (0 : Symbol).toNat = 0x0200 ∧
      0x0200 + (255 : Symbol).toNat = 0x02FF ∧ 0x0400 + 4 * (0 : Symbol).toNat + 0 = 0x0400 ∧
      0x0400 + 4 * (255 : Symbol).toNat + (3 : Fin 4).val = 0x07FF ∧ ¬ ReservedIndex 0x0008 ∧
      ¬ ReservedIndex 0x0100 ∧ ¬ ReservedIndex 0x02FF ∧ ¬ ReservedIndex 0x0400 ∧
      ¬ ReservedIndex 0x07FF := by
  refine ⟨rfl, ?_⟩
  simp [ReservedIndex]

theorem witness_HostRegisterWrites :
    State.reset.status.busy = false ∧ ReservedIndex 0x0009 ∧ ReservedIndex 0xFFFF :=
  ⟨rfl, .inl ⟨Nat.le_refl _, by decide⟩, .inr (.inr ⟨by decide, by decide⟩)⟩

/-- The last address of IBUF and the first that there is not. -/
theorem witness_HostIbufAccess :
    (bed 8 abra).status.busy = false ∧ (bed 8 abra).ibuf.wf ∧ 7 < (bed 8 abra).cfg.ibufCap ∧
      (bed 8 abra).cfg.ibufCap ≤ 8 := ⟨rfl, Memory.ofBytes_wf _, by decide, by decide⟩

theorem witness_HostObufAccess :
    (bed 8 []).status.busy = false ∧ 7 < (bed 8 []).cfg.obufCap ∧ (bed 8 []).cfg.obufCap ≤ 8 := by
  decide

theorem witness_HandsOffWhileBusy :
    (State.reset.accept 9).status.busy = true ∧ (0x0000 : BitVec 16) ≠ 0x0001 ∧
      (0x0002 : BitVec 16) ≠ 0x0001 := by decide

/-- After reset INV1 to INV6 hold with no symbol present, and CMD can be written. -/
theorem witness_InvariantKeptByEveryStep :
    ∃ s t : State, Inv s ∧ step s = .next t ∧ t ≠ s := by
  have hp : presentCount (Table.const false) = 0 := by decide +kernel
  have hget : ∀ {α : Type} (v : α) x, (Table.const v).get x = v := by simp
  refine ⟨{ State.reset with pending := [.regWrite 0 0] }, _, ⟨⟨hp.symm, fun x _ => ?_, ?_, ?_, ?_, ?_⟩,
    ⟨Memory.wf_nil, Memory.wf_nil, ?_, ?_, ?_, ?_⟩, ?_⟩, rfl, ?_⟩
  · exact ⟨hget _ x, hget _ x⟩
  · exact fun h => absurd h (by decide)
  · exact fun h => absurd h (by decide)
  · exact ⟨fun h => absurd h (by decide), fun _ x => hget _ x⟩
  · exact fun h => absurd h (by decide)
  · exact fun c hc => nomatch hc
  · exact fun c hc => nomatch hc
  · decide
  · exact fun a ha => absurd ha (Nat.not_lt_zero a)
  · exact ⟨by decide, by decide, by decide, fun h => absurd h (by decide)⟩
  · exact fun h => absurd (congrArg (fun s => s.status.done) h) (by decide)

/-- A failing command: NotReady after reset. -/
theorem witness_FailedCommandChangesNothingElse :
    ∃ t, exec .pack State.reset = .next t ∧ t.status.err = true := ⟨_, rfl, rfl⟩

theorem witness_ErrorStaysAndDoesNotBlock :
    State.reset.status.busy = false ∧
      ∃ t, step { State.reset with pending := [.regWrite 0 0] } = .next t ∧
        t.status ≠ State.reset.status := ⟨rfl, _, rfl, by decide⟩

theorem witness_CommandFrames :
    ∃ t, exec .nop State.reset = .next t ∧ t.status.err = false ∧
      Instr.nop ∉ [Instr.clear, .analyze, .build, .canon, .pack, .unpack, .serialize, .parse, .encode,
        .decode] := ⟨_, rfl, rfl, by decide⟩

theorem witness_StaleCodebookIsNotUsed :
    (∃ t, exec .build State.reset = .next t ∧ t.status.err = false) ∧
      (∃ t, exec .parse (bed 64 abraBlob) = .next t ∧ t.status.err = false) ∧
      State.reset.status.cv = false := by
  refine ⟨⟨_, rfl, rfl⟩, ?_, rfl⟩
  obtain ⟨t, h, hp⟩ := nextHas_spec (p := fun t => t.status.err == false)
    (o := exec .parse (bed 64 abraBlob)) (by decide +kernel)
  exact ⟨t, h, by simpa using hp⟩

/-- IBUF_LEN just above and just at the capacity. -/
theorem witness_AnalyzeResult :
    (bed 10 abra).cfg.ibufCap < (bed 10 abra).ibufLen ∧
      (bed 11 abra).ibufLen ≤ (bed 11 abra).cfg.ibufCap := by decide

theorem witness_AnalyzeTotals :
    (bed 64 [1, 2]).input.Perm (bed 64 [2, 1]).input ∧
      (∃ t, exec .analyze (bed 64 [1, 2]) = .next t ∧ t.status.err = false) ∧
      ∃ t, exec .analyze (bed 64 [2, 1]) = .next t ∧ t.status.err = false :=
  ⟨by decide, ⟨_, rfl, rfl⟩, ⟨_, rfl, rfl⟩⟩

/-- Two leaves of the same weight. -/
def twoLeaves : Tree :=
  [{ slot := 1, w := 3, alive := true, par := none }, { slot := 7, w := 3, alive := true, par := none }]

theorem witness_MergeTakesTheTwoLightest :
    (twoLeaves.map (·.slot)).Nodup ∧ (∀ x ∈ twoLeaves, x.slot < 256 + 0) ∧
      2 ≤ twoLeaves.aliveNodes.length := by decide

theorem witness_TreeHasOneRoot :
    (countedSymbols (entries 64 [(7, 3)])).length = 1 ∧
      (countedSymbols (entries 64 [(0, 1), (255, 2^64 - 1)])).length = 2 := by decide +kernel

theorem witness_LengthsAreACompleteCode :
    (countedSymbols (entries 64 [(7, 3)])).length = 1 ∧
      (lengths (entries 64 [(7, 3)])).1.get 7 = true ∧
      2 ≤ (countedSymbols (entries 64 [(0, 1), (255, 2^64 - 1)])).length ∧
      (lengths (entries 64 [(0, 1), (255, 2^64 - 1)])).1.get 255 = true := by decide +kernel

theorem witness_CodeLengthIsTheDepth :
    2 ≤ (countedSymbols (entries 64 [(0, 1), (255, 2^64 - 1)])).length ∧
      (entries 64 [(0, 1), (255, 2^64 - 1)]).get 255 ≠ 0 := by decide +kernel

/-- V-B1 and V-B2. -/
theorem witness_BuildWithNoneOrOneSymbol :
    (∀ x, State.reset.freq.get x = 0) ∧ (∃ t, exec .build State.reset = .next t) ∧
      (∀ x, (entries 64 [(7, 3)]).get x ≠ 0 ↔ x = 7) ∧
      ∃ t, exec .build { State.reset with freq := entries 64 [(7, 3)] } = .next t := by
  refine ⟨fun x => by simp [State.reset, State.resetWith], ⟨_, rfl⟩, ?_, ⟨_, rfl⟩⟩
  simp only [entries_get]
  decide +kernel

/-- The tables of V-C7 are legal. -/
theorem abra_legal :
    LegalTable (withLengths abraLengths State.reset).pres
      (withLengths abraLengths State.reset).len where
  absent := by
    simp only [withLengths_pres, withLengths_len]
    decide +kernel
  positive := fun _ => by
    simp only [withLengths_pres, withLengths_len]
    decide +kernel
  complete := fun _ => by decide +kernel
  single := by
    rw [show presentCount (withLengths abraLengths State.reset).pres = 5 by decide +kernel]
    exact fun h => absurd h (by decide)

/-- The lengths of V-C7, and none: Kraft sums 1 and 0. -/
theorem witness_CanonAssignsInOrder :
    (let s := withLengths abraLengths State.reset
     kraftSum s.pres s.len ≤ 2 ^ 255 ∧ s.pres.get 0x45 = false) ∧
      kraftSum (Table.const false) (Table.const 0) ≤ 2 ^ 255 := by decide +kernel

theorem witness_CanonIsAPrefixCode :
    let s := withLengths abraLengths State.reset
    kraftSum s.pres s.len ≤ 2 ^ 255 ∧ s.pres.get 0x41 = true ∧ s.pres.get 0x52 = true := by
  decide +kernel

theorem witness_CompleteCodeAlwaysMatches :
    let s := withLengths abraLengths State.reset
    kraftSum s.pres s.len = 2 ^ 255 ∧ (∀ x, s.pres.get x = true → 1 ≤ (s.len.get x).toNat) ∧
      255 ≤ (List.replicate 255 true).length := by
  dsimp only
  exact ⟨abra_legal.complete (by decide +kernel), abra_legal.positive (by decide +kernel),
    by rw [List.length_replicate]⟩

theorem witness_OneSymbolCode :
    ∀ x, (withLengths [(0x41, 1)] State.reset).pres.get x = true ↔ x = 0x41 := by
  simp only [withLengths_pres]
  decide +kernel

/-- NotReady; BadArgument; "AB" with a symbol that has no code and with room for no byte; and success. -/
theorem witness_PackResult :
    State.reset.status.cv = false ∧
      ((withAbra (bed 1 abra)).status.cv = true ∧
        (withAbra (bed 1 abra)).cfg.ibufCap < (withAbra (bed 1 abra)).ibufLen) ∧
      (let s := withAbra (bed 64 [0x41, 0x45])
       s.ibufLen ≤ s.cfg.ibufCap ∧ s.input = [0x41] ++ 0x45 :: [] ∧
         (∀ y ∈ ([0x41] : List Byte), s.pres.get y = true) ∧
         codeBitCount s.len [0x41] / 8 ≤ s.cfg.obufCap.toNat ∧ s.pres.get 0x45 = false) ∧
      (let s := withAbra
        { bed 64 [0x42, 0x42, 0x42] with
          cfg := { formatVersion := 1, ibufCap := 64, obufCap := 0 } }
       s.ibufLen ≤ s.cfg.ibufCap ∧ s.input = [0x42, 0x42] ++ 0x42 :: [] ∧
         (∀ y ∈ ([0x42, 0x42] : List Byte), s.pres.get y = true) ∧
         codeBitCount s.len [0x42, 0x42] / 8 ≤ s.cfg.obufCap.toNat ∧ s.pres.get 0x42 = true ∧
         s.cfg.obufCap.toNat < codeBitCount s.len [0x42, 0x42, 0x42] / 8) ∧
      (let s := withAbra
        { bed 64 [0x42] with cfg := { formatVersion := 1, ibufCap := 64, obufCap := 0 } }
       (∀ y ∈ s.input, s.pres.get y = true) ∧
         codeBitCount s.len s.input / 8 ≤ s.cfg.obufCap.toNat ∧
         s.cfg.obufCap.toNat < (packbits s.len s.code s.input).1.length) ∧
      (let s := withAbra (bed 11 abra)
       s.ibufLen ≤ s.cfg.ibufCap ∧ (∀ y ∈ s.input, s.pres.get y = true) ∧
         (packbits s.len s.code s.input).1.length ≤ s.cfg.obufCap.toNat) := by
  decide +kernel

/-- NotReady; both forms of BadArgument; an unpacker's error; and success. -/
theorem witness_UnpackResult :
    State.reset.status.cv = false ∧
      ((withAbra (bed 1 abra)).status.cv = true ∧
        (withAbra (bed 1 abra)).cfg.ibufCap < (withAbra (bed 1 abra)).ibufLen) ∧
      (let s := { withAbra (bed 64 [0x1A, 0xF0]) with payoff := 3 }
       s.status.cv = true ∧ s.ibufLen < s.payoff) ∧
      (let s := { withAbra (bed 64 [0x4E, 0xAC]) with pad := 1, origlen := 11 }
       s.ibufLen ≤ s.cfg.ibufCap ∧ s.payoff ≤ s.ibufLen ∧
         unpackbits s.cfg.obufCap.toNat (s.input.drop s.payoff.toNat) s.pres s.len s.code
           s.nsym.toNat s.pad.toNat s.origlen.toNat = .error .truncatedPayload) ∧
      (let s := { withAbra (bed 64 [0xFF, 0x4E, 0xAC, 0x9C]) with pad := 1, origlen := 11, payoff := 1 }
       s.ibufLen ≤ s.cfg.ibufCap ∧ s.payoff ≤ s.ibufLen ∧
         unpackbits s.cfg.obufCap.toNat (s.input.drop s.payoff.toNat) s.pres s.len s.code
           s.nsym.toNat s.pad.toNat s.origlen.toNat = .ok abra) := by
  decide +kernel

/-- The output just fits; it does not and the first symbol too many is there; or is not. -/
theorem witness_UnpackCapacity :
    let s := withAbra State.reset
    let p := fun cap count => unpackbits cap [0x4E, 0xAC] s.pres s.len s.code 5 0 count
    11 ≤ 11 ∧ 7 < 8 ∧ p 8 8 = .ok (abra.take 8) ∧ 8 < 11 ∧ p 9 9 = .error .truncatedPayload := by
  decide +kernel

theorem witness_UnpackFirstTests :
    (0 = 0 ∧ 0 < 1) ∧ (¬ (5 = 0 ∧ 0 < 1) ∧ 7 < 8) ∧ (([] : List Byte) = [] ∧ 0 < 4) ∧
      (7 ≤ 7 ∧ ([0] : List Byte) ≠ []) ∧ (0 = 0 ∧ 0 ≤ 7) := by decide

theorem witness_UnpackOneSymbol :
    (∀ x, (withLengths [(0x41, 1)] State.reset).pres.get x = true ↔ x = 0x41) ∧ 4 ≤ 7 ∧
      ([0xF0] : List Byte) ≠ [] ∧ 4 ≤ 4 ∧
      4 * ((withLengths [(0x41, 1)] State.reset).len.get 0x41).toNat ≤ 8 * 1 - 4 ∧
      ¬ 5 * ((withLengths [(0x41, 1)] State.reset).len.get 0x41).toNat ≤ 8 * 1 - 4 :=
  ⟨witness_OneSymbolCode, by decide +kernel⟩

theorem witness_UnpackReadsTheCodes :
    let s := withLengths abraLengths State.reset
    LegalTable s.pres s.len ∧ 2 ≤ presentCount s.pres ∧ 1 ≤ 7 ∧ ([0x4E, 0xAC, 0x9C] : List Byte) ≠ [] ∧
      11 ≤ 11 := ⟨abra_legal, by decide +kernel, by decide, by decide, by decide⟩

theorem witness_UnpackInvertsPack :
    let s := withLengths abraLengths State.reset
    LegalTable s.pres s.len ∧ (∀ x ∈ abra, s.pres.get x = true) ∧ abra.length ≤ 11 :=
  ⟨abra_legal, by decide +kernel, by decide⟩

theorem witness_BlobLayout : 2 ^ 64 - 1 < 2 ^ 64 ∧ 7 ≤ 7 := by decide

/-- NotReady; BadArgument; NoCode; NoSpace by one byte; and success with no byte to spare. -/
theorem witness_SerializeResult :
    State.reset.status.cv = false ∧
      ((withAbra (bed 10 abra)).status.cv = true ∧
        (withAbra (bed 10 abra)).cfg.ibufCap < (withAbra (bed 10 abra)).ibufLen) ∧
      (let s := withAbra (bed 64 [0x41, 0x5A])
       s.ibufLen ≤ s.cfg.ibufCap ∧ ∃ x ∈ s.input, s.pres.get x = false) ∧
      (∀ cap ∈ [24, 25],
        let s := withAbra (bed cap abra)
        let r := packbits s.len s.code s.input
        let out := blob s.cfg.formatVersion s.pres s.len s.nsym.toNat s.ibufLen.toNat r.2 r.1
        s.ibufLen ≤ s.cfg.ibufCap ∧ (∀ x ∈ s.input, s.pres.get x = true) ∧
          (if cap = 24 then s.cfg.obufCap.toNat < out.length
            else out.length ≤ s.cfg.obufCap.toNat)) := by
  decide +kernel

theorem witness_ParseResult :
    (bed 24 abraBlob).cfg.ibufCap < (bed 24 abraBlob).ibufLen ∧
      (bed 25 abraBlob).ibufLen ≤ (bed 25 abraBlob).cfg.ibufCap ∧
      parse 1 (bed 64 [2]).input = .error .unsupportedFormatVersion ∧
      ((parse 1 (bed 64 abraBlob).input).toOption.map (·.payoff)) = some 22 := by decide +kernel

/-- One entry of length 1, twice the same entry, one of length 2; and the fields after the table: too
short, a length without symbols, a padding of 8 and a padding without payload. -/
theorem witness_ParseErrors :
    (0 : Byte) ≠ 1 ∧ 256 < 256 * (1 : Byte).toNat + (1 : Byte).toNat ∧
      256 * (1 : Byte).toNat + (0 : Byte).toNat ≤ 256 ∧ ([] : List Byte).length < 2 * 256 ∧
      ¬ (([(0x41, 1), (0x41, 1)] : List (Symbol × Byte)).map (·.1)).Nodup ∧
      (let s := withLengths [(0x41, 1)] State.reset
       LegalTable s.pres s.len ∧ (∀ x, s.pres.get x = true ↔ x ∈ [(0x41 : Symbol)]) ∧
         ∀ x, s.len.get x = (([(0x41, 1)] : List (Symbol × Byte)).lookup x).getD 0) ∧
      (let s := withLengths [(0x41, 2)] State.reset
       ¬ LegalTable s.pres s.len) ∧
      (List.replicate 8 (0 : Byte)).length < 9 ∧
      bigEndian (([0, 0, 0, 0, 0, 0, 0, 1, 0] : List Byte).take 8) ≠ 0 ∧
      7 < (([0, 0, 0, 0, 0, 0, 0, 1, 8] : List Byte).getD 8 0).toNat ∧
      (([0, 0, 0, 0, 0, 0, 0, 1, 1] : List Byte).length = 9 ∧
        0 < (([0, 0, 0, 0, 0, 0, 0, 1, 1] : List Byte).getD 8 0).toNat) := by
  have hp : presentCount (withLengths [(0x41, 1)] State.reset).pres = 1 := by decide +kernel
  have hp₂ : presentCount (withLengths [(0x41, 2)] State.reset).pres = 1 := by decide +kernel
  refine ⟨by decide, by decide, by decide, by decide, by decide, ⟨⟨?_, ?_, ?_, ?_⟩, ?_, ?_⟩,
    fun h => ?_, by decide, by decide, by decide, by decide⟩
  · simp only [withLengths_pres, withLengths_len]
    decide +kernel
  · rw [hp]; exact fun h => absurd h (by decide)
  · rw [hp]; exact fun h => absurd h (by decide)
  · simp only [withLengths_pres, withLengths_len]
    exact fun _ => by decide +kernel
  · simp only [withLengths_pres]
    decide +kernel
  · simp only [withLengths_len]
    decide +kernel
  · exact absurd (h.single hp₂ 0x41 (by decide +kernel)) (by decide +kernel)

theorem witness_OtherVersionsAreRefused :
    (bed 64 [2]).ibufLen ≤ (bed 64 [2]).cfg.ibufCap ∧ (bed 64 [2]).input = 2 :: [] ∧
      (2 : Byte) ≠ (bed 64 [2]).cfg.formatVersion ∧
      ∃ t, exec .serialize (withAbra (bed 64 abra)) = .next t ∧ t.status.err = false := by
  refine ⟨by decide, by decide, by decide, ?_⟩
  obtain ⟨t, h, hp⟩ := nextHas_spec (p := fun t => t.status.err == false)
    (o := exec .serialize (withAbra (bed 64 abra))) (by decide +kernel)
  exact ⟨t, h, by simpa using hp⟩

/-- Rows 19 and 20 of R226, and its duplicate symbol. -/
theorem witness_TableOrderDoesNotMatter :
    let after : List Byte := [0, 0, 0, 0, 0, 0, 0, 4, 4, 0x50]
    let e : List (Symbol × Byte) := [(0x41, 1), (0x42, 1)]
    let e' : List (Symbol × Byte) := [(0x42, 1), (0x41, 1)]
    e.length ≤ 256 ∧ e.Perm e' ∧
      ¬ (([(0x41, 1), (0x41, 1)] : List (Symbol × Byte)).map (·.1)).Nodup ∧
      (bed 64 (blobOfEntries 1 e after)).input = blobOfEntries 1 e after ∧
      (bed 64 (blobOfEntries 1 e' after)).input = blobOfEntries 1 e' after ∧
      (∃ t, exec .decode (bed 64 (blobOfEntries 1 e after)) = .next t) ∧
      ∃ t, exec .decode (bed 64 (blobOfEntries 1 e' after)) = .next t := by
  refine ⟨by decide, by decide, by decide, by decide +kernel, by decide +kernel, ?_, ?_⟩ <;>
    exact exec_next _ _

theorem witness_ParseInvertsBlob :
    let s := withLengths abraLengths State.reset
    LegalTable s.pres s.len ∧ 11 < 2 ^ 64 ∧ 1 ≤ 7 ∧ ([0x4E, 0xAC, 0x9C] : List Byte) ≠ [] ∧
      presentCount s.pres ≠ 0 := ⟨abra_legal, by decide, by decide, by decide, by decide +kernel⟩

/-- BadArgument; NoSpace by one byte; and success with no byte to spare. -/
theorem witness_EncodeResult :
    (bed 3 [0x41, 0x41, 0x41, 0x41]).cfg.ibufCap < (bed 3 [0x41, 0x41, 0x41, 0x41]).ibufLen ∧
      (bed 14 [0x41, 0x41, 0x41, 0x41]).ibufLen ≤ (bed 14 [0x41, 0x41, 0x41, 0x41]).cfg.ibufCap ∧
      (bed 14 []).cfg.obufCap.toNat < (encodeBlob 1 [0x41, 0x41, 0x41, 0x41]).length ∧
      (encodeBlob 1 [0x41, 0x41, 0x41, 0x41]).length ≤ (bed 15 []).cfg.obufCap.toNat := by
  decide +kernel

/-- ENCODE and DECODE that succeed (V-S2). -/
theorem aaaa_encodes :
    ∃ t, exec .encode (bed 64 [0x41, 0x41, 0x41, 0x41]) = .next t ∧ t.status.err = false ∧
      t.outputBytes = aaaaBlob := by
  obtain ⟨t, h, hp⟩ := nextHas_spec (p := fun t => t.status.err == false && t.outputBytes == aaaaBlob)
    (o := exec .encode (bed 64 [0x41, 0x41, 0x41, 0x41])) (by decide +kernel)
  exact ⟨t, h, by simpa using hp⟩

/-- ENCODE and DECODE, issued, succeed. -/
theorem witness_EncodeResult_and_DecodeResult_sequences :
    (∃ t, issue .encode (bed 64 [0x41]) = .next t ∧ t.status.err = false) ∧
      ∃ t, issue .decode (bed 64 aaaaBlob) = .next t ∧ t.status.err = false := by
  constructor
  · obtain ⟨t, h, hp⟩ := nextHas_spec (p := fun t => t.status.err == false)
      (o := issue .encode (bed 64 [0x41])) (by decide +kernel)
    exact ⟨t, h, by simpa using hp⟩
  · obtain ⟨t, h, hp⟩ := nextHas_spec (p := fun t => t.status.err == false)
      (o := issue .decode (bed 64 aaaaBlob)) (by decide +kernel)
    exact ⟨t, h, by simpa using hp⟩

/-- The same input with and without tables in place. -/
theorem witness_CompositesDependOnInputAlone :
    let s := bed 64 [0x41, 0x41, 0x41, 0x41]
    let s' := withAbra s
    s.cfg = s'.cfg ∧ s.ibufLen = s'.ibufLen ∧ s.input = s'.input ∧
      (∃ t, exec .encode s = .next t ∧ t.status.err = false) ∧ (∃ t, exec .encode s' = .next t) ∧
      (∃ t, exec .decode s = .next t) ∧ ∃ t, exec .decode s' = .next t := by
  obtain ⟨t, h, he, -⟩ := aaaa_encodes
  exact ⟨rfl, rfl, rfl, ⟨t, h, he⟩, exec_next _ _, exec_next _ _, exec_next _ _⟩

theorem witness_EncodeOfNoneOrOneSymbol : 1 ≤ 1 ∧ 1 < 2 ^ 64 ∧ 2 ^ 64 - 1 < 2 ^ 64 := by decide

/-- BadArgument; `parse`'s error; the unpacker's error (V-T4); and success. -/
theorem witness_DecodeResult :
    (bed 14 aaaaBlob).cfg.ibufCap < (bed 14 aaaaBlob).ibufLen ∧
      (bed 15 aaaaBlob).ibufLen ≤ (bed 15 aaaaBlob).cfg.ibufCap ∧
      parse 1 (bed 64 []).input = .error .corruptHeader ∧
      nextHas (fun t => t.status.errcode = 4)
        (exec .decode (bed 64 [1, 0, 1, 0x41, 1, 0, 0, 0, 0, 0, 0, 0, 8, 0])) ∧
      nextHas (fun t => t.status.err = false) (exec .decode (bed 64 aaaaBlob)) := by decide +kernel

theorem witness_DecodeInvertsEncode :
    ∃ s t s' : State, exec .encode s = .next t ∧ t.status.err = false ∧
      s'.cfg.formatVersion = s.cfg.formatVersion ∧ s'.input = t.outputBytes ∧
      s'.ibufLen ≤ s'.cfg.ibufCap ∧ s.ibufLen ≤ s'.cfg.obufCap := by
  obtain ⟨t, h, he, ho⟩ := aaaa_encodes
  exact ⟨_, t, bed 15 aaaaBlob, h, he, rfl, by rw [ho]; decide +kernel, by decide, by decide⟩

/-- R37 holds of the tables of V-C7 with their codebook. -/
theorem abra_tableInv (data : List Byte) : TableInv (withAbra (bed 64 data)) := by
  have hp : (withAbra (bed 64 data)).pres = (withLengths abraLengths State.reset).pres := rfl
  have hl : (withAbra (bed 64 data)).len = (withLengths abraLengths State.reset).len := rfl
  have hc : (withAbra (bed 64 data)).code = entries 255 abraCodes := rfl
  have hn : (withAbra (bed 64 data)).nsym.toNat = 5 := rfl
  have hv : (withAbra (bed 64 data)).status.cv = true := rfl
  constructor
  case inv1 => rw [hn, hp]; decide +kernel
  case inv2 =>
    rw [hp, hl, hc]
    refine fun x hx => ⟨abra_legal.absent x hx, ?_⟩
    revert x
    simp only [withLengths_pres, entries_get]
    decide +kernel
  case inv3 =>
    rw [hp, hl]
    exact fun _ => ⟨fun x hx => ⟨abra_legal.positive (by decide +kernel) x hx,
      Nat.le_of_lt_succ (BitVec.isLt _)⟩, abra_legal.complete (by decide +kernel)⟩
  case inv4 => rw [hn]; exact fun h => absurd h (by decide)
  case inv5 =>
    rw [hp, hl, hc, hv]
    exact ⟨fun _ => by decide +kernel, fun h => nomatch h⟩
  case inv6 =>
    rw [hp, hl, hc]
    have h : ∀ x ∈ presentSymbols (withLengths abraLengths State.reset).pres,
        ∀ y ∈ presentSymbols (withLengths abraLengths State.reset).pres, x ≠ y →
          ¬ codeBits (withLengths abraLengths State.reset).len (entries 255 abraCodes) x <+:
            codeBits (withLengths abraLengths State.reset).len (entries 255 abraCodes) y := by
      decide +kernel
    exact fun _ x y hx hy => h x (mem_presentSymbols.mpr hx) y (mem_presentSymbols.mpr hy)

/-- The tables of V-C7 before CANON: CV is 0 and CODE is clear. -/
def abraWithoutCodes : State :=
  let s := withAbra (bed 64 abra)
  { s with code := Table.const 0, status := { s.status with cv := false } }

/-- R37 holds of V-C7's tables with their codebook and without. -/
theorem witness_StaleCodebookIsNotUsed_invariant :
    TableInv (withAbra (bed 64 abra)) ∧ (withAbra (bed 64 abra)).status.cv = true ∧
      TableInv abraWithoutCodes ∧ abraWithoutCodes.status.cv = false := by
  have h := abra_tableInv abra
  exact ⟨h, rfl, ⟨h.inv1, fun x hx => ⟨(h.inv2 x hx).1, Table.get_const _ _⟩, h.inv3, h.inv4,
    ⟨nofun, fun _ x => Table.get_const _ _⟩, nofun⟩, rfl⟩

theorem witness_DecodeInvertsSerialize :
    ∃ s t s' : State, TableInv s ∧ exec .serialize s = .next t ∧ t.status.err = false ∧
      s'.cfg.formatVersion = s.cfg.formatVersion ∧ s'.input = t.outputBytes ∧
      s'.ibufLen ≤ s'.cfg.ibufCap ∧ s.ibufLen ≤ s'.cfg.obufCap := by
  obtain ⟨t, h, hp⟩ := nextHas_spec (p := fun t => t.status.err == false && t.outputBytes == abraBlob)
    (o := exec .serialize (withAbra (bed 64 abra))) (by decide +kernel)
  have hp : t.status.err = false ∧ t.outputBytes = abraBlob := by simpa using hp
  exact ⟨_, t, bed 25 abraBlob, abra_tableInv abra, h, hp.1, rfl, by rw [hp.2]; decide +kernel,
    by decide, by decide⟩

/-- 9, 8 and 4 equal bytes (V-T6, V-T4, V-T2), and none (V-T3): the payload has two bytes, one without
padding, one with padding, none. -/
theorem witness_TruncatedBlob :
    (∀ c ∈ [(9, 2, 7), (8, 1, 0), (4, 1, 4), (0, 0, 0)],
      nextHas (fun t => t.status.err = false &&
          t.obufLen.toNat - (12 + 2 * t.nsym.toNat) = c.2.1 && t.pad.toNat = c.2.2)
        (exec .encode (bed 64 (List.replicate c.1 0x41)))) ∧
      (bed 14 aaaaBlob.dropLast).input = aaaaBlob.dropLast ∧
      (bed 14 aaaaBlob.dropLast).ibufLen ≤ (bed 14 aaaaBlob.dropLast).cfg.ibufCap ∧
      (bed 64 [0x41, 0x41, 0x41, 0x41]).ibufLen ≤ (bed 14 aaaaBlob.dropLast).cfg.obufCap := by
  decide +kernel

end Sys2Proof.Tests
end

/-! ### The tables of the commands are legal (R37 INV2 to INV6, R130, R146, R215) -/

namespace Sys2Proof.Machine

/-! #### What BUILD and ENCODE compute -/

/-- "`L[s] = 0` when `P[s] = 0`" (R126). -/
theorem lengths_len_absent {f : Table Word64} {x : Symbol} (h : f.get x = 0) :
    (lengths f).2.get x = 0 := by
  have hx : x ∉ countedSymbols f := fun hm => mem_countedSymbols.mp hm h
  rw [lengths]
  split
  · exact Table.get_const 0 x
  · next x₀ he =>
    rw [he, List.mem_singleton] at hx
    rw [Table.get_tabulate, if_neg hx]
  · rw [Table.get_tabulate, if_pos h]

/-- One symbol alone has length 1 (R129). -/
theorem lengths_len_single {f : Table Word64} {x : Symbol} (h : countedSymbols f = [x]) :
    (lengths f).2.get x = 1 := by
  rw [lengths]
  simp [h]

/-- The code lengths of two or more symbols are complete, as the depths of the leaves are (R130). -/
theorem lengths_kraft {f : Table Word64} (h : 2 ≤ (countedSymbols f).length) :
    kraftSum (lengths f).1 (lengths f).2 = 2 ^ 255 := by
  obtain ⟨hok, hroot⟩ := treeOf_ok f (by intro he; simp [he] at h)
  have hle : (countedSymbols f).length ≤ 256 := f.symbolsWhere_length_le _
  rw [kraftSum, lengths_presentSymbols,
    ← kraft_tree hok (leaves_nodup f) (leaves_lt f) (by omega) (by omega) hroot, List.map_map]
  congr 1
  refine List.map_congr_left fun x hx => ?_
  rw [lengths_len h (mem_countedSymbols.mp hx), Function.comp]

/-- INV2 to INV4 of the code lengths that the tree builder computes (R130). -/
theorem lengths_legal (f : Table Word64) : LegalTable (lengths f).1 (lengths f).2 where
  absent x hx := lengths_len_absent (by simpa [hx] using lengths_pres f x)
  positive h x hx := by
    rw [lengths_presentCount] at h
    have hf := (lengths_pres f x).mp hx
    rw [lengths_len h hf]
    exact (depth_range h hf).1
  complete h := lengths_kraft (by rwa [lengths_presentCount] at h)
  single h x hx := by
    rw [lengths_presentCount] at h
    obtain ⟨x₀, he⟩ := List.length_eq_one_iff.mp h
    have hm := mem_countedSymbols.mpr ((lengths_pres f x).mp hx)
    rw [he, List.mem_singleton] at hm
    rw [hm, lengths_len_single he]
    decide

/-! #### No canonical code begins another -/

/-- Where the code of x begins the code of y, the interval of y starts within that of x (R146). -/
theorem start_within_of_codeBits_isPrefix {pres : Table Bool} {len : Table Byte} {x y : Symbol}
    (hk : kraftSum pres len ≤ 2 ^ 255) (hx : pres.get x = true) (hy : pres.get y = true)
    (h : codeBits len (canon pres len) x <+: codeBits len (canon pres len) y) :
    startOf pres len x ≤ startOf pres len y ∧
      startOf pres len y < startOf pres len x + widthOf len x := by
  obtain ⟨q, hq⟩ := h
  have hlen : (len.get x).toNat + q.length = (len.get y).toNat := by
    rw [← codeBits_length len (canon pres len) x, ← List.length_append, hq, codeBits_length]
  have hw : widthOf len x = 2 ^ q.length * widthOf len y := by
    have := len_le_255 len y
    rw [widthOf, widthOf, ← Nat.pow_add]
    congr 1
    omega
  have hpos : 0 < widthOf len y := Nat.two_pow_pos _
  have hlt := Nat.mul_lt_mul_of_pos_right (valOf_lt q) hpos
  rw [← code_interval hx hk, ← code_interval hy hk, ← hq, valOf_append, hw, Nat.add_mul,
    Nat.mul_assoc]
  omega

/-- INV6: with a Kraft sum of at most 1 no canonical code begins another (R146 c). -/
theorem canon_prefixFree {pres : Table Bool} {len : Table Byte} (hk : kraftSum pres len ≤ 2 ^ 255) :
    PrefixFree pres len (canon pres len) := by
  intro x y hx hy hne hpre
  obtain ⟨hle, hlt⟩ := start_within_of_codeBits_isPrefix hk hx hy hpre
  rcases canonLt_total len hne with h | h
  · have := startOf_of_canonLt hx hy h
    omega
  · have := startOf_of_canonLt hy hx h
    have hpos : 0 < widthOf len y := Nat.two_pow_pos _
    omega

/-! #### What PARSE and DECODE load -/

/-- A parsed blob: its table of c entries, read from offset 3, passed the test of rule R215. -/
theorem parse_ok {v : Byte} {b : List Byte} {r : Parsed} (h : parse v b = .ok r) :
    r.nsym ≤ 256 ∧ 3 + 2 * r.nsym ≤ b.length ∧
      readTable b r.nsym 3 (Table.const false) (Table.const 0) = .ok (r.pres, r.len) ∧
      legalLengths r.nsym r.pres r.len = true ∧
      parseFixed b r.nsym r.pres r.len = .ok r := by
  rw [parse] at h
  split_ifs at h with h1 hv h3
  dsimp only at h
  split_ifs at h with hc hl
  split at h
  · cases h
  · next p l ht =>
    split_ifs at h with hleg
    obtain ⟨rfl, rfl, hn⟩ : r.pres = p ∧ r.len = l ∧ r.nsym = memRead b 1 2 := by
      rw [parseFixed] at h
      split_ifs at h
      dsimp only at h
      split_ifs at h
      cases h
      exact ⟨rfl, rfl, rfl⟩
    rw [hn]
    exact ⟨by omega, by omega, ht, hleg, h⟩

/-- A table that is read whole from empty shadow tables has an entry for each of its symbols, and no
length for another symbol (R212). -/
theorem readTable_ok {b : List Byte} {c : Nat} {p : Table Bool} {l : Table Byte}
    (hb : 3 + 2 * c ≤ b.length)
    (h : readTable b c 3 (Table.const false) (Table.const 0) = .ok (p, l)) :
    presentCount p = c ∧ ∀ x, p.get x = false → l.get x = 0 := by
  obtain ⟨es, post, he, hes⟩ := exists_entryBytes c (b.drop 3) (by rw [List.length_drop]; omega)
  have hpre : (b.take 3).length = 3 := by rw [List.length_take]; omega
  have hsplit : b = b.take 3 ++ entryBytes es ++ post := by
    rw [List.append_assoc, ← he, List.take_append_drop]
  have hload := readTable_entries (b.take 3) post es (Table.const false) (Table.const 0)
  rw [← hsplit, hpre, hes, h] at hload
  have hn : (es.map (·.1)).Nodup := by
    by_contra hn
    rw [loadEntries_error fun hc => hn hc.1] at hload
    cases hload
  obtain ⟨p', l', hok, hp, hl⟩ := loadEntries_ok (p := Table.const false) (l := Table.const 0) hn
    (by simp)
  rw [hok] at hload
  cases hload
  refine ⟨?_, fun x hx => ?_⟩
  · have hperm : (presentSymbols p).Perm (es.map (·.1)) :=
      (List.perm_ext_iff_of_nodup (presentSymbols_nodup p) hn).mpr fun x => by simp [hp]
    rw [presentCount, hperm.length_eq, List.length_map, hes]
  · have hx' : x ∉ es.map (·.1) := fun hm => by simp [(hp x).mpr (.inl hm)] at hx
    rw [hl, List.lookup_eq_none_iff.mpr fun e he => ?_]
    · simp
    · exact bne_iff_ne.mpr fun heq => hx' (heq ▸ List.mem_map_of_mem he)

/-- Every parsed blob has as many present symbols as it says (R212). -/
theorem parse_presentCount {v : Byte} {b : List Byte} {r : Parsed} (h : parse v b = .ok r) :
    presentCount r.pres = r.nsym := by
  obtain ⟨-, hb, ht, -, -⟩ := parse_ok h
  exact (readTable_ok hb ht).1

/-- INV2 to INV4 of the code lengths that a parsed blob has (R215). -/
theorem parse_legal {v : Byte} {b : List Byte} {r : Parsed} (h : parse v b = .ok r) :
    LegalTable r.pres r.len := by
  obtain ⟨-, hb, ht, hleg, -⟩ := parse_ok h
  obtain ⟨hcount, habs⟩ := readTable_ok hb ht
  obtain ⟨hsingle, hpos, hkraft⟩ := (legalLengths_iff _ _ _).mp hleg
  rw [← hcount] at hsingle hpos hkraft
  exact ⟨habs, hpos, hkraft, hsingle⟩

/-! #### INV1 to INV6 as three facts -/

/-- NSYM holds the number of present symbols: 9 bits are enough for 256 (R24). -/
theorem presentCount_ofNat (pres : Table Bool) :
    (BitVec.ofNat 9 (presentCount pres)).toNat = presentCount pres := by
  have := presentCount_le pres
  rw [BitVec.toNat_ofNat]
  omega

/-- INV1 to INV6 say that NSYM counts the symbols, that the code lengths are legal, and that CODE is the
canonical code of the lengths or, without CV, zero; INV6 and what INV2 says of CODE follow (R37, R146). -/
theorem tableInv_iff {s : State} :
    TableInv s ↔ s.nsym.toNat = presentCount s.pres ∧ LegalTable s.pres s.len ∧
      s.code = if s.status.cv then canon s.pres s.len else Table.const 0 := by
  constructor
  · rintro ⟨inv1, inv2, inv3, inv4, inv5, -⟩
    rw [inv1] at inv3 inv4
    refine ⟨inv1, ⟨fun x hx => (inv2 x hx).1, fun h x hx => ((inv3 h).1 x hx).1,
      fun h => (inv3 h).2, fun h x hx => ?_⟩, ?_⟩
    · rcases inv4 h x hx with h | h <;> simp [h]
    · split
      case isTrue hcv => exact inv5.1 hcv
      case isFalse hcv =>
        exact Table.ext_get fun x => by rw [inv5.2 (by simpa using hcv), Table.get_const]
  · rintro ⟨hn, hleg, hcode⟩
    refine ⟨hn, fun x hx => ⟨hleg.absent x hx, ?_⟩, fun h => ?_, fun h x hx => ?_, ⟨fun hcv => ?_,
      fun hcv x => ?_⟩, fun hcv => ?_⟩
    · rw [hcode]
      split
      · exact canon_get_absent hx
      · exact Table.get_const 0 x
    · rw [hn] at h
      exact ⟨fun x hx => ⟨hleg.positive h x hx, len_le_255 _ x⟩, hleg.complete h⟩
    · exact (Nat.le_one_iff_eq_zero_or_eq_one.mp (hleg.single (hn ▸ h) x hx)).imp
        BitVec.eq_of_toNat_eq BitVec.eq_of_toNat_eq
    · rw [hcode, if_pos hcv]
    · rw [hcode, hcv, if_neg Bool.false_ne_true, Table.get_const]
    · rw [hcode, if_pos hcv]
      exact canon_prefixFree (kraft_le hleg)

end Sys2Proof.Machine

/-! ### The invariant of HTB at reset and after every step (R37) -/

namespace Sys2Proof.Machine

variable {s t u : State}

/-! #### INV1 to INV6 -/

@[simp] theorem presentCount_const_false : presentCount (Table.const false) = 0 := by
  simp [presentCount, presentSymbols, Table.symbolsWhere_eq]

/-- The empty tables of reset and CLEAR are legal. -/
theorem legalTable_empty : LegalTable (Table.const false) (Table.const 0) where
  absent x _ := Table.get_const 0 x
  positive h := by simp at h
  complete h := by simp at h
  single h := by simp at h

/-- INV1 to INV6 look at PRES, LEN, NSYM, CODE and CV alone. -/
theorem TableInv.congr (h : TableInv s) (hp : t.pres = s.pres) (hl : t.len = s.len)
    (hn : t.nsym = s.nsym) (hc : t.code = s.code) (hcv : t.status.cv = s.status.cv) :
    TableInv t := by
  rw [tableInv_iff] at h ⊢
  rwa [hp, hl, hn, hc, hcv]

/-- INV1 to INV6 of tables that have just been loaded: CODE is canonical with CV, or zero without. -/
theorem tableInv_loaded (hleg : LegalTable t.pres t.len)
    (hn : t.nsym = BitVec.ofNat 9 (presentCount t.pres))
    (hc : t.code = if t.status.cv then canon t.pres t.len else Table.const 0) : TableInv t :=
  tableInv_iff.mpr ⟨by rw [hn, presentCount_ofNat], hleg, hc⟩

/-- INV1 to INV6 of tables that are empty, as after reset and CLEAR (R42, R242). -/
theorem tableInv_empty (hp : t.pres = Table.const false) (hl : t.len = Table.const 0)
    (hn : t.nsym = 0) (hc : t.code = Table.const 0) (hcv : t.status.cv = false) : TableInv t :=
  tableInv_loaded (by rw [hp, hl]; exact legalTable_empty)
    (by rw [hp, hn, presentCount_const_false]; rfl) (by rw [hc, hcv, if_neg Bool.false_ne_true])

/-- A command that succeeds keeps INV1 to INV6. -/
theorem effect_keeps_tableInv {i : Instr} (h : effect i s = .ok u) (hs : TableInv s) :
    TableInv u := by
  cases i with
  | nop => cases h; exact hs
  | clear => cases h; exact tableInv_empty rfl rfl rfl rfl rfl
  | analyze =>
    obtain ⟨-, rfl⟩ := analyzeEffect_ok.mp h
    exact hs.congr rfl rfl rfl rfl rfl
  | build => cases h; exact tableInv_loaded (lengths_legal s.freq) rfl rfl
  | canon =>
    cases h
    obtain ⟨hn, hleg, -⟩ := tableInv_iff.mp hs
    exact tableInv_iff.mpr ⟨hn, hleg, rfl⟩
  | pack =>
    obtain ⟨-, -, r, -, rfl⟩ := packEffect_ok.mp h
    exact hs.congr rfl rfl rfl rfl rfl
  | unpack =>
    obtain ⟨-, -, -, out, -, rfl⟩ := unpackEffect_ok.mp h
    exact hs.congr rfl rfl rfl rfl rfl
  | serialize =>
    obtain ⟨-, -, -, -, rfl⟩ := serializeEffect_ok.mp h
    exact hs.congr rfl rfl rfl rfl rfl
  | parse =>
    obtain ⟨-, r, hr, rfl⟩ := parseEffect_ok.mp h
    exact tableInv_loaded (parse_legal hr) (by simp [parse_presentCount hr]) rfl
  | encode =>
    obtain ⟨-, -, rfl⟩ := encodeEffect_ok.mp h
    exact tableInv_loaded (lengths_legal _) rfl rfl
  | decode =>
    obtain ⟨-, r, hr, x, -, rfl⟩ := decodeEffect_ok.mp h
    exact tableInv_loaded (parse_legal hr) (by simp [parse_presentCount hr]) rfl

/-! #### The buffers -/

/-- The invariant of the buffers looks at the capacities, the buffers and OBUF_LEN alone. -/
theorem BufferInv.congr (h : BufferInv s) (hc : t.cfg = s.cfg) (hi : t.ibuf = s.ibuf)
    (ho : t.obuf = s.obuf) (hl : t.obufLen = s.obufLen) : BufferInv t := by
  obtain ⟨h1, h2, h3, h4, h5, h6⟩ := h
  constructor <;> simpa only [hc, hi, ho, hl]

/-- An output that fits OBUF_CAP keeps the invariant of the buffers (R62). -/
theorem BufferInv.of_output {bytes : List Byte} (h : BufferInv s)
    (hb : bytes.length ≤ s.cfg.obufCap.toNat) (hc : t.cfg = s.cfg) (hi : t.ibuf = s.ibuf)
    (ho : t.obuf = Memory.ofBytes bytes) (hl : t.obufLen.toNat = bytes.length) : BufferInv t where
  ibufWf := hi ▸ h.ibufWf
  obufWf := ho ▸ Memory.ofBytes_wf bytes
  ibufBound := by rw [hc, hi]; exact h.ibufBound
  obufBound c hm := by
    rw [ho] at hm
    have := (Memory.mem_ofBytesFrom hm).2
    rw [hc]
    omega
  obufLenBound := by rwa [BitVec.le_def, hc, hl]
  obufValid a ha := by
    rw [hl] at ha
    rw [ho, Memory.lookup_ofBytes, List.getElem?_eq_getElem ha, Option.isSome_some]

/-- With OBUF_LEN = 0 no byte of OBUF need be kept (R62, R256). -/
theorem BufferInv.of_no_output (h : BufferInv s) (hc : t.cfg = s.cfg) (hi : t.ibuf = s.ibuf)
    (ho : t.obuf = s.obuf ∨ t.obuf = []) (hl : t.obufLen = 0) : BufferInv t where
  ibufWf := hi ▸ h.ibufWf
  obufWf := by
    rcases ho with ho | ho
    · exact ho ▸ h.obufWf
    · exact ho ▸ Memory.wf_nil
  ibufBound := by rw [hc, hi]; exact h.ibufBound
  obufBound c hm := by
    rcases ho with ho | ho
    · rw [hc]; exact h.obufBound c (ho ▸ hm)
    · rw [ho] at hm; cases hm
  obufLenBound := by rw [hl]; exact Nat.zero_le _
  obufValid a ha := by rw [hl] at ha; exact absurd ha (Nat.not_lt_zero a)

/-- A byte that the host writes below IBUF_CAP keeps the invariant of the buffers (R61). -/
theorem BufferInv.ibufWrite (h : BufferInv s) {a : Word64} (b : Byte) (ha : a < s.cfg.ibufCap) :
    BufferInv { s with ibuf := s.ibuf.write a.toNat b } :=
  { h with
    ibufWf := Memory.write_wf a.toNat b h.ibufWf
    ibufBound := fun c hc => by
      rcases Memory.mem_write hc with rfl | hc
      · exact ha
      · exact h.ibufBound c hc }

/-- The buffers are empty, as after reset (R42). -/
theorem bufferInv_empty (hi : t.ibuf = []) (ho : t.obuf = []) (hl : t.obufLen = 0) :
    BufferInv t where
  ibufWf := hi ▸ Memory.wf_nil
  obufWf := ho ▸ Memory.wf_nil
  ibufBound c hc := by rw [hi] at hc; cases hc
  obufBound c hc := by rw [ho] at hc; cases hc
  obufLenBound := by rw [hl]; exact Nat.zero_le _
  obufValid a ha := by rw [hl] at ha; exact absurd ha (Nat.not_lt_zero a)

/-- PACK's loops end without error only if every byte's symbol is present (R158). -/
theorem packSymbols_present {cap : Nat} {pres : Table Bool} {len : Table Byte}
    {code : Table CodeWord} {d : List Byte} {p p' : PackState}
    (h : d.foldlM (packSymbol cap pres len code) p = .ok p') : ∀ x ∈ d, pres.get x = true := by
  induction d generalizing p with
  | nil => nofun
  | cons x d ih =>
    rw [List.foldlM_cons, except_bind_ok] at h
    obtain ⟨q, hq, hd⟩ := h
    have hx : pres.get x = true := by
      by_contra hx
      rw [packSymbol, if_neg hx] at hq
      cases hq
    exact List.forall_mem_cons.mpr ⟨hx, ih hd⟩

/-- What PACK's loops give fits the capacity (R158). -/
theorem packLoop_length_le {cap : Nat} {pres : Table Bool} {len : Table Byte}
    {code : Table CodeWord} {d : List Byte} {r : List Byte × Nat}
    (h : packLoop cap pres len code d = .ok r) : r.1.length ≤ cap := by
  have hd : ∀ x ∈ d, pres.get x = true := by
    rw [packLoop, except_bind_ok] at h
    obtain ⟨p, hp, -⟩ := h
    exact packSymbols_present hp
  rw [packLoop_eq cap hd] at h
  split_ifs at h with hl
  cases h
  exact hl

/-- A command that succeeds keeps the invariant of the buffers. -/
theorem effect_keeps_bufferInv {i : Instr} (h : effect i s = .ok u) (hs : BufferInv s) :
    BufferInv u := by
  cases i with
  | nop => cases h; exact hs
  | clear => cases h; exact hs.of_no_output rfl rfl (.inl rfl) rfl
  | analyze =>
    obtain ⟨-, rfl⟩ := analyzeEffect_ok.mp h
    exact hs.congr rfl rfl rfl rfl
  | build => cases h; exact hs.congr rfl rfl rfl rfl
  | canon => cases h; exact hs.congr rfl rfl rfl rfl
  | pack =>
    obtain ⟨-, -, r, hr, rfl⟩ := packEffect_ok.mp h
    have hl := packLoop_length_le hr
    exact hs.of_output hl rfl rfl rfl (toNat_ofNat_of_le hl)
  | unpack =>
    obtain ⟨-, -, -, out, hout, rfl⟩ := unpackEffect_ok.mp h
    obtain ⟨hl, hcap⟩ := unpackbits_length hout
    exact hs.of_output (hl ▸ hcap) rfl rfl rfl hl.symm
  | serialize =>
    obtain ⟨-, -, -, hl, rfl⟩ := serializeEffect_ok.mp h
    exact hs.of_output hl rfl rfl rfl (toNat_ofNat_of_le hl)
  | parse =>
    obtain ⟨-, r, -, rfl⟩ := parseEffect_ok.mp h
    exact hs.congr rfl rfl rfl rfl
  | encode =>
    obtain ⟨-, hl, rfl⟩ := encodeEffect_ok.mp h
    exact hs.of_output hl (State.encodedState_cfg s) (State.encodedState_ibuf s)
      (State.encodedState_obuf s) (by rw [State.encodedState_obufLen, toNat_ofNat_of_le hl])
  | decode =>
    obtain ⟨-, r, -, x, hx, rfl⟩ := decodeEffect_ok.mp h
    obtain ⟨hl, hcap⟩ := unpackbits_length hx
    exact hs.of_output (hl ▸ hcap) rfl rfl rfl (toNat_ofNat_of_le (hl ▸ hcap))

/-! #### STATUS (R32) -/

theorem statusInv_accepted (st : Status) : StatusInv st.accepted where
  busyNotDone _ := rfl
  errDone := nofun
  noErrNoCode _ := rfl
  errCode := nofun

theorem statusInv_ended (st : Status) : StatusInv st.ended where
  busyNotDone := nofun
  errDone := nofun
  noErrNoCode _ := rfl
  errCode := nofun

theorem statusInv_failed (e : CmdError) (st : Status) : StatusInv (st.failed e) where
  busyNotDone := nofun
  errDone _ := rfl
  noErrNoCode := nofun
  errCode _ := ⟨e, rfl⟩

/-! #### The whole invariant -/

/-- What the invariant looks at: neither FREQ nor the scalars nor the host's own side. -/
theorem Inv.congr (h : Inv s) (hcfg : t.cfg = s.cfg) (hp : t.pres = s.pres) (hl : t.len = s.len)
    (hn : t.nsym = s.nsym) (hc : t.code = s.code) (hst : t.status = s.status)
    (hi : t.ibuf = s.ibuf) (ho : t.obuf = s.obuf) (hol : t.obufLen = s.obufLen) : Inv t where
  tables := h.tables.congr hp hl hn hc (by rw [hst])
  buffers := h.buffers.congr hcfg hi ho hol
  status := hst ▸ h.status

theorem Inv.accept (h : Inv s) (w : Word32) : Inv (s.accept w) where
  tables := h.tables.congr rfl rfl rfl rfl rfl
  buffers := h.buffers.congr rfl rfl rfl rfl
  status := statusInv_accepted s.status

theorem Inv.raise (h : Inv s) (e : CmdError) : Inv (s.raise e) where
  tables := h.tables.congr rfl rfl rfl rfl rfl
  buffers := h.buffers.of_no_output rfl rfl (.inr rfl) rfl
  status := statusInv_failed e s.status

/-- A register write of the host stores no register that the invariant looks at. -/
theorem Inv.writeReg (h : Inv s) (v : Word64) (r : Reg) : Inv (s.writeReg v r) := by
  cases r <;> exact h.congr rfl rfl rfl rfl rfl rfl rfl rfl rfl

/-- The tables and the buffers are empty and STATUS is zero right after reset (R42). -/
theorem inv_resetWith (cfg : Config) : Inv (State.resetWith cfg) where
  tables := tableInv_empty rfl rfl rfl rfl rfl
  buffers := bufferInv_empty rfl rfl rfl
  status := ⟨nofun, nofun, fun _ => rfl, nofun⟩

theorem inv_applyReset (s : State) : Inv s.applyReset :=
  (inv_resetWith s.cfg).congr rfl rfl rfl rfl rfl rfl rfl rfl rfl

/-- The command in CMD keeps the invariant: it ends with its effect or by `raise`. -/
theorem Inv.runCommand (hs : Inv s) (h : s.runCommand = .next t) : Inv t := by
  rcases State.runCommand_cases h with ⟨i, u, -, hu, rfl⟩ | ⟨e, rfl⟩
  · exact
      { tables := (effect_keeps_tableInv hu hs.tables).congr rfl rfl rfl rfl rfl
        buffers := (effect_keeps_bufferInv hu hs.buffers).congr rfl rfl rfl rfl
        status := statusInv_ended u.status }
  · exact hs.raise e

/-! #### What a step can do -/

/-- Values read one after another are recorded with the newest first (log 9). -/
theorem foldl_observe (vs : List Word64) (s : State) :
    vs.foldl (fun t v => t.observe v) s = { s with seen := vs.reverse ++ s.seen } := by
  induction vs generalizing s with
  | nil => rfl
  | cons v vs ih =>
    rw [List.foldl_cons, ih, List.reverse_cons, List.append_assoc]
    rfl

/-- The `obuf` line on an idle machine (R96). -/
theorem hostObufReadValid_idle (h : s.status.busy = false) :
    hostObufReadValid s =
      .next { s with seen := (s.outputBytes.map (·.setWidth 64)).reverse ++ s.seen } := by
  rw [hostObufReadValid, h, if_neg Bool.false_ne_true, ← foldl_observe, List.foldl_map]

/-- What one host event can do to a state (R43, R61, R81, R243, R280, R285, R286). -/
inductive EventChange (s : State) : State → Prop where
  /-- An ignored access, or a read: at most the record of the host and the number of the draw change. -/
  | recorded (seen : List Word64) (draws : Nat) :
    EventChange s { s with seen := seen, draws := draws }
  /-- A write to a register other than CMD. -/
  | regWritten (v : Word64) (r : Reg) : EventChange s (s.writeReg v r)
  /-- A byte written to IBUF. -/
  | ibufWritten (a : Word64) (b : Byte) (ha : a < s.cfg.ibufCap) :
    EventChange s { s with ibuf := s.ibuf.write a.toNat b }
  /-- A command begins. -/
  | accepted (w : Word32) : EventChange s (s.accept w)
  /-- A command is accepted and runs to its end. -/
  | issued (w : Word32) {t : State} (h : (s.accept w).runCommand = .next t) : EventChange s t
  /-- The running command ends. -/
  | ended {t : State} (h : s.runCommand = .next t) : EventChange s t
  /-- The reset input. -/
  | reset : EventChange s s.applyReset

theorem EventChange.refl (s : State) : EventChange s s := .recorded s.seen s.draws

theorem EventChange.observeBusy (s : State) : EventChange s s.observeBusy := .recorded _ _

theorem EventChange.observe (v : Word64) (s : State) : EventChange s (s.observe v) :=
  .recorded _ s.draws

theorem hostRegWrite_change {index : BitVec 16} {v : Word64}
    (h : hostRegWrite index v s = .next t) : EventChange s t := by
  unfold hostRegWrite at h
  split at h
  · cases h; exact .refl s
  · split at h
    · exact .issued _ h
    · cases h; exact .regWritten v _

theorem hostRegRead_change {index : BitVec 16} (h : hostRegRead index s = .next t) :
    EventChange s t := by
  unfold hostRegRead at h
  split at h
  · cases h; exact .observeBusy s
  · cases h; exact .observe _ s

theorem hostIbufWrite_change {a : Word64} {b : Byte} (h : hostIbufWrite a b s = .next t) :
    EventChange s t := by
  unfold hostIbufWrite at h
  split_ifs at h with hb hc
  · cases h; exact .refl s
  · cases h; exact .ibufWritten a b (BitVec.not_le.mp hc)

theorem hostIbufRead_change {a : Word64} (h : hostIbufRead a s = .next t) : EventChange s t := by
  unfold hostIbufRead at h
  split_ifs at h
  · cases h; exact .observeBusy s
  · cases h; exact .observe _ s

theorem hostObufRead_change {a : Word64} (h : hostObufRead a s = .next t) : EventChange s t := by
  unfold hostObufRead at h
  split_ifs at h
  · cases h; exact .observeBusy s
  · cases h; exact .observe _ s

theorem hostObufReadValid_change (h : hostObufReadValid s = .next t) : EventChange s t := by
  cases hb : s.status.busy with
  | true =>
    rw [hostObufReadValid, if_pos hb] at h
    cases h
    exact .observeBusy s
  | false =>
    rw [hostObufReadValid_idle hb] at h
    cases h
    exact .recorded _ s.draws

theorem hostCmdStart_change {w : Word32} (h : hostCmdStart w s = .next t) : EventChange s t := by
  unfold hostCmdStart at h
  split at h
  · cases h; exact .refl s
  · split at h
    · cases h; exact .accepted w
    · next x hx =>
      refine .issued w ?_
      rw [State.runCommand_of_illegal (s := s.accept w) hx]
      exact h

theorem engineEnd_change (h : engineEnd s = .next t) : EventChange s t := by
  unfold engineEnd at h
  split at h
  · exact .ended h
  · cases h; exact .refl s

theorem hostEvent_change {e : HostEvent} (h : hostEvent e s = .next t) : EventChange s t := by
  cases e with
  | regWrite index v => exact hostRegWrite_change h
  | regRead index => exact hostRegRead_change h
  | ibufWrite a b => exact hostIbufWrite_change h
  | ibufRead a => exact hostIbufRead_change h
  | obufRead a => exact hostObufRead_change h
  | obufReadValid => exact hostObufReadValid_change h
  | cmdStart w => exact hostCmdStart_change h
  | cmdEnd => exact engineEnd_change h
  | reset => cases h; exact .reset

/-- A step is one event's change, of the state with that event no longer pending. -/
theorem step_change (h : step s = .next t) :
    ∃ rest, EventChange { s with pending := rest } t := by
  cases hp : s.pending with
  | nil =>
    rw [step_nil hp] at h
    exact ⟨s.pending, engineEnd_change h⟩
  | cons e rest =>
    rw [step_cons hp] at h
    exact ⟨rest, hostEvent_change h⟩

/-- Every change keeps the invariant. -/
theorem EventChange.keeps_inv (hc : EventChange s t) (hs : Inv s) : Inv t := by
  cases hc with
  | recorded seen draws => exact hs.congr rfl rfl rfl rfl rfl rfl rfl rfl rfl
  | regWritten v r => exact hs.writeReg v r
  | ibufWritten a b ha =>
    exact
      { tables := hs.tables.congr rfl rfl rfl rfl rfl
        buffers := hs.buffers.ibufWrite b ha
        status := hs.status }
  | accepted w => exact hs.accept w
  | issued w h => exact (hs.accept w).runCommand h
  | ended h => exact hs.runCommand h
  | reset => exact inv_applyReset s

/-- Settles O16: what a step can do is one of the changes of an event, and each keeps the invariant. -/
theorem invariantKeptByEveryStep : Obligations.InvariantKeptByEveryStep := by
  intro s t hs h
  obtain ⟨rest, hc⟩ := step_change h
  exact hc.keeps_inv (hs.congr rfl rfl rfl rfl rfl rfl rfl rfl rfl)

/-- Settles O15: empty tables and buffers satisfy the invariant, for all parameters. -/
theorem invariantAtReset : Obligations.InvariantAtReset := inv_resetWith

end Sys2Proof.Machine

/-! ### The host's accesses on an idle machine, reset, and the frames of the commands -/

namespace Sys2Proof.Machine

variable {s t u : State}

/-! #### Single events -/

/-- The step that takes an event is the event's effect on the state. -/
theorem stepOn_eq (e : HostEvent) (s : State) : stepOn e s = hostEvent e s := rfl

/-- A register read on an idle machine. -/
theorem readsAs_of (h : s.status.busy = false) {index : Nat} {r : Reg} {v : Word64}
    (hr : regAt (BitVec.ofNat 16 index) = r) (hv : s.readReg r = v) : ReadsAs s index v := by
  rw [ReadsAs, stepOn_eq, hostEvent, hostRegRead_idle h, hr, hv]
  rfl

/-- A register write other than to CMD on an idle machine. -/
theorem writesTo_of (h : s.status.busy = false) {index : Nat} {r : Reg} {v : Word64}
    (hr : regAt (BitVec.ofNat 16 index) = r) (hc : r ≠ .cmd) (ht : s.writeReg v r = t) :
    WritesTo s index v t := by
  rw [WritesTo, stepOn_eq, hostEvent, hostRegWrite_idle h (hr ▸ hc), hr, ht]

theorem hostIbufWrite_idle (h : s.status.busy = false) (a : Word64) (b : Byte) :
    hostIbufWrite a b s = if s.cfg.ibufCap ≤ a then .fault .ibufAddress
      else .next { s with ibuf := s.ibuf.write a.toNat b } := by
  rw [hostIbufWrite, h, if_neg Bool.false_ne_true]

theorem hostIbufRead_idle (h : s.status.busy = false) (a : Word64) :
    hostIbufRead a s = if s.cfg.ibufCap ≤ a then .fault .ibufAddress
      else .next (s.observe ((s.ibufByte a.toNat).setWidth 64)) := by
  rw [hostIbufRead, h, if_neg Bool.false_ne_true]

theorem hostObufRead_idle (h : s.status.busy = false) (a : Word64) :
    hostObufRead a s = if s.cfg.obufCap ≤ a then .fault .obufAddress
      else .next (s.observe ((s.obufByte a.toNat).setWidth 64)) := by
  rw [hostObufRead, h, if_neg Bool.false_ne_true]

/-- A byte of IBUF after a write to it or to another (R61). -/
theorem ibufByte_write (h : s.ibuf.wf) (a x : Nat) (b : Byte) :
    State.ibufByte { s with ibuf := s.ibuf.write a b } x = if x = a then b else s.ibufByte x := by
  rw [State.ibufByte, Memory.lookup_write _ _ _ _ h]
  split
  · rfl
  · rfl

/-! #### Words that a read delivers -/

/-- A bit string appended on the right stands below the one on the left. -/
theorem toNat_append_add {m n : Nat} (x : BitVec m) (y : BitVec n) :
    (x ++ y).toNat = 2 ^ n * x.toNat + y.toNat := by
  rw [BitVec.toNat_append, ← Nat.shiftLeft_add_eq_or_of_lt y.isLt, Nat.shiftLeft_eq, Nat.mul_comm]

/-- Settles O7: each field of STATUS stands above the fields appended to its right. -/
theorem statusWordLayout : Obligations.StatusWordLayout := by
  intro st
  simp only [Status.word, toNat_append_add, BitVec.toNat_ofBool,
    BitVec.ofNat_eq_ofNat, BitVec.toNat_ofNat, Nat.zero_mod]
  omega

/-- The nine bits `{PRES[s], LEN[s]}` as a number (R22, R34). -/
theorem lentab_setWidth (s : State) (x : Symbol) :
    (s.lentab x).setWidth 64 =
      BitVec.ofNat 64 (256 * (s.pres.get x).toNat + (s.len.get x).toNat) := by
  rw [← BitVec.ofNat_toNat, State.lentab, toNat_append_add, BitVec.toNat_ofBool]
  rfl

/-- Settles O8: the register map says which register stands at each index, and `readReg` its value. -/
theorem hostRegisterReads : Obligations.HostRegisterReads := by
  intro s h
  refine ⟨readsAs_of h rfl rfl, readsAs_of h rfl rfl, readsAs_of h rfl rfl, readsAs_of h rfl rfl,
    readsAs_of h rfl rfl, readsAs_of h rfl rfl, readsAs_of h rfl rfl, readsAs_of h rfl rfl,
    readsAs_of h rfl rfl, fun x => readsAs_of h (regAt_freq x) rfl,
    fun x => readsAs_of h (regAt_lentab x) (lentab_setWidth s x),
    fun x k => readsAs_of h (regAt_codew x k) rfl,
    fun index hi => readsAs_of h (regAt_reserved hi) rfl⟩

/-- The table that a write to one entry leaves. -/
theorem set_eq_tabulate (f : Table Word64) (x : Symbol) (v : Word64) :
    f.set x v = Table.tabulate fun y => if y = x then v else f.get y :=
  Table.ext_get fun y => by rw [Table.get_set, Table.get_tabulate]

/-- Settles O9: the register map says which register stands at each index, and `writeReg` what it stores. -/
theorem hostRegisterWrites : Obligations.HostRegisterWrites := by
  intro s v h
  refine ⟨writesTo_of h rfl nofun rfl, writesTo_of h rfl nofun rfl, writesTo_of h rfl nofun rfl,
    writesTo_of h rfl nofun rfl,
    fun x => writesTo_of h (regAt_freq x) nofun (by rw [← set_eq_tabulate]; rfl),
    writesTo_of h rfl nofun rfl, writesTo_of h rfl nofun rfl, writesTo_of h rfl nofun rfl,
    writesTo_of h rfl nofun rfl, fun x => writesTo_of h (regAt_lentab x) nofun rfl,
    fun x k => writesTo_of h (regAt_codew x k) nofun rfl,
    fun index hi => writesTo_of h (regAt_reserved hi) nofun rfl⟩

/-- Settles O10: the word is 64 bits of the code extended to 256 bits. -/
theorem codeReadOut : Obligations.CodeReadOut := by
  intro s x k
  have hbit : ∀ (k : Fin 4) (j : Nat), j < 64 →
      (s.codew x k).getLsbD j = (s.code.get x).getLsbD (64 * k.val + j) := by
    intro k j hj
    rw [State.codew, BitVec.getLsbD_extractLsb', BitVec.getLsbD_setWidth]
    have := k.isLt
    simp only [hj, show 64 * k.val + j < 256 by omega, decide_true, Bool.true_and]
  exact ⟨hbit k, by rw [hbit 3 63 (by decide)]; exact BitVec.getLsbD_of_ge _ _ (by decide)⟩

/-- Settles O11: below the capacity the list of written bytes takes the byte, and no other reads differently. -/
theorem hostIbufAccess : Obligations.HostIbufAccess := by
  intro s a b h hwf
  simp only [stepOn_eq, hostEvent, hostIbufWrite_idle h, hostIbufRead_idle h]
  constructor
  · intro ha
    rw [if_neg (BitVec.not_le.mpr ha), if_neg (BitVec.not_le.mpr ha)]
    exact ⟨⟨_, rfl, Memory.write_wf _ b hwf, rfl, fun x => ibufByte_write hwf _ x b⟩, rfl⟩
  · intro ha
    rw [if_pos ha, if_pos ha]
    exact ⟨rfl, rfl⟩

/-- Settles O12: a read delivers the byte, and the `obuf` line the bytes in order. -/
theorem hostObufAccess : Obligations.HostObufAccess := by
  intro s a h
  simp only [stepOn_eq, hostEvent, hostObufRead_idle h, hostObufReadValid_idle h]
  refine ⟨fun ha => ?_, fun ha => if_pos ha, trivial⟩
  rw [if_neg (BitVec.not_le.mpr ha)]
  rfl

/-! #### Reset -/

theorem registersAtReset_resetWith (cfg : Config) : RegistersAtReset (State.resetWith cfg) where
  cmd := rfl
  status := rfl
  lengths := ⟨rfl, rfl, rfl, rfl⟩
  small := ⟨rfl, rfl⟩
  tables x := ⟨Table.get_const 0 x, Table.get_const false x, Table.get_const 0 x, Table.get_const 0 x⟩
  version := rfl

/-- The reset input leaves every register as right after reset (R280). -/
theorem registersAtReset_applyReset (s : State) : RegistersAtReset s.applyReset :=
  { registersAtReset_resetWith s.cfg with }

/-- Settles O14: the reset input rebuilds the state from the parameters and keeps the host's own side. -/
theorem resetValues : Obligations.ResetValues :=
  ⟨registersAtReset_resetWith Config.default, fun s =>
    ⟨s.applyReset, rfl, registersAtReset_applyReset s, rfl, rfl, rfl, fun _ => ⟨rfl, rfl⟩⟩⟩

/-! #### Frames (R44) -/

theorem HostSideKept.finish (h : HostSideKept s u) : HostSideKept s u.finish := { h with }

theorem hostSideKept_raise (s : State) (e : CmdError) : HostSideKept s (s.raise e) :=
  ⟨rfl, rfl, rfl, fun _ => ⟨rfl, rfl⟩, rfl, rfl⟩

/-- What the effect of each command leaves unchanged (R44). -/
structure EffectFrame (i : Instr) (s u : State) : Prop where
  host : HostSideKept s u
  freq : i ∉ [.clear, .analyze, .encode] → u.freq = s.freq
  tables : i ∉ [.clear, .build, .parse, .encode, .decode] → TablesKept s u
  codes : i ∉ [.clear, .build, .canon, .parse, .encode, .decode] →
    u.code = s.code ∧ u.status.cv = s.status.cv
  origlen : i ∉ [.clear, .analyze, .serialize, .parse, .encode, .decode] → u.origlen = s.origlen
  pad : i ∉ [.clear, .pack, .serialize, .parse, .encode, .decode] → u.pad = s.pad
  payoff : i ∉ [.clear, .parse, .decode] → u.payoff = s.payoff
  output : i ∈ [.nop, .analyze, .build, .canon, .parse] → OutputKept s u
  outputBytes : i = .clear → u.obuf = s.obuf

/-- Each command writes only the registers of its row of R44. -/
theorem effect_frame {i : Instr} (h : effect i s = .ok u) : EffectFrame i s u := by
  cases i
  case' nop | clear | build | canon => cases h
  case' analyze => obtain ⟨-, rfl⟩ := analyzeEffect_ok.mp h
  case' pack => obtain ⟨-, -, r, -, rfl⟩ := packEffect_ok.mp h
  case' unpack => obtain ⟨-, -, -, out, -, rfl⟩ := unpackEffect_ok.mp h
  case' serialize => obtain ⟨-, -, -, -, rfl⟩ := serializeEffect_ok.mp h
  case' parse => obtain ⟨-, r, -, rfl⟩ := parseEffect_ok.mp h
  case' encode => obtain ⟨-, -, rfl⟩ := encodeEffect_ok.mp h
  case' decode => obtain ⟨-, r, -, out, -, rfl⟩ := decodeEffect_ok.mp h
  all_goals
    constructor
    case host => constructor <;> simp [clearEffect, buildEffect, canonEffect, State.ibufByte]
    all_goals simp [TablesKept, OutputKept, clearEffect, buildEffect, canonEffect]

/-- Settles O21: a command that succeeds leaves what its effect leaves, and one that fails only sets STATUS
and empties the output. -/
theorem commandFrames : Obligations.CommandFrames := by
  intro i s t h
  rcases exec_cases h with ⟨u, hu, rfl⟩ | ⟨e, he, rfl⟩
  · obtain ⟨hhost, hfreq, htables, hcodes, horiglen, hpad, hpayoff, hout, hclear⟩ := effect_frame hu
    exact ⟨hhost.finish, hfreq, htables, hcodes, horiglen, hpad, hpayoff, fun hi _ => hout hi,
      fun hi a => by rw [State.finish_obuf, hclear hi]⟩
  · exact ⟨hostSideKept_raise s e, fun _ => rfl, fun _ => ⟨rfl, rfl, rfl⟩, fun _ => ⟨rfl, rfl⟩,
      fun _ => rfl, fun _ => rfl, fun _ => rfl, nofun, by rintro rfl; cases he⟩

end Sys2Proof.Machine

/-! ### Which blobs `parse` accepts (R85, R211, R212, R215, R216) -/

namespace Sys2Proof.Machine

/-! #### The blob of a list of entries -/

/-- The symbol table stands after the version byte and the two bytes of symbol_count (R85). -/
theorem blobOfEntries_table (v : Byte) (es : List (Symbol × Byte)) (after : List Byte) :
    blobOfEntries v es after = ([v] ++ bigEndianBytes es.length 2) ++ entryBytes es ++ after := rfl

theorem blobOfEntries_append (v : Byte) (es : List (Symbol × Byte)) (after : List Byte) :
    blobOfEntries v es after = blobOfEntries v es [] ++ after := by
  simp [blobOfEntries]

@[simp] theorem blobOfEntries_length (v : Byte) (es : List (Symbol × Byte)) (after : List Byte) :
    (blobOfEntries v es after).length = 3 + 2 * es.length + after.length := by
  simp only [blobOfEntries_table, List.length_append, List.length_singleton, bigEndianBytes_length,
    entryBytes_length]

/-- Two bytes are the big-endian form of the number they make. -/
theorem bigEndianBytes_bigEndian_pair (hi lo : Byte) :
    bigEndianBytes (bigEndian [hi, lo]) 2 = [hi, lo] := by
  have hhi := hi.isLt
  have hlo := lo.isLt
  have hn : bigEndian [hi, lo] = 256 * hi.toNat + lo.toNat := by simp [bigEndian]
  rw [hn, bigEndianBytes, bigEndianBytes, bigEndianBytes]
  congr 2
  · exact BitVec.eq_of_toNat_eq (by rw [BitVec.toNat_ofNat]; omega)
  · exact BitVec.eq_of_toNat_eq (by rw [BitVec.toNat_ofNat]; omega)

/-- A field of n bytes that follows a prefix. -/
theorem memRead_append (pre post : List Byte) (n : Nat) :
    memRead (pre ++ post) pre.length n = bigEndian (post.take n) := by
  rw [memRead, List.drop_left]

/-- A byte that stands i bytes after a prefix. -/
theorem byteAt_append (pre post : List Byte) (i : Nat) :
    byteAt (pre ++ post) (pre.length + i) = post.getD i 0 := by
  rw [byteAt, List.getD_append_right _ _ _ _ (Nat.le_add_right _ _), Nat.add_sub_cancel_left]

/-- Any bytes long enough for their own symbol_count are the blob of a list of entries. -/
theorem exists_blobOfEntries {b : List Byte} (h3 : 3 ≤ b.length)
    (hb : 3 + 2 * memRead b 1 2 ≤ b.length) :
    ∃ es after, b = blobOfEntries (byteAt b 0) es after ∧ es.length = memRead b 1 2 := by
  match b with
  | v :: hi :: lo :: rest =>
    have hc : memRead (v :: hi :: lo :: rest) 1 2 = bigEndian [hi, lo] := rfl
    rw [hc] at hb ⊢
    obtain ⟨es, after, rfl, hes⟩ := exists_entryBytes (bigEndian [hi, lo]) rest (by
      simp only [List.length_cons] at hb
      omega)
    refine ⟨es, after, ?_, hes⟩
    rw [blobOfEntries_table, hes, bigEndianBytes_bigEndian_pair]
    rfl

/-! #### `parse` on the blob of a list of entries -/

/-- A count of at most 256 entries is read back (R212). -/
theorem memRead_symbolCount (v : Byte) {es : List (Symbol × Byte)} (after : List Byte)
    (h : es.length ≤ 256) : memRead (blobOfEntries v es after) 1 2 = es.length := by
  have hcount := memRead_append [v] (bigEndianBytes es.length 2 ++ (entryBytes es ++ after)) 2
  rw [List.take_left' (bigEndianBytes_length _ _), bigEndian_bigEndianBytes,
    Nat.mod_eq_of_lt (by omega)] at hcount
  rw [← hcount]
  simp [blobOfEntries_table]

/-- The entries are read from offset 3 (R212). -/
theorem readTable_blobOfEntries (v : Byte) (es : List (Symbol × Byte)) (after : List Byte)
    (p : Table Bool) (l : Table Byte) :
    readTable (blobOfEntries v es after) es.length 3 p l = loadEntries es p l := by
  rw [← readTable_entries ([v] ++ bigEndianBytes es.length 2) after es p l]
  simp [blobOfEntries_table]

/-- `parse` on a blob with its own version: the entries, the test of R215, the fields after them. -/
theorem parse_blobOfEntries (v : Byte) {es : List (Symbol × Byte)} (after : List Byte)
    (h : es.length ≤ 256) :
    parse v (blobOfEntries v es after) = (do
      let r ← loadEntries es (Table.const false) (Table.const 0)
      if legalLengths es.length r.1 r.2 then
        parseFixed (blobOfEntries v es after) es.length r.1 r.2
      else .error .corruptSymbolTable) := by
  have hlen := blobOfEntries_length v es after
  have hv : byteAt (blobOfEntries v es after) 0 = v := rfl
  rw [parse, if_neg (by omega), hv, if_neg (not_not_intro rfl), if_neg (by omega)]
  simp only [memRead_symbolCount v after h, readTable_blobOfEntries]
  rw [if_neg (by omega), if_neg (by omega)]
  cases loadEntries es (Table.const false) (Table.const 0) <;> rfl

/-- The fields after the table of a blob: what follows it decides (R212, R216). -/
theorem parseFixed_blobOfEntries (v : Byte) (es : List (Symbol × Byte)) (after : List Byte)
    (p : Table Bool) (l : Table Byte) :
    parseFixed (blobOfEntries v es after) es.length p l =
      if after.length < 9 then .error .corruptHeader
      else if es = [] ∧ 0 < bigEndian (after.take 8) then .error .corruptSymbolTable
      else if 7 < (after.getD 8 0).toNat then .error .invalidPadding
      else if after.length = 9 ∧ 0 < (after.getD 8 0).toNat then .error .invalidPadding
      else .ok
        { pres := p, len := l, nsym := es.length, origlen := bigEndian (after.take 8),
          pad := (after.getD 8 0).toNat, payoff := 12 + 2 * es.length } := by
  have hpre : (blobOfEntries v es []).length = 3 + 2 * es.length := blobOfEntries_length v es []
  have hn : memRead (blobOfEntries v es after) (3 + 2 * es.length) 8 = bigEndian (after.take 8) := by
    rw [blobOfEntries_append, ← hpre, memRead_append]
  have hpad : byteAt (blobOfEntries v es after) (11 + 2 * es.length) = after.getD 8 0 := by
    rw [blobOfEntries_append, ← byteAt_append (blobOfEntries v es []), hpre]
    congr 1
    omega
  have hshort : 3 + 2 * es.length + after.length < 12 + 2 * es.length ↔ after.length < 9 := by omega
  simp only [parseFixed, hn, hpad, blobOfEntries_length, gt_iff_lt, List.length_eq_zero_iff, hshort]
  split
  · rfl
  · next h9 =>
    have hlast : 3 + 2 * es.length + after.length - (12 + 2 * es.length) = 0 ↔ after.length = 9 := by
      omega
    simp only [hlast]

/-- The entries are loaded into empty tables when no symbol stands twice, and what they give is the set of
their symbols and the length beside each (R212, R214). -/
theorem loadEntries_empty_ok {es : List (Symbol × Byte)} {p : Table Bool} {l : Table Byte} :
    loadEntries es (Table.const false) (Table.const 0) = .ok (p, l) ↔
      (es.map (·.1)).Nodup ∧ (∀ x, p.get x = true ↔ x ∈ es.map (·.1)) ∧
        ∀ x, l.get x = (es.lookup x).getD 0 := by
  by_cases hn : (es.map (·.1)).Nodup
  case neg =>
    rw [loadEntries_error fun h => hn h.1]
    simp [hn]
  case pos =>
    obtain ⟨p', l', hok, hp, hl⟩ := loadEntries_ok (p := Table.const false) (l := Table.const 0) hn
      (by simp)
    simp only [Table.get_const, Bool.false_eq_true, or_false] at hp hl
    rw [hok, Except.ok.injEq, Prod.mk.injEq, iff_true_intro hn, true_and]
    constructor
    · rintro ⟨rfl, rfl⟩
      exact ⟨hp, hl⟩
    · rintro ⟨hp', hl'⟩
      exact ⟨Table.ext_get fun x => Bool.eq_iff_iff.mpr ((hp x).trans (hp' x).symm),
        Table.ext_get fun x => (hl x).trans (hl' x).symm⟩

/-- As many symbols are present as there are entries, if no symbol stands twice. -/
theorem presentCount_of_entries {es : List (Symbol × Byte)} {p : Table Bool}
    (hn : (es.map (·.1)).Nodup) (hp : ∀ x, p.get x = true ↔ x ∈ es.map (·.1)) :
    presentCount p = es.length := by
  have hperm : (presentSymbols p).Perm (es.map (·.1)) :=
    (List.perm_ext_iff_of_nodup (presentSymbols_nodup p) hn).mpr fun x => by
      rw [mem_presentSymbols, hp]
  rw [presentCount, hperm.length_eq, List.length_map]

/-- The test of rule R215 on the tables of a list of entries is the legality of the tables. -/
theorem legalLengths_entries {es : List (Symbol × Byte)} {p : Table Bool} {l : Table Byte}
    (hn : (es.map (·.1)).Nodup) (hp : ∀ x, p.get x = true ↔ x ∈ es.map (·.1))
    (hl : ∀ x, l.get x = (es.lookup x).getD 0) :
    legalLengths es.length p l = true ↔ LegalTable p l := by
  have hcount := presentCount_of_entries hn hp
  refine ⟨fun h => ?_, fun h => hcount ▸ legalLengths_of h⟩
  obtain ⟨hsingle, hpos, hkraft⟩ := (legalLengths_iff _ _ _).mp h
  rw [← hcount] at hsingle hpos hkraft
  refine ⟨fun x hx => ?_, hpos, hkraft, hsingle⟩
  have hx' : ∀ e ∈ es, (x == e.1) = false := fun e he => beq_false_of_ne fun heq => by
    simp [(hp x).mpr (heq ▸ List.mem_map_of_mem he)] at hx
  rw [hl, List.lookup_eq_none_iff.mpr (by simpa using hx'), Option.getD_none]

/-- A byte that stands in a list, as the number it is. -/
theorem getElem?_eq_some_ofNat {bs : List Byte} {i n : Nat} (hi : i < bs.length) (hn : n < 256) :
    bs[i]? = some (BitVec.ofNat 8 n) ↔ (bs.getD i 0).toNat = n := by
  rw [List.getD_eq_getElem?_getD, List.getElem?_eq_getElem hi, Option.some_inj, Option.getD_some]
  constructor
  · intro h
    rw [h, BitVec.toNat_ofNat, Nat.mod_eq_of_lt hn]
  · rintro rfl
    rw [BitVec.ofNat_toNat, BitVec.setWidth_eq]

/-- When the fields after the table are accepted, and what is returned then (R212, R216). -/
theorem parseFixed_blobOfEntries_ok {v : Byte} {es : List (Symbol × Byte)} {after : List Byte}
    {p : Table Bool} {l : Table Byte} {r : Parsed} :
    parseFixed (blobOfEntries v es after) es.length p l = .ok r ↔
      r.pres = p ∧ r.len = l ∧ 9 ≤ after.length ∧
        r.nsym = es.length ∧ r.origlen = bigEndian (after.take 8) ∧
        after[8]? = some (BitVec.ofNat 8 r.pad) ∧ r.pad ≤ 7 ∧ r.payoff = 12 + 2 * es.length ∧
        (es = [] → r.origlen = 0) ∧ (after.length = 9 → r.pad = 0) := by
  rw [parseFixed_blobOfEntries]
  constructor
  · intro h
    split_ifs at h with h9 hzero hpad hlast
    cases h
    exact ⟨rfl, rfl, Nat.le_of_not_lt h9, rfl, rfl,
      (getElem?_eq_some_ofNat (by omega) (BitVec.isLt _)).mpr rfl, Nat.le_of_not_lt hpad, rfl,
      fun he => Nat.eq_zero_of_not_pos fun hpos => hzero ⟨he, hpos⟩,
      fun ha => Nat.eq_zero_of_not_pos fun hpos => hlast ⟨ha, hpos⟩⟩
  · rintro ⟨rfl, rfl, h9, hnsym, horiglen, hbyte, hpad, hpayoff, hzero, hlast⟩
    rw [getElem?_eq_some_ofNat h9 (by omega)] at hbyte
    rw [← hpayoff, ← hnsym, ← horiglen, hbyte, if_neg (by omega),
      if_neg fun h => Nat.ne_of_gt h.2 (hzero h.1), if_neg (by omega),
      if_neg fun h => Nat.ne_of_gt h.2 (hlast h.1)]

/-- What the first tests of `parse` say of a blob that it accepts (R212). -/
theorem parse_header {v : Byte} {b : List Byte} {r : Parsed} (h : parse v b = .ok r) :
    byteAt b 0 = v ∧ 3 ≤ b.length ∧ memRead b 1 2 ≤ 256 ∧ 3 + 2 * memRead b 1 2 ≤ b.length := by
  rw [parse] at h
  split_ifs at h with h1 hv h3
  dsimp only at h
  split_ifs at h with hc hl
  exact ⟨not_not.mp hv, Nat.le_of_not_lt h3, Nat.le_of_not_lt hc, Nat.le_of_not_lt hl⟩

/-- An accepted blob is the blob of at most 256 entries, with the version it was asked for. -/
theorem parse_ok_blobOfEntries {v : Byte} {b : List Byte} {r : Parsed} (h : parse v b = .ok r) :
    ∃ es after, b = blobOfEntries v es after ∧ es.length ≤ 256 := by
  obtain ⟨rfl, h3, hc, hb⟩ := parse_header h
  obtain ⟨es, after, hblob, hes⟩ := exists_blobOfEntries h3 hb
  exact ⟨es, after, hblob, hes ▸ hc⟩

/-- When the blob of a list of entries is accepted: the entries, the test of R215, the last fields. -/
theorem parse_blobOfEntries_ok {v : Byte} {es : List (Symbol × Byte)} {after : List Byte}
    {r : Parsed} (h : es.length ≤ 256) :
    parse v (blobOfEntries v es after) = .ok r ↔
      loadEntries es (Table.const false) (Table.const 0) = .ok (r.pres, r.len) ∧
        legalLengths es.length r.pres r.len = true ∧
        parseFixed (blobOfEntries v es after) es.length r.pres r.len = .ok r := by
  rw [parse_blobOfEntries v after h, except_bind_ok]
  constructor
  · rintro ⟨⟨p, l⟩, hload, hrest⟩
    split_ifs at hrest with hleg
    obtain ⟨rfl, rfl, -⟩ := parseFixed_blobOfEntries_ok.mp hrest
    exact ⟨hload, hleg, hrest⟩
  · rintro ⟨hload, hleg, hfixed⟩
    exact ⟨_, hload, by rw [if_pos hleg, hfixed]⟩

/-- Settles O49: what is accepted is the blob of a list of entries, and on such a blob `parse` asks that the
entries load, that the tables they give pass the test of R215, and that the last fields are accepted. -/
theorem parseAcceptsExactly : Obligations.ParseAcceptsExactly := by
  intro v b r
  constructor
  · intro h
    obtain ⟨es, after, rfl, hes⟩ := parse_ok_blobOfEntries h
    obtain ⟨hload, hleg, hfixed⟩ := (parse_blobOfEntries_ok hes).mp h
    obtain ⟨hn, hp, hl⟩ := loadEntries_empty_ok.mp hload
    obtain ⟨-, -, h9, hfields⟩ := parseFixed_blobOfEntries_ok.mp hfixed
    exact ⟨es, after, rfl, hes, hn, h9, hp, hl, (legalLengths_entries hn hp hl).mp hleg, hfields⟩
  · rintro ⟨es, after, rfl, hes, hn, h9, hp, hl, hleg, hfields⟩
    exact (parse_blobOfEntries_ok hes).mpr ⟨loadEntries_empty_ok.mpr ⟨hn, hp, hl⟩,
      (legalLengths_entries hn hp hl).mpr hleg,
      parseFixed_blobOfEntries_ok.mpr ⟨rfl, rfl, h9, hfields⟩⟩

end Sys2Proof.Machine

/-! ### Command words, and the CMD write (R80 to R84, R96, R97) -/

namespace Sys2Proof

/-! #### Decoding and the operation table -/

theorem Instr.mem_all (i : Instr) : i ∈ Instr.all := by
  cases i <;> decide

/-- An OP number is the number of exactly one command (R83). -/
theorem opOfNumber_ok {n : Nat} {i : Instr} : opOfNumber n = .ok i ↔ n = (encode i).toNat := by
  constructor
  · intro h
    unfold opOfNumber at h
    split at h <;> cases h <;> rfl
  · rintro rfl
    cases i <;> rfl

theorem encode_le (i : Instr) : encode i ≤ 0x0000000A := by
  cases i <;> decide

theorem opField_toNat (w : Word32) : (opField w).toNat = w.toNat % 256 := by
  simp [opField, BitVec.extractLsb'_toNat]

theorem zeroField_eq_zero {w : Word32} : zeroField w = 0 ↔ w.toNat < 256 := by
  have hw := w.isLt
  have hz : (zeroField w).toNat = w.toNat / 256 := by
    rw [zeroField, BitVec.extractLsb'_toNat, Nat.shiftRight_eq_div_pow, Nat.mod_eq_of_lt (by omega)]
  rw [← BitVec.toNat_inj, hz]
  exact Nat.div_eq_zero_iff_lt (by decide)

/-- A word decodes to the command whose word it is (R80, R83). -/
theorem decode_eq_ok {w : Word32} {i : Instr} : decode w = .ok i ↔ w = encode i := by
  have hi : (encode i).toNat ≤ 10 := encode_le i
  rw [← BitVec.toNat_inj, decode]
  split
  case isTrue hz =>
    rw [Ne, zeroField_eq_zero] at hz
    exact iff_of_false nofun (by omega)
  case isFalse hz =>
    rw [not_not, zeroField_eq_zero] at hz
    rw [opOfNumber_ok, opField_toNat, Nat.mod_eq_of_lt hz]

/-- The words up to 0x0000000A are those of the commands (R83). -/
theorem exists_encode {w : Word32} (h : w ≤ 0x0000000A) : ∃ i, w = encode i := by
  have hwords : ∀ n < 11, ∃ i ∈ Instr.all, encode i = BitVec.ofNat 32 n := by decide
  obtain ⟨i, -, hi⟩ := hwords w.toNat (Nat.lt_succ_of_le h)
  exact ⟨i, by rw [hi, BitVec.ofNat_toNat, BitVec.setWidth_eq]⟩

theorem decode_illegal {w : Word32} (h : 0x0000000A < w) : ∃ x, decode w = .error x := by
  cases hd : decode w with
  | ok i =>
    rw [decode_eq_ok] at hd
    exact absurd (hd ▸ encode_le i) (BitVec.not_le.mpr h)
  | error x => exact ⟨x, rfl⟩

/-- Each row of the operation table matches the whole word of its command (R83). -/
theorem opTable_eq : opTable = Instr.all.map fun i => ⟨encode i, BitVec.allOnes 32, i⟩ := by decide

theorem selects_allOnes {w m : Word32} {i : Instr} :
    OpRow.selects ⟨m, BitVec.allOnes 32, i⟩ w = true ↔ w = m := by
  rw [OpRow.selects, BitVec.and_allOnes, beq_iff_eq]

/-- Settles O2: the decoder's two fields are the whole word, and the OP numbers are the words of R83. -/
theorem decodeAndEncodeAgree : Obligations.DecodeAndEncodeAgree := fun _ _ => decode_eq_ok

/-- Settles O1: the row of a command selects its word alone. -/
theorem decodeFollowsOperationTable : Obligations.DecodeFollowsOperationTable := by
  intro w i
  rw [decode_eq_ok, opTable_eq]
  constructor
  · intro hw
    exact ⟨_, List.mem_map_of_mem (Instr.mem_all i), selects_allOnes.mpr hw, rfl⟩
  · rintro ⟨r, hr, hsel, hi⟩
    obtain ⟨j, -, rfl⟩ := List.mem_map.mp hr
    obtain rfl : j = i := hi
    exact selects_allOnes.mp hsel

end Sys2Proof

namespace Sys2Proof.Machine

/-- Settles O3: each word of the table is the word of its command, and a `cmd` line writes that word. -/
theorem commandWordsOfTheTable : Obligations.CommandWordsOfTheTable :=
  have word {w : Word32} {i : Instr} (h : w = encode i) : decode w = .ok i := decode_eq_ok.mpr h
  ⟨word rfl, word rfl, word rfl, word rfl, word rfl, word rfl, word rfl, word rfl, word rfl,
    word rfl, word rfl, rfl, rfl, fun _ => rfl⟩

variable {s : State}

/-! #### A write to CMD -/

/-- A CMD write on an idle machine runs the command of the word's low 32 bits (R81). -/
theorem stepOn_cmdWrite (h : s.status.busy = false) (v : Word64) :
    stepOn (.regWrite 0x0000 v) s = (s.accept (v.setWidth 32)).runCommand := by
  rw [stepOn_eq, hostEvent, hostRegWrite_cmd h]

/-- The same for a word extended to the width of the register write. -/
theorem stepOn_cmdWrite_word (h : s.status.busy = false) (w : Word32) :
    stepOn (.regWrite 0x0000 (w.setWidth 64)) s = (s.accept w).runCommand := by
  rw [stepOn_cmdWrite h, BitVec.setWidth_setWidth_of_le _ (by decide), BitVec.setWidth_eq]

/-- The command in CMD, or the illegal word there, ends (R81, R246). -/
theorem State.runCommand_ends (s : State) :
    ∃ t, s.runCommand = .next t ∧ t.status.busy = false ∧ t.status.done = true := by
  cases hd : decode s.cmd with
  | ok i =>
    rw [State.runCommand_of_decode hd, exec_eq_conclude]
    rcases conclude_cases s (effect i s) with ⟨u, -, hc⟩ | ⟨e, -, hc⟩
    · exact ⟨u.finish, hc, by simp, by simp⟩
    · exact ⟨s.raise e, hc, by simp, by simp⟩
  | error x => exact ⟨_, State.runCommand_of_illegal hd, by simp, by simp⟩

/-- Settles O5: the accepted write leads to the state named, where the word decides what runs. -/
theorem stepRunsTheDecodedCommand : Obligations.StepRunsTheDecodedCommand := by
  intro s v h
  dsimp only
  rw [stepOn_cmdWrite h]
  exact ⟨fun i hd => State.runCommand_of_decode (s := s.accept _) hd,
    fun x hd => State.runCommand_of_illegal (s := s.accept _) hd, State.runCommand_ends _⟩

/-- Settles O6: the started command waits in the accepted state, from which its end runs it. -/
theorem startAndEndAreTheAtomicWrite : Obligations.StartAndEndAreTheAtomicWrite := by
  intro s w i h hd
  have hend : engineEnd (s.accept w) = (s.accept w).runCommand := engineEnd_busy (by simp)
  rw [stepOn_cmdWrite_word h]
  refine ⟨s.accept w, hostCmdStart_ok h hd, by simp, hend, fun hp => ?_⟩
  rw [step_nil (by simpa using hp), hend]

/-- Settles O4: the commands have the words up to 0x0000000A, and another word ends by `raise` in the
accepted state. -/
theorem illegalWordRaisesIllegalCommand : Obligations.IllegalWordRaisesIllegalCommand := by
  refine ⟨fun w hw => (exists_encode hw).imp fun i => decode_eq_ok.mpr, fun s w h hw => ?_⟩
  obtain ⟨x, hx⟩ := decode_illegal hw
  refine ⟨(s.accept w).raise .illegalCommand, ?_, rfl, rfl, rfl, rfl, rfl, rfl, ⟨rfl, rfl, rfl⟩, rfl,
    rfl, rfl, rfl, fun _ => rfl, rfl, rfl⟩
  rw [stepOn_cmdWrite_word h]
  exact State.runCommand_of_illegal hx

/-! ### The format version (R88) -/

/-- Bytes that begin with another version are refused, whatever follows (R88, R212). -/
theorem parse_other_version {v x : Byte} (rest : List Byte) (h : x ≠ v) :
    parse v (x :: rest) = .error .unsupportedFormatVersion := by
  have hx : byteAt (x :: rest) 0 ≠ v := h
  rw [parse, if_neg (by simp), if_pos hx]

/-- The version is the first byte of a blob (R85, R192). -/
theorem blob_head? (v : Byte) (pres : Table Bool) (len : Table Byte) (nsym n pad : Nat)
    (q : List Byte) : (blob v pres len nsym n pad q).head? = some v := by
  simp [blob]

/-- Settles O51: `parse` is the first thing of PARSE and DECODE that can fail on such an input, and the
outputs of SERIALIZE and ENCODE are blobs. -/
theorem otherVersionsAreRefused : Obligations.OtherVersionsAreRefused := by
  refine ⟨fun s x rest hcap hin hx => ?_, fun i s t hi h herr => ?_⟩
  · have hparse : parse s.cfg.formatVersion s.input = .error .unsupportedFormatVersion :=
      hin ▸ parse_other_version rest hx
    exact ⟨exec_of_effect_error (parseEffect_error.mpr (.inr ⟨hcap, hparse⟩)),
      exec_of_effect_error (decodeEffect_error.mpr (.inr ⟨hcap, .inl hparse⟩))⟩
  · rcases exec_cases h with ⟨u, hu, rfl⟩ | ⟨e, -, rfl⟩
    · rcases hi with rfl | rfl
      · obtain ⟨-, -, -, hfit, rfl⟩ := serializeEffect_ok.mp hu
        rw [State.outputBytes_of (bytes := s.serialized) (by simp)
          (by simpa using toNat_ofNat_of_le hfit)]
        exact blob_head? ..
      · obtain ⟨-, hfit, rfl⟩ := encodeEffect_ok.mp hu
        rw [State.outputBytes_of (bytes := s.encoded) (by simp)
          (by simpa using toNat_ofNat_of_le hfit)]
        exact blob_head? ..
    · simp at herr

end Sys2Proof.Machine

/-! ### ANALYZE (R111 to R113) -/

namespace Sys2Proof.Machine

variable {s t : State}

/-- With IBUF_LEN within IBUF_CAP, ANALYZE ends with the counts of the input and its length (R112). -/
theorem exec_analyze_next (h : s.ibufLen ≤ s.cfg.ibufCap) :
    exec .analyze s =
      .next (State.finish { s with freq := count s.input, origlen := s.ibufLen }) :=
  exec_of_effect_ok (analyzeEffect_ok.mpr ⟨h, by rw [countLoop_eq]⟩)

/-- An ANALYZE that ends without error has written the counts of the input and its length (R112). -/
theorem analyze_writes (h : exec .analyze s = .next t) (herr : t.status.err = false) :
    t.freq = count s.input ∧ t.origlen = s.ibufLen := by
  rcases exec_cases h with ⟨u, hu, rfl⟩ | ⟨e, -, rfl⟩
  · obtain ⟨-, rfl⟩ := analyzeEffect_ok.mp hu
    exact ⟨countLoop_eq s.input, rfl⟩
  · simp at herr

/-- The counter of a symbol does not overflow: an input has fewer than 2^64 bytes (R113). -/
theorem count_input_toNat (s : State) (x : Symbol) :
    ((count s.input).get x).toNat = s.input.count x :=
  count_get_toNat (by rw [State.input_length]; exact s.ibufLen.isLt) x

/-- Each byte of a sequence is counted for exactly one symbol (R113). -/
theorem sum_count_allSymbols (d : List Byte) :
    (allSymbols.map fun x => d.count x).sum = d.length := by
  have h := Multiset.sum_count_eq_card (m := (d : Multiset Byte)) fun x _ =>
    List.mem_toFinset.mpr (mem_allSymbols x)
  simpa only [List.sum_toFinset _ allSymbols_nodup, Multiset.coe_count, Multiset.coe_card] using h

/-- The counts do not depend on the order of the bytes (R113). -/
theorem count_eq_of_perm {d d' : List Byte} (h : d.Perm d') : count d = count d' :=
  Table.ext_get fun x => by rw [count, count, Table.get_tabulate, Table.get_tabulate, h.count_eq]

/-- Settles O25: IBUF_LEN is compared with IBUF_CAP first, and what ANALYZE leaves alone is its row of
R44. -/
theorem analyzeResult : Obligations.AnalyzeResult := by
  refine ⟨decode_eq_ok.mpr rfl, fun s => ⟨fun hcap => ?_, fun hcap => ?_⟩⟩
  · exact exec_of_effect_error (analyzeEffect_error.mpr ⟨hcap, rfl⟩)
  · have hnext := exec_analyze_next hcap
    obtain ⟨hhost, -, htables, hcodes, -, hpad, hpayoff, hout, -⟩ := commandFrames _ _ _ hnext
    exact ⟨_, hnext, rfl, count_input_toNat s, rfl, hhost, htables (by decide),
      (hcodes (by decide)).1, hpad (by decide), hpayoff (by decide), hout (by decide) rfl⟩

/-- Settles O26: FREQ is the count table of the input, whose entries sum to the length of the input and
are the same for every order of its bytes. -/
theorem analyzeTotals : Obligations.AnalyzeTotals := by
  constructor
  · intro s t h herr
    obtain ⟨hfreq, hlen⟩ := analyze_writes h herr
    refine ⟨?_, hlen⟩
    simp only [hfreq, hlen, count_input_toNat, sum_count_allSymbols, State.input_length]
  · intro s s' t t' hperm h h' herr herr'
    rw [(analyze_writes h herr).1, (analyze_writes h' herr').1, count_eq_of_perm hperm]

end Sys2Proof.Machine

/-! ### BUILD (R121 to R132) -/

namespace Sys2Proof.Machine

/-! #### The code lengths (R126, R130) -/

/-- Settles O30: the symbols are those counted, and from two on their lengths are the depths of the leaves
of a tree in which every internal node has two children. -/
theorem lengthsAreACompleteCode : Obligations.LengthsAreACompleteCode := by
  intro f
  refine ⟨lengths_presentCount f, lengths_pres f, lengths_legal f, fun h x hx => ?_,
    fun h x hx => ?_, lengths_kraft⟩
  · obtain ⟨x₀, hf⟩ := List.length_eq_one_iff.mp h
    have hm := mem_countedSymbols.mpr ((lengths_pres f x).mp hx)
    rw [hf, List.mem_singleton] at hm
    exact lengths_len_single (hm ▸ hf)
  · have hx := (lengths_pres f x).mp hx
    rw [lengths_len h hx]
    obtain ⟨hpos, hle, -⟩ := depth_range h hx
    exact ⟨hpos, hle⟩

/-! #### One merge step (R122, R123) -/

section Merge

variable {t : Tree} {a b x : NodeSlot} {i : Nat}

/-- The nodes of a tree after two of them are adopted: those two as dead children, the others as
they were (R123). -/
theorem mem_map_adopt (hn : (t.map (·.slot)).Nodup) (ha : a ∈ t) (hb : b ∈ t) :
    x ∈ t.map (adopt a.slot b.slot i) ↔
      x = { a with alive := false, par := some i } ∨ x = { b with alive := false, par := some i } ∨
        (x ∈ t ∧ x ≠ a ∧ x ≠ b) := by
  have hslot : ∀ {y z}, y ∈ t → z ∈ t → (y.slot = z.slot ↔ y = z) := fun hy hz =>
    ⟨List.inj_on_of_nodup_map hn hy hz, congrArg _⟩
  have hadopt : ∀ y ∈ t, adopt a.slot b.slot i y =
      if y = a ∨ y = b then { y with alive := false, par := some i } else y := fun y hy => by
    simp only [adopt, hslot hy ha, hslot hy hb]
  rw [List.mem_map]
  constructor
  · rintro ⟨y, hy, rfl⟩
    rw [hadopt y hy]
    split
    case isTrue h =>
      rcases h with rfl | rfl
      · exact .inl rfl
      · exact .inr (.inl rfl)
    case isFalse h => exact .inr (.inr ⟨hy, not_or.mp h⟩)
  · rintro (rfl | rfl | ⟨hx, hxa, hxb⟩)
    · exact ⟨a, ha, by rw [hadopt a ha, if_pos (.inl rfl)]⟩
    · exact ⟨b, hb, by rw [hadopt b hb, if_pos (.inr rfl)]⟩
    · exact ⟨x, hx, by rw [hadopt x hx, if_neg (not_or.mpr ⟨hxa, hxb⟩)]⟩

/-- A step that adopts two alive nodes and adds an alive one leaves one alive node fewer (R123). -/
theorem aliveNodes_length_adopt (hn : (t.map (·.slot)).Nodup) (ha : a ∈ t.aliveNodes)
    (hb : b ∈ t.aliveNodes) (hab : a.slot ≠ b.slot) (hx : x.alive = true) :
    (Tree.aliveNodes (t.map (adopt a.slot b.slot i) ++ [x])).length + 1 = t.aliveNodes.length := by
  rw [(aliveNodes_perm hn ha hb hab).length_eq, Tree.aliveNodes, List.filter_append,
    ← Tree.aliveNodes, aliveNodes_adopt, List.filter_cons_of_pos hx, List.length_append]
  rfl

end Merge

/-- Settles O28: the two nodes that a merge step takes are adopted by the node that it adds. -/
theorem mergeTakesTheTwoLightest : Obligations.MergeTakesTheTwoLightest := by
  intro t k hn _ h2
  obtain ⟨a, b, ha, hb, hab, hfirst, hsecond, hmerge⟩ := merge_spec k hn h2
  have hslot : ∀ {y z}, y ∈ t.aliveNodes → z ∈ t.aliveNodes → y ≠ z → y.slot ≠ z.slot :=
    fun hy hz hne he =>
      hne (List.inj_on_of_nodup_map hn (List.mem_of_mem_filter hy) (List.mem_of_mem_filter hz) he)
  refine ⟨a, b, ha, hb, fun he => hab (congrArg _ he), fun x hx hxa => ?_, fun x hx hxa hxb => ?_,
    fun x => ?_, ?_⟩
  · exact (nodePrecedes_iff a x).mp (hfirst x hx (hslot hx ha hxa))
  · exact (nodePrecedes_iff b x).mp (hsecond x hx (hslot hx ha hxa) (hslot hx hb hxb))
  · rw [hmerge, List.mem_append, mem_map_adopt hn (List.mem_of_mem_filter ha)
      (List.mem_of_mem_filter hb), List.mem_singleton, or_comm]
  · rw [hmerge]
    exact aliveNodes_length_adopt hn ha hb hab rfl

/-! #### The nodes of the forest (R123, R124) -/

section Forest

variable {ls : List Nat} {total k : Nat} {t : Tree}

/-- The slots in use are below 256 + k (R121, R123). -/
theorem TreeOk.slot_lt (h : TreeOk ls total k t) (hb : ∀ s ∈ ls, s < 256) {x : NodeSlot}
    (hx : x ∈ t) : x.slot < 256 + k := by
  have hm := List.mem_map_of_mem (f := (·.slot)) hx
  rw [h.slots, List.mem_append, List.mem_map] at hm
  rcases hm with hleaf | ⟨j, hj, he⟩
  · exact Nat.lt_add_right k (hb _ hleaf)
  · rw [← he]
    exact Nat.add_lt_add_left (List.mem_range.mp hj) 256

/-- A parent is a node of the tree memory (R123). -/
theorem TreeOk.parent_mem (h : TreeOk ls total k t) {x p : Nat} (hp : t.parentOf x = some p) :
    p ∈ t.map (·.slot) := by
  obtain ⟨-, hge, hlt⟩ := parentOf_bound h hp
  rw [h.slots]
  exact List.mem_append_right _
    (List.mem_map.mpr ⟨p - 256, List.mem_range.mpr (by omega), by omega⟩)

/-- The node made by the last merge step is alive: a parent would stand in a higher slot. -/
theorem TreeOk.last_alive (h : TreeOk ls total (k + 1) t) :
    ∃ x ∈ t.aliveNodes, x.slot = 256 + k := by
  have hm : 256 + k ∈ t.map (·.slot) := by
    rw [h.slots]
    exact List.mem_append_right _ (List.mem_map_of_mem (List.mem_range.mpr (Nat.lt_succ_self k)))
  obtain ⟨x, hx, hslot⟩ := List.mem_map.mp hm
  refine ⟨x, List.mem_filter.mpr ⟨hx, (h.aliveIff x hx).mpr ?_⟩, hslot⟩
  cases hp : x.par with
  | none => rfl
  | some p =>
    have := h.parBound x hx p hp
    omega

/-- Following the parent links from a slot, as `depth` does, ends at an alive node if the links run out
before the fuel (R125). -/
theorem TreeOk.exists_path_to_alive (h : TreeOk ls total k t) (hn : (t.map (·.slot)).Nodup)
    (fuel : Nat) {x : Nat} (hx : x ∈ t.map (·.slot)) (hd : t.depth fuel x < fuel) :
    ∃ path : List Nat, path.length = t.depth fuel x ∧
      List.IsChain (fun a b => t.parentOf a = some b) (x :: path) ∧
      ∃ r ∈ t.aliveNodes, (x :: path).getLast? = some r.slot := by
  induction fuel generalizing x with
  | zero => exact absurd hd (Nat.not_lt_zero _)
  | succ fuel ih =>
    rw [Tree.depth] at hd ⊢
    cases hp : t.parentOf x with
    | none =>
      obtain ⟨r, hr, rfl⟩ := List.mem_map.mp hx
      have halive := (h.aliveIff r hr).mpr ((parentOf_of_mem hn hr).symm.trans hp)
      exact ⟨[], rfl, .singleton _, r, List.mem_filter.mpr ⟨hr, halive⟩, rfl⟩
    | some p =>
      rw [hp] at hd
      obtain ⟨path, hlen, hchain, r, hr, hlast⟩ := ih (h.parent_mem hp) (Nat.lt_of_succ_lt_succ hd)
      exact ⟨p :: path, congrArg Nat.succ hlen, .cons_cons hp hchain, r, hr,
        by rw [List.getLast?_cons_cons, hlast]⟩

end Forest

/-! #### The tree of a frequency table (R124, R125, R132) -/

/-- Symbols without a count add nothing to the sum of all counts. -/
theorem freqTotal_eq_sum (f : Table Word64) :
    freqTotal f = (allSymbols.map fun x => (f.get x).toNat).sum := by
  rw [freqTotal, countedSymbols, Table.symbolsWhere_eq]
  induction allSymbols with
  | nil => rfl
  | cons x xs ih =>
    by_cases hx : f.get x = 0
    · rw [List.filter_cons_of_neg (by simp [hx]), List.map_cons, List.sum_cons, ih, hx]
      exact (Nat.zero_add _).symm
    · rw [List.filter_cons_of_pos (by simpa using hx), List.map_cons, List.sum_cons, ih,
        List.map_cons, List.sum_cons]

/-- The root of the tree of one or more symbols (R124). -/
theorem treeOf_root {f : Table Word64} (h : countedSymbols f ≠ []) :
    ∃ r, (treeOf f).aliveNodes = [r] ∧ r.par = none ∧ r.w.toNat = freqTotal f := by
  obtain ⟨hok, hone⟩ := treeOf_ok f h
  obtain ⟨r, hr⟩ := List.length_eq_one_iff.mp hone
  obtain ⟨hmem, halive⟩ : r ∈ treeOf f ∧ r.alive = true :=
    List.mem_filter.mp (show r ∈ (treeOf f).aliveNodes by rw [hr]; exact List.mem_singleton_self r)
  refine ⟨r, hr, (hok.aliveIff r hmem).mp halive, ?_⟩
  rw [← hok.weight, hr]
  exact (Nat.add_zero _).symm

/-- Settles O29: the forest after any number of merge steps satisfies `TreeOk`, and so does the tree, of
which one node is alive. -/
theorem treeHasOneRoot : Obligations.TreeHasOneRoot := by
  intro f
  dsimp only
  rw [← freqTotal_eq_sum]
  refine ⟨freqTotal_lt f, fun j => ?_, fun hpos => ?_⟩
  · obtain ⟨k, hok, hk, -⟩ :=
      mergeAll_ok (leaves_nodup f) (leaves_lt f) (freqTotal_lt f) j 0 _ (leaves_ok f)
    refine ⟨hok.nodup (leaves_nodup f) (leaves_lt f), fun x hx => ?_⟩
    have := hok.slot_lt (leaves_lt f) hx
    omega
  · have hne : countedSymbols f ≠ [] := List.length_pos_iff.mp hpos
    obtain ⟨hok, -⟩ := treeOf_ok f hne
    obtain ⟨r, hr, hpar, hw⟩ := treeOf_root hne
    refine ⟨?_, r, hr, hpar, hw, fun h2 => ?_⟩
    · have hlen := congrArg List.length hok.slots
      simp only [List.length_map, List.length_append, List.length_range] at hlen
      omega
    · rw [show (countedSymbols f).length - 1 = (countedSymbols f).length - 2 + 1 by omega] at hok
      obtain ⟨x, hx, hslot⟩ := hok.last_alive
      rw [hr, List.mem_singleton] at hx
      exact hx ▸ hslot

/-- Settles O31: the length of a symbol is the depth of its leaf, and the links that `depth` counts end at
the one alive node. -/
theorem codeLengthIsTheDepth : Obligations.CodeLengthIsTheDepth := by
  intro f x h2 hx
  have hne : countedSymbols f ≠ [] := List.ne_nil_of_mem (mem_countedSymbols.mpr hx)
  obtain ⟨hok, -⟩ := treeOf_ok f hne
  obtain ⟨r, hr, -, -⟩ := treeOf_root hne
  have hleaf : x.toNat ∈ (treeOf f).map (·.slot) := by
    rw [hok.slots]
    exact List.mem_append_left _ (List.mem_map_of_mem (mem_countedSymbols.mpr hx))
  have hdepth : (treeOf f).depth nodeMax x.toNat < nodeMax := by
    obtain ⟨-, hle, hmax⟩ := depth_range h2 hx
    rw [nodeMax] at hle ⊢
    omega
  obtain ⟨path, hlen, hchain, y, hy, hlast⟩ :=
    hok.exists_path_to_alive (hok.nodup (leaves_nodup f) (leaves_lt f)) nodeMax hleaf hdepth
  rw [hr, List.mem_singleton] at hy
  exact ⟨path, by rw [hlen, lengths_len h2 hx], hchain, r, hr, hy ▸ hlast⟩

/-! #### The command (R127 to R129) -/

variable {s t : State}

/-- BUILD ends with the code lengths of FREQ loaded, in every state (R127). -/
theorem exec_build (s : State) : exec .build s = .next (buildEffect s).finish :=
  exec_of_effect_ok rfl

/-- What BUILD leaves in PRES, LEN and NSYM (R127). -/
theorem build_writes (h : exec .build s = .next t) :
    t.pres = (lengths s.freq).1 ∧ t.len = (lengths s.freq).2 ∧
      t.nsym.toNat = (countedSymbols s.freq).length := by
  rw [exec_build] at h
  cases h
  exact ⟨rfl, rfl, (presentCount_ofNat _).trans (lengths_presentCount s.freq)⟩

/-- A symbol without a count has neither presence nor length after BUILD (R126). -/
theorem build_absent (h : exec .build s = .next t) {x : Symbol} (hx : s.freq.get x = 0) :
    t.pres.get x = false ∧ t.len.get x = 0 := by
  obtain ⟨hpres, hlen, -⟩ := build_writes h
  rw [hpres, hlen, ← Bool.not_eq_true, lengths_pres]
  exact ⟨not_not.mpr hx, lengths_len_absent hx⟩

/-- Settles O27: BUILD can not fail, and what it leaves alone is its row of R44. -/
theorem buildResult : Obligations.BuildResult := by
  refine ⟨decode_eq_ok.mpr rfl, fun s => ?_⟩
  have hnext := exec_build s
  obtain ⟨hhost, hfreq, -, -, horiglen, hpad, hpayoff, hout, -⟩ := commandFrames _ _ _ hnext
  exact ⟨_, hnext, rfl, rfl, presentCount_ofNat _, Table.get_const 0, hhost, hfreq (by decide),
    horiglen (by decide), hpad (by decide), hpayoff (by decide), hout (by decide) rfl⟩

/-- Settles O32: NSYM is the number of counted symbols, none or the one given. -/
theorem buildWithNoneOrOneSymbol : Obligations.BuildWithNoneOrOneSymbol := by
  constructor
  · intro s t hzero h
    obtain ⟨-, -, hn⟩ := build_writes h
    have hnone : countedSymbols s.freq = [] :=
      List.eq_nil_iff_forall_not_mem.mpr fun x hx => mem_countedSymbols.mp hx (hzero x)
    rw [hnone] at hn
    exact ⟨BitVec.eq_of_toNat_eq hn, fun x => build_absent h (hzero x)⟩
  · intro s t x₀ hone h
    obtain ⟨hpres, hlen, hn⟩ := build_writes h
    have hcounted : countedSymbols s.freq = [x₀] := by
      refine List.perm_singleton.mp ((List.perm_ext_iff_of_nodup
        (s.freq.symbolsWhere_nodup _) (List.nodup_singleton x₀)).mpr fun x => ?_)
      rw [List.mem_singleton, ← hone x]
      exact mem_countedSymbols
    rw [hcounted] at hn
    refine ⟨BitVec.eq_of_toNat_eq hn, ?_, ?_, fun x hx => ?_⟩
    · rw [hpres, lengths_pres, hone]
    · rw [hlen, lengths_len_single hcounted]
    · exact build_absent h (not_not.mp (mt (hone x).mp hx))

end Sys2Proof.Machine

/-! ### CANON (R141 to R147) -/

namespace Sys2Proof.Machine

variable {pres : Table Bool} {len : Table Byte}

/-! #### Code values along the order of rule R141 -/

theorem canonOrder_nodup (pres : Table Bool) (len : Table Byte) : (canonOrder pres len).Nodup :=
  (canonOrder_perm pres len).nodup_iff.mpr (presentSymbols_nodup pres)

/-- "`o[0]` gets code value 0" (R142). -/
theorem canon_get_first {x : Symbol} {after : List Symbol} (ho : canonOrder pres len = x :: after) :
    (canon pres len).get x = 0 := by
  rw [canon, Table.get_tabulate, ho, assignCodes, List.lookup_cons_self]
  rfl

/-- A symbol's interval starts at the Kraft sum of what stands before it in the order (R146). -/
theorem startOf_eq_of_canonOrder {x : Symbol} {before after : List Symbol}
    (ho : canonOrder pres len = before ++ x :: after) : startOf pres len x = kraftOf len before := by
  have hx : pres.get x = true := mem_canonOrder.mp (ho ▸ List.mem_append_cons_self)
  have hnotin := (List.nodup_cons.mp (List.nodup_middle.mp (ho ▸ canonOrder_nodup pres len))).1
  rw [List.mem_append, not_or] at hnotin
  obtain ⟨before', after', ho', -, hperm⟩ := canonOrder_split (len := len) hx
  obtain ⟨hsame, -⟩ := (List.append_cons_inj_of_notMem hnotin.1 hnotin.2).mp (ho.symm.trans ho')
  rw [startOf, ← kraftOf_perm hperm, hsame]

theorem widthOf_pos (len : Table Byte) (x : Symbol) : 0 < widthOf len x := Nat.two_pow_pos _

/-- An interval is a whole number of intervals of a longer code. -/
theorem widthOf_eq_mul {x y : Symbol} (h : (len.get x).toNat ≤ (len.get y).toNat) :
    widthOf len x = 2 ^ ((len.get y).toNat - (len.get x).toNat) * widthOf len y := by
  have hy := len_le_255 len y
  rw [widthOf, widthOf, ← Nat.pow_add]
  congr 1
  omega

/-- The interval of a present symbol starts at its code value, in units of its width (R146). -/
theorem canon_get_mul_widthOf {x : Symbol} (hk : kraftSum pres len ≤ 2 ^ 255)
    (hx : pres.get x = true) :
    ((canon pres len).get x).toNat * widthOf len x = startOf pres len x := by
  rw [canon_get_toNat hx hk, codeSum_scaled]

/-- "For j >= 1, `o[j]` gets `(value of o[j-1] + 1) << (LEN[o[j]] - LEN[o[j-1]])`" (R142). -/
theorem canon_get_next {x y : Symbol} {before after : List Symbol}
    (hk : kraftSum pres len ≤ 2 ^ 255) (ho : canonOrder pres len = before ++ x :: y :: after) :
    ((canon pres len).get y).toNat =
      (((canon pres len).get x).toNat + 1) <<< ((len.get y).toNat - (len.get x).toNat) := by
  have hx : pres.get x = true := mem_canonOrder.mp (by rw [ho]; simp)
  have hy : pres.get y = true := mem_canonOrder.mp (by rw [ho]; simp)
  have hle : (len.get x).toNat ≤ (len.get y).toNat := by
    have hp := canonOrder_pairwise pres len
    rw [ho, List.pairwise_append, List.pairwise_cons] at hp
    have hxy := hp.2.1.1 y List.mem_cons_self
    simp only [canonLt, BitVec.lt_def, ← BitVec.toNat_inj] at hxy
    omega
  have hnext : startOf pres len y = startOf pres len x + widthOf len x := by
    rw [startOf_eq_of_canonOrder ho,
      startOf_eq_of_canonOrder (before := before ++ [x]) (by rw [ho, List.append_assoc]; rfl),
      kraftOf_append, kraftOf_cons]
    rfl
  rw [← canon_get_mul_widthOf hk hx, ← canon_get_mul_widthOf hk hy, widthOf_eq_mul hle] at hnext
  rw [Nat.shiftLeft_eq]
  refine Nat.eq_of_mul_eq_mul_right (widthOf_pos len y) ?_
  rw [hnext]
  ring

/-- Settles O34: the sequence is `canonOrder`, on which `canon` assigns the values. -/
theorem canonAssignsInOrder : Obligations.CanonAssignsInOrder := by
  intro pres len hk
  refine ⟨fun x hx => canon_get_absent hx, canonOrder pres len, fun x => mem_canonOrder,
    canonOrder_pairwise pres len, fun x hx => ?_, ?_⟩
  · obtain ⟨after, ho⟩ := List.head?_eq_some_iff.mp hx
    exact canon_get_first ho
  · exact List.isChain_iff_forall_rel_of_append_cons_cons.mpr fun _ _ _ _ => canon_get_next hk

/-- The bit string of the number 0 (R13). -/
theorem bitsOf_zero (n : Nat) : bitsOf 0 n = List.replicate n false := by
  induction n with
  | zero => rfl
  | succ n ih => rw [bitsOf, Nat.zero_testBit, ih, List.replicate_succ]

/-- Settles O37: the only present symbol is the first of the order. -/
theorem oneSymbolCode : Obligations.OneSymbolCode := by
  intro pres len x₀ hone
  have ho : canonOrder pres len = [x₀] := by
    refine List.perm_singleton.mp ((List.perm_ext_iff_of_nodup (canonOrder_nodup pres len)
      (List.nodup_singleton x₀)).mpr fun x => ?_)
    rw [mem_canonOrder, hone, List.mem_singleton]
  have hzero := canon_get_first ho
  refine ⟨hzero, ?_⟩
  rw [codeBits, hzero]
  exact bitsOf_zero _

/-! #### The codes as intervals (R146) -/

/-- The code values fit their lengths (R146 a). -/
theorem canon_codesFit (hk : kraftSum pres len ≤ 2 ^ 255) : CodesFit pres len (canon pres len) := by
  intro x hx
  rw [canon_get_toNat hx hk]
  exact codeSum_lt hx hk

/-- Settles O35: no code begins another, and equal codes would begin each other. -/
theorem canonIsAPrefixCode : Obligations.CanonIsAPrefixCode :=
  fun _ _ hk => ⟨canon_codesFit hk, canon_prefixFree hk, fun x y hx hy hne he =>
    canon_prefixFree hk x y hx hy hne (he ▸ List.prefix_rfl)⟩

/-- The intervals of a list of symbols, one after another, cover all below their Kraft sum. -/
theorem exists_interval_of_lt_kraftOf {ts : List Symbol} {v : Nat} (hv : v < kraftOf len ts) :
    ∃ before x after, ts = before ++ x :: after ∧ kraftOf len before ≤ v ∧
      v < kraftOf len before + widthOf len x := by
  induction ts generalizing v with
  | nil => exact absurd hv (Nat.not_lt_zero v)
  | cons t ts ih =>
    rw [kraftOf_cons] at hv
    by_cases ht : v < widthOf len t
    · refine ⟨[], t, ts, rfl, Nat.zero_le v, ?_⟩
      rwa [kraftOf, List.map_nil, List.sum_nil, Nat.zero_add]
    · obtain ⟨before, x, after, rfl, hle, hlt⟩ := ih (v := v - widthOf len t) (by omega)
      refine ⟨t :: before, x, after, rfl, ?_⟩
      rw [kraftOf_cons]
      omega

/-- Below the Kraft sum every number lies in the interval of a present symbol (R146). -/
theorem exists_symbol_of_lt_kraftSum {v : Nat} (hv : v < kraftSum pres len) :
    ∃ x, pres.get x = true ∧ startOf pres len x ≤ v ∧
      v < startOf pres len x + widthOf len x := by
  rw [kraftSum_eq, ← kraftOf_perm (canonOrder_perm pres len)] at hv
  obtain ⟨before, x, after, ho, hin⟩ := exists_interval_of_lt_kraftOf hv
  refine ⟨x, mem_canonOrder.mp (ho ▸ List.mem_append_cons_self), ?_⟩
  rwa [startOf_eq_of_canonOrder ho]

/-- 255 bits whose value lies in the interval of a symbol start with its code (R146). -/
theorem codeBits_isPrefix_of_mem_interval {x : Symbol} {bits : List Bool}
    (hk : kraftSum pres len ≤ 2 ^ 255) (hx : pres.get x = true) (hlen : bits.length = 255)
    (hle : startOf pres len x ≤ valOf bits)
    (hlt : valOf bits < startOf pres len x + widthOf len x) :
    codeBits len (canon pres len) x <+: bits := by
  have hl := len_le_255 len x
  have hrest : 2 ^ (bits.drop (len.get x).toNat).length = widthOf len x := by
    rw [List.length_drop, hlen, widthOf]
  have hval : valOf (bits.take (len.get x).toNat) * widthOf len x +
      valOf (bits.drop (len.get x).toNat) = valOf bits := by
    rw [← hrest, ← valOf_append, List.take_append_drop]
  have hsmall := valOf_lt (bits.drop (len.get x).toNat)
  rw [hrest] at hsmall
  have hcode : valOf (bits.take (len.get x).toNat) = ((canon pres len).get x).toNat := by
    rw [← canon_get_mul_widthOf hk hx] at hle hlt
    calc valOf (bits.take (len.get x).toNat)
      _ = valOf bits / widthOf len x :=
        (Nat.div_eq_of_lt_le (by omega) (by rw [Nat.succ_mul]; omega)).symm
      _ = ((canon pres len).get x).toNat := Nat.div_eq_of_lt_le hle (by rwa [Nat.succ_mul])
  have htake : (bits.take (len.get x).toNat).length = (len.get x).toNat := by
    rw [List.length_take, hlen]
    omega
  rw [codeBits, ← (bitsOf_eq_iff (canon_codesFit hk x hx)).mpr ⟨htake, hcode⟩]
  exact List.take_prefix _ _

/-- Settles O36: the intervals cover every value of 255 bits, and of two codes that the bits start with
one would begin the other. -/
theorem completeCodeAlwaysMatches : Obligations.CompleteCodeAlwaysMatches := by
  intro pres len bits hsum hpos hbits
  have hk : kraftSum pres len ≤ 2 ^ 255 := hsum.le
  have hpf := canon_prefixFree hk
  have htake : (bits.take 255).length = 255 := by rw [List.length_take, Nat.min_eq_left hbits]
  have hv : valOf (bits.take 255) < kraftSum pres len := by
    have := valOf_lt (bits.take 255)
    rwa [htake, ← hsum] at this
  obtain ⟨x, hx, hle, hlt⟩ := exists_symbol_of_lt_kraftSum hv
  obtain ⟨rest, hrest⟩ : codeBits len (canon pres len) x <+: bits :=
    (codeBits_isPrefix_of_mem_interval hk hx htake hle hlt).trans (List.take_prefix _ _)
  have hne : codeBits len (canon pres len) x ≠ [] := by
    rw [← List.length_pos_iff, codeBits_length]
    exact hpos x hx
  refine ⟨x, rest, hx, hrest.symm, ?_, fun y hy hypre => ?_⟩
  · rw [← hrest]
    exact matchCode_codeBits (canon_codesFit hk) hpf hx rest [] _ hne rfl
  · by_contra hyx
    rcases List.prefix_or_prefix_of_prefix ⟨rest, hrest⟩ hypre with h | h
    · exact hpf x y hx hy (Ne.symm hyx) h
    · exact hpf y x hy hx hyx h

/-! #### The command (R145) -/

/-- CANON ends with the code of PRES and LEN loaded, in every state (R145). -/
theorem exec_canon (s : State) : exec .canon s = .next (canonEffect s).finish :=
  exec_of_effect_ok rfl

/-- Settles O33: CANON can not fail, and the tables it reads are among what it leaves alone (R44). -/
theorem canonResult : Obligations.CanonResult := by
  refine ⟨decode_eq_ok.mpr rfl, fun s => ?_⟩
  have hnext := exec_canon s
  obtain ⟨hhost, hfreq, htables, -, horiglen, hpad, hpayoff, hout, -⟩ := commandFrames _ _ _ hnext
  exact ⟨_, hnext, rfl, rfl, hhost, hfreq (by decide), htables (by decide), horiglen (by decide),
    hpad (by decide), hpayoff (by decide), hout (by decide) rfl, _, exec_canon _, rfl⟩

end Sys2Proof.Machine

/-! ### PACK (R157 to R159) -/

namespace Sys2Proof.Machine

variable {pres : Table Bool} {len : Table Byte} {code : Table CodeWord} {cap : Nat} {s : State}

/-! #### The payload (R157, R159) -/

theorem codeStream_length_eq_codeBitCount (len : Table Byte) (code : Table CodeWord)
    (d : List Byte) : (codeStream len code d).length = codeBitCount len d :=
  codeStream_length len code d

theorem packbits_pad (len : Table Byte) (code : Table CodeWord) (d : List Byte) :
    (packbits len code d).2 = padOf (codeBitCount len d) := by
  rw [packbits, codeStream_length_eq_codeBitCount]

/-- The bit stream of the payload is the codes of the data, then the padding (R157). -/
theorem streamBits_packbits (len : Table Byte) (code : Table CodeWord) (d : List Byte) :
    streamBits (packbits len code d).1 =
      codeStream len code d ++ List.replicate (packbits len code d).2 false := by
  have hwhole := (padOf_spec (codeStream len code d).length).1
  refine streamBits_bytesOfBits _ _ ?_
  rw [List.length_append, List.length_replicate]
  omega

/-- Settles O39: the padding completes the last byte, so the payload's bytes are those of the padded
stream. -/
theorem packPadding : Obligations.PackPadding := by
  intro len code d
  have hlen := packbits_length len code d
  rw [codeStream_length_eq_codeBitCount] at hlen
  refine ⟨packbits_pad len code d, hlen, ?_, streamBits_packbits len code d⟩
  rw [packbits_pad, hlen, padOf]
  omega

/-! #### The errors of PACK's loops (R158) -/

/-- An error on the first bytes of the input ends the loops (R158). -/
theorem packLoop_error_of_prefix {d : List Byte} {e : CmdError} (d' : List Byte)
    (h : d.foldlM (packSymbol cap pres len code) { out := [], acc := 0, accn := 0 } = .error e) :
    packLoop cap pres len code (d ++ d') = .error e := by
  rw [packLoop, List.foldlM_append, h]
  rfl

/-- On bytes whose symbols are all present PACK's loops fail only by a full output byte that does not fit
(R158). -/
theorem packSymbols_start {d : List Byte} (hd : ∀ y ∈ d, pres.get y = true) :
    if codeBitCount len d / 8 ≤ cap then
      ∃ p, d.foldlM (packSymbol cap pres len code) { out := [], acc := 0, accn := 0 } = .ok p
    else d.foldlM (packSymbol cap pres len code) { out := [], acc := 0, accn := 0 } =
      .error .noSpace := by
  have h := packSymbols_holds (len := len) (code := code) cap d hd holds_start (Nat.zero_le cap)
  rw [List.length_nil, Nat.zero_add, codeStream_length_eq_codeBitCount] at h
  split_ifs at h ⊢
  · obtain ⟨p, hp, -⟩ := h
    exact ⟨p, hp⟩
  · exact h

/-- Bytes whose symbols are all present, but whose full output bytes do not fit, raise NoSpace, whatever
follows them (R158). -/
theorem packLoop_noSpace {d : List Byte} (d' : List Byte) (hd : ∀ y ∈ d, pres.get y = true)
    (hfull : cap < codeBitCount len d / 8) :
    packLoop cap pres len code (d ++ d') = .error .noSpace := by
  have h := packSymbols_start (len := len) (code := code) (cap := cap) hd
  rw [if_neg (Nat.not_le.mpr hfull)] at h
  exact packLoop_error_of_prefix d' h

theorem packSymbol_absent {x : Symbol} (hx : pres.get x = false) (p : PackState) :
    packSymbol cap pres len code p x = .error .noCode := by
  rw [packSymbol, hx, if_neg Bool.false_ne_true]

/-- The first byte whose symbol is not present raises NoCode, if the output so far fits (R158). -/
theorem packLoop_noCode {d : List Byte} {x : Byte} (d' : List Byte)
    (hd : ∀ y ∈ d, pres.get y = true) (hfit : codeBitCount len d / 8 ≤ cap)
    (hx : pres.get x = false) : packLoop cap pres len code (d ++ x :: d') = .error .noCode := by
  have h := packSymbols_start (len := len) (code := code) (cap := cap) hd
  rw [if_pos hfit] at h
  obtain ⟨p, hp⟩ := h
  rw [List.append_cons]
  refine packLoop_error_of_prefix d' ?_
  rw [List.foldlM_append]
  exact except_bind_error.mpr
    (.inr ⟨p, hp, except_bind_error.mpr (.inl (packSymbol_absent hx p))⟩)

/-! #### The command (R158) -/

/-- Past its two checks PACK ends with the error of its loops. -/
theorem raises_pack_of_packLoop {e : CmdError} (hcv : s.status.cv = true)
    (hcap : s.ibufLen ≤ s.cfg.ibufCap)
    (h : packLoop s.cfg.obufCap.toNat s.pres s.len s.code s.input = .error e) :
    Raises .pack s e :=
  exec_of_effect_error (packEffect_error.mpr (.inr (.inr ⟨hcv, hcap, h⟩)))

/-- With a codebook, an input of present symbols and room, PACK ends with the payload and its padding
(R158). -/
theorem exec_pack_next (hcv : s.status.cv = true) (hcap : s.ibufLen ≤ s.cfg.ibufCap)
    (hpres : ∀ y ∈ s.input, s.pres.get y = true)
    (hfit : (packbits s.len s.code s.input).1.length ≤ s.cfg.obufCap.toNat) :
    exec .pack s = .next (State.finish { s.output (packbits s.len s.code s.input).1 with
      pad := BitVec.ofNat 8 (packbits s.len s.code s.input).2 }) :=
  exec_of_effect_ok (packEffect_ok.mpr
    ⟨hcv, hcap, _, by rw [packLoop_eq _ hpres, if_pos hfit], rfl⟩)

/-- PAD holds the padding, which is below 8 (R159). -/
theorem packbits_pad_toNat (len : Table Byte) (code : Table CodeWord) (d : List Byte) :
    (BitVec.ofNat 8 (packbits len code d).2).toNat = (packbits len code d).2 := by
  have hlt := (padOf_spec (codeBitCount len d)).2
  rw [← packbits_pad len code d] at hlt
  rw [BitVec.toNat_ofNat, Nat.mod_eq_of_lt (by omega)]

/-- Settles O38: past the two checks, what PACK's loops give on the input decides, and what it leaves
alone is its row of R44. -/
theorem packResult : Obligations.PackResult := by
  refine ⟨decode_eq_ok.mpr rfl, fun s => ⟨fun hcv => ?_, fun hcv hover => ?_, fun hcv hcap =>
    ⟨fun d x d' hin hd hfit hx => ?_, fun d x d' hin hd _ hx hfull => ?_, fun hpres _ hover => ?_,
      fun hpres hfit => ?_⟩⟩⟩
  · exact exec_of_effect_error (packEffect_error.mpr (.inl ⟨hcv, rfl⟩))
  · exact exec_of_effect_error (packEffect_error.mpr (.inr (.inl ⟨hcv, hover, rfl⟩)))
  · exact raises_pack_of_packLoop hcv hcap (hin ▸ packLoop_noCode d' hd hfit hx)
  · have hdx : ∀ y ∈ d ++ [x], s.pres.get y = true :=
      List.forall_mem_append.mpr ⟨hd, List.forall_mem_singleton.mpr hx⟩
    rw [List.append_cons] at hin
    exact raises_pack_of_packLoop hcv hcap (hin ▸ packLoop_noSpace d' hdx hfull)
  · refine raises_pack_of_packLoop hcv hcap ?_
    rw [packLoop_eq _ hpres, if_neg (Nat.not_le.mpr hover)]
  · have hnext := exec_pack_next hcv hcap hpres hfit
    have hlen := toNat_ofNat_of_le hfit
    obtain ⟨hhost, hfreq, htables, hcodes, horiglen, -, hpayoff, -, -⟩ := commandFrames _ _ _ hnext
    exact ⟨_, hnext, rfl, ⟨hlen, State.outputBytes_of rfl hlen⟩, packbits_pad_toNat .., hhost,
      hfreq (by decide), htables (by decide), (hcodes (by decide)).1, horiglen (by decide),
      hpayoff (by decide)⟩

end Sys2Proof.Machine

/-! ### UNPACK (R173 to R182) -/

namespace Sys2Proof.Machine

variable {pres : Table Bool} {len : Table Byte} {code : Table CodeWord}
  {cap e nsym pad count : Nat} {p : List Byte}

/-! #### The loop, whatever finds the next symbol (R173, R176) -/

section Loop

variable {σ : Type} {next : σ → Option (Symbol × σ)} {place : σ}

/-- The loop that `unpackMany` and `unpackOne` share: `next` finds the symbol at a place of the payload and
the place after it, or none if the bits run out. -/
def unpackLoop (next : σ → Option (Symbol × σ)) (cap : Nat) :
    Nat → Nat → σ → Except CmdError (List Byte)
  | _, 0, _ => .ok []
  | e, count + 1, place =>
    match next place with
    | none => .error .truncatedPayload
    | some (x, place') =>
      if cap ≤ e then .error .noSpace
      else (unpackLoop next cap (e + 1) count place').map (x :: ·)

theorem unpackLoop_truncated (h : next place = none) :
    unpackLoop next cap e (count + 1) place = .error .truncatedPayload := by
  rw [unpackLoop, h]

theorem unpackLoop_noSpace {x : Symbol} {place' : σ} (h : next place = some (x, place'))
    (hfull : cap ≤ e) : unpackLoop next cap e (count + 1) place = .error .noSpace := by
  simp only [unpackLoop, h, if_pos hfull]

theorem unpackLoop_symbol {x : Symbol} {place' : σ} (h : next place = some (x, place'))
    (hroom : e < cap) : unpackLoop next cap e (count + 1) place =
      (unpackLoop next cap (e + 1) count place').map (x :: ·) := by
  simp only [unpackLoop, h, if_neg (Nat.not_le.mpr hroom)]

/-- What the loop gives for one symbol more is a symbol and what it gives for the others. -/
theorem unpackLoop_ok {d : List Byte} (h : unpackLoop next cap e (count + 1) place = .ok d) :
    ∃ x place' d', next place = some (x, place') ∧
      unpackLoop next cap (e + 1) count place' = .ok d' ∧ d = x :: d' := by
  cases hnext : next place with
  | none => rw [unpackLoop_truncated hnext] at h; cases h
  | some found =>
    by_cases hroom : e < cap
    · rw [unpackLoop_symbol hnext hroom] at h
      cases hrest : unpackLoop next cap (e + 1) count found.2 with
      | ok d' =>
        rw [hrest] at h
        cases h
        exact ⟨_, _, _, rfl, hrest, rfl⟩
      | error y =>
        rw [hrest] at h
        cases h
    · rw [unpackLoop_noSpace hnext (Nat.not_lt.mp hroom)] at h
      cases h

/-- The loop fails only where the bits run out or the output does not fit (R173, R176). -/
theorem unpackLoop_error {x : CmdError} (h : unpackLoop next cap e count place = .error x) :
    x = .truncatedPayload ∨ x = .noSpace ∧ cap < e + count := by
  induction count generalizing e place with
  | zero => cases h
  | succ n ih =>
    cases hnext : next place with
    | none =>
      rw [unpackLoop_truncated hnext] at h
      cases h
      exact .inl rfl
    | some found =>
      by_cases hroom : e < cap
      · rw [unpackLoop_symbol hnext hroom] at h
        cases hrest : unpackLoop next cap (e + 1) n found.2 with
        | ok out => rw [hrest] at h; cases h
        | error y =>
          rw [hrest] at h
          cases h
          exact (ih hrest).imp_right fun ⟨hx, hlt⟩ => ⟨hx, by omega⟩
      · rw [unpackLoop_noSpace hnext (Nat.not_lt.mp hroom)] at h
        cases h
        exact .inr ⟨rfl, by omega⟩

/-- A capacity that the output fits makes no difference (R176). -/
theorem unpackLoop_of_fits {cap' : Nat} (h : e + count ≤ cap) (h' : e + count ≤ cap') :
    unpackLoop next cap e count place = unpackLoop next cap' e count place := by
  induction count generalizing e place with
  | zero => rfl
  | succ n ih =>
    cases hnext : next place with
    | none => rw [unpackLoop_truncated hnext, unpackLoop_truncated hnext]
    | some found =>
      rw [unpackLoop_symbol hnext (by omega), unpackLoop_symbol hnext (by omega),
        ih (by omega) (by omega)]

/-- With room for k more symbols and more of them wanted, the loop fails as it does on k + 1 symbols, or
else by NoSpace: "For one symbol e, TruncatedPayload is tested before NoSpace" (R176). -/
theorem unpackLoop_of_overflow {k : Nat} (hcap : e + k = cap) (hk : k < count) :
    unpackLoop next cap e count place =
      unpackLoop next (cap + 1) e (k + 1) place >>= fun _ => .error .noSpace := by
  induction count generalizing e k place with
  | zero => exact absurd hk (Nat.not_lt_zero k)
  | succ n ih =>
    cases hnext : next place with
    | none =>
      rw [unpackLoop_truncated hnext, unpackLoop_truncated hnext]
      rfl
    | some found =>
      cases k with
      | zero =>
        rw [unpackLoop_noSpace hnext (by omega), unpackLoop_symbol hnext (by omega)]
        rfl
      | succ k =>
        rw [unpackLoop_symbol hnext (by omega), unpackLoop_symbol hnext (by omega),
          ih (k := k) (by omega) (by omega)]
        cases unpackLoop next (cap + 1) (e + 1) (k + 1) found.2 <;> rfl

end Loop

/-- The loop with two or more symbols looks for a code (R173). -/
theorem unpackMany_eq_loop (book : List CodeEntry) (bits : List Bool) :
    unpackMany cap book e count bits = unpackLoop (matchCode book 0 0) cap e count bits := by
  induction count generalizing e bits with
  | zero => rfl
  | succ n ih =>
    rw [unpackMany]
    cases hnext : matchCode book 0 0 bits with
    | none => rw [unpackLoop_truncated hnext]
    | some found =>
      dsimp only
      by_cases hroom : e < cap
      · rw [if_neg (Nat.not_le.mpr hroom), unpackLoop_symbol hnext hroom, ih]
        cases unpackLoop (matchCode book 0 0) cap (e + 1) n found.2 <;> rfl
      · rw [if_pos (Nat.not_lt.mp hroom), unpackLoop_noSpace hnext (Nat.not_lt.mp hroom)]

/-- What the loop with one symbol x₀ finds at bit `pos` of `avail`: x₀, if its l bits are left (R178). -/
def nextOne (x₀ : Symbol) (l avail pos : Nat) : Option (Symbol × Nat) :=
  if pos + l ≤ avail then some (x₀, pos + l) else none

/-- The loop with one symbol counts bits (R178). -/
theorem unpackOne_eq_loop (x₀ : Symbol) (l avail pos : Nat) :
    unpackOne cap x₀ l avail e count pos = unpackLoop (nextOne x₀ l avail) cap e count pos := by
  induction count generalizing e pos with
  | zero => rfl
  | succ n ih =>
    rw [unpackOne]
    by_cases hleft : pos + l ≤ avail
    · have hnext : nextOne x₀ l avail pos = some (x₀, pos + l) := if_pos hleft
      rw [if_neg (Nat.not_lt.mpr hleft)]
      by_cases hroom : e < cap
      · rw [if_neg (Nat.not_le.mpr hroom), unpackLoop_symbol hnext hroom, ih]
        cases unpackLoop (nextOne x₀ l avail) cap (e + 1) n (pos + l) <;> rfl
      · rw [if_pos (Nat.not_lt.mp hroom), unpackLoop_noSpace hnext (Nat.not_lt.mp hroom)]
    · have hnext : nextOne x₀ l avail pos = none := if_neg hleft
      rw [if_pos (Nat.not_le.mp hleft), unpackLoop_truncated hnext]

/-! #### The tests of `unpackbits`, and what is past them (R173 to R175) -/

theorem unpackbits_emptyCodebook (hn : nsym = 0) (hc : 0 < count) :
    unpackbits cap p pres len code nsym pad count = .error .corruptSymbolTable := by
  rw [unpackbits, if_pos ⟨hn, hc⟩]

theorem unpackbits_badPadding (hpad : 7 < pad ∨ p = [] ∧ 0 < pad) :
    unpackbits cap p pres len code nsym pad count =
      if nsym = 0 ∧ 0 < count then .error .corruptSymbolTable else .error .invalidPadding := by
  rw [unpackbits]
  congr 1
  by_cases h7 : 7 < pad
  · exact if_pos h7
  · obtain ⟨rfl, hpos⟩ := hpad.resolve_left h7
    rw [if_neg h7]
    exact if_pos ⟨rfl, hpos⟩

section LegalPadding

variable (h7 : pad ≤ 7) (h0 : p = [] → pad = 0)
include h7 h0

/-- What the three tests of `unpackbits` look for is not there. -/
theorem unpackbits_tests_passed (hn : ¬ (nsym = 0 ∧ 0 < count)) :
    ¬ (nsym = 0 ∧ count > 0) ∧ ¬ pad > 7 ∧ ¬ (p.length = 0 ∧ pad > 0) :=
  ⟨hn, Nat.not_lt.mpr h7, fun ⟨hp, hpad⟩ => hpad.ne' (h0 (List.length_eq_zero_iff.mp hp))⟩

/-- With a number of symbols other than one the meaningful bits are matched (R173). -/
theorem unpackbits_many (hn : ¬ (nsym = 0 ∧ 0 < count)) (h1 : nsym ≠ 1) :
    unpackbits cap p pres len code nsym pad count = unpackMany cap (codebook pres len code) 0 count
      ((streamBits p).take (8 * p.length - pad)) := by
  obtain ⟨hn, h7, hempty⟩ := unpackbits_tests_passed h7 h0 hn
  rw [unpackbits, if_neg hn, if_neg h7, if_neg hempty]
  exact if_neg h1

/-- With one symbol the meaningful bits are counted (R178). -/
theorem unpackbits_one {x₀ : Symbol} {more : List Symbol} (hs : presentSymbols pres = x₀ :: more) :
    unpackbits cap p pres len code 1 pad count =
      unpackOne cap x₀ (len.get x₀).toNat (8 * p.length - pad) 0 count 0 := by
  obtain ⟨hn, h7, hempty⟩ := unpackbits_tests_passed (nsym := 1) (count := count) h7 h0 (by simp)
  rw [unpackbits, if_neg hn, if_neg h7, if_neg hempty]
  simp only [if_pos, hs]

/-- One symbol by NSYM but none present is an empty codebook too. -/
theorem unpackbits_oneAbsent (hs : presentSymbols pres = []) :
    unpackbits cap p pres len code 1 pad count =
      if 0 < count then .error .corruptSymbolTable else .ok [] := by
  obtain ⟨hn, h7, hempty⟩ := unpackbits_tests_passed (nsym := 1) (count := count) h7 h0 (by simp)
  rw [unpackbits, if_neg hn, if_neg h7, if_neg hempty]
  simp only [if_pos, hs]

/-- Where the padding is legal, `unpackbits` has an empty codebook or is a loop that does not know the
capacity nor how many symbols are wanted (R173, R174). -/
theorem unpackbits_cases (pres : Table Bool) (len : Table Byte) (code : Table CodeWord) (nsym : Nat) :
    (∀ cap count, unpackbits cap p pres len code nsym pad count =
      if 0 < count then .error .corruptSymbolTable else .ok []) ∨
    ∃ (σ : Type) (next : σ → Option (Symbol × σ)) (place : σ), ∀ cap count,
      unpackbits cap p pres len code nsym pad count = unpackLoop next cap 0 count place := by
  by_cases hn0 : nsym = 0
  · refine .inl fun cap count => ?_
    by_cases hc : 0 < count
    · rw [unpackbits_emptyCodebook hn0 hc, if_pos hc]
    · rw [unpackbits_many h7 h0 (fun h => hc h.2) (by omega), if_neg hc, Nat.eq_zero_of_not_pos hc]
      rfl
  by_cases hn1 : nsym = 1
  · subst hn1
    cases hs : presentSymbols pres with
    | nil => exact .inl fun cap count => unpackbits_oneAbsent h7 h0 hs
    | cons x₀ more =>
      exact .inr ⟨_, _, _, fun cap count => by rw [unpackbits_one h7 h0 hs, unpackOne_eq_loop]⟩
  · exact .inr ⟨_, _, _, fun cap count => by
      rw [unpackbits_many h7 h0 (fun h => hn0 h.1) hn1, unpackMany_eq_loop]⟩

end LegalPadding

/-- Settles O42: past the tests no loop fails by the padding. -/
theorem unpackFirstTests : Obligations.UnpackFirstTests := by
  intro cap p pres len code nsym pad count
  refine ⟨unpackbits_emptyCodebook,
    fun hn hpad => (unpackbits_badPadding hpad).trans (if_neg hn), fun h7 h0 h => ?_,
    fun hn hc h7 h0 => ?_⟩
  · rcases unpackbits_cases h7 h0 pres len code nsym with hempty | ⟨σ, next, place, hloop⟩
    · rw [hempty] at h
      split_ifs at h
      cases h
    · rw [hloop] at h
      rcases unpackLoop_error h with hx | ⟨hx, -⟩ <;> cases hx
  · subst hc
    exact unpackbits_many h7 h0 (by simp) (by omega)

/-- Settles O41: the tests do not look at the capacity, and the loop meets it only at the first symbol that
does not fit. -/
theorem unpackCapacity : Obligations.UnpackCapacity := by
  intro cap count nsym pad p pres len code
  dsimp only
  by_cases hbad : 7 < pad ∨ p = [] ∧ 0 < pad
  · simp only [unpackbits_badPadding hbad]
    refine ⟨fun _ => trivial, fun hover => ?_⟩
    simp only [Nat.zero_lt_of_lt hover, Nat.succ_pos, and_true]
    exact ⟨fun e he => he, fun out hout => by split_ifs at hout⟩
  have h7 : pad ≤ 7 := by omega
  have h0 : p = [] → pad = 0 := fun hp => by
    by_contra hpos
    exact hbad (.inr ⟨hp, Nat.pos_of_ne_zero hpos⟩)
  rcases unpackbits_cases h7 h0 pres len code nsym with hempty | ⟨σ, next, place, hloop⟩
  · simp only [hempty]
    refine ⟨fun _ => trivial, fun hover => ?_⟩
    simp [if_pos (Nat.zero_lt_of_lt hover)]
  · simp only [hloop]
    refine ⟨fun hfit => unpackLoop_of_fits (by omega) (by omega), fun hover => ?_⟩
    rw [unpackLoop_of_overflow (Nat.zero_add cap) hover]
    refine ⟨fun e he => ?_, fun out hout => ?_⟩
    · rw [he]; rfl
    · rw [hout]; rfl

/-! #### One symbol (R178) -/

/-- Where the bits run out before the output is full, the loop with one symbol says so (R178). -/
theorem unpackOne_truncated (x₀ : Symbol) {l avail pos : Nat} (hpos : pos ≤ avail)
    (h : avail < pos + count * l) (hc : e + count ≤ cap) :
    unpackOne cap x₀ l avail e count pos = .error .truncatedPayload := by
  induction count generalizing e pos with
  | zero => omega
  | succ n ih =>
    rw [Nat.succ_mul] at h
    rw [unpackOne]
    by_cases hleft : pos + l ≤ avail
    · rw [if_neg (Nat.not_lt.mpr hleft), if_neg (by omega), ih hleft (by omega) (by omega)]
    · rw [if_pos (Nat.not_le.mp hleft)]

theorem presentSymbols_eq_singleton {x₀ : Symbol} (h : ∀ x, pres.get x = true ↔ x = x₀) :
    presentSymbols pres = [x₀] :=
  List.perm_singleton.mp ((List.perm_ext_iff_of_nodup (presentSymbols_nodup pres)
    (List.nodup_singleton x₀)).mpr fun x => by rw [mem_presentSymbols, h, List.mem_singleton])

/-- Settles O43: the loop with one symbol adds up its length. -/
theorem unpackOneSymbol : Obligations.UnpackOneSymbol := by
  intro cap p pres len code pad count x₀ hone h7 h0 hfit
  rw [unpackbits_one h7 h0 (presentSymbols_eq_singleton hone)]
  split_ifs with hbits
  · exact unpackOne_ok _ _ _ _ _ _ _ (by omega) (by omega)
  · exact unpackOne_truncated x₀ (Nat.zero_le _) (by omega) (by omega)

/-! #### Two or more symbols (R173, R177, R179) -/

/-- What the match gives after the bits q is a present symbol whose code the bits start with (R173). -/
theorem matchCode_sound (hf : CodesFit pres len code) {x : Symbol} {q bits rest : List Bool}
    (h : matchCode (codebook pres len code) (valOf q) q.length bits = some (x, rest)) :
    pres.get x = true ∧ q ++ bits = codeBits len code x ++ rest := by
  induction bits generalizing q with
  | nil => cases h
  | cons b bits ih =>
    rw [matchCode] at h
    split at h
    · next entry hfind =>
      cases h
      obtain ⟨y, hy, rfl⟩ := mem_codebook.mp (List.mem_of_find?_eq_some hfind)
      have hmatch := List.find?_some hfind
      simp only [Bool.and_eq_true, beq_iff_eq] at hmatch
      have hcode : q ++ [b] = codeBits len code y := by
        rw [codeBits, bitsOf_eq_iff (hf y hy), valOf_snoc, hmatch.1, hmatch.2, List.length_append,
          List.length_singleton]
        exact ⟨rfl, rfl⟩
      exact ⟨hy, by rw [List.append_cons, hcode]⟩
    · rw [List.append_cons]
      refine ih ?_
      rwa [valOf_snoc, List.length_append, List.length_singleton]

/-- What the unpacker gives are present symbols whose codes the bits start with (R179). -/
theorem unpackMany_sound (hf : CodesFit pres len code) {bits : List Bool} {d : List Byte}
    (h : unpackMany cap (codebook pres len code) e count bits = .ok d) :
    (∀ x ∈ d, pres.get x = true) ∧ codeStream len code d <+: bits := by
  rw [unpackMany_eq_loop] at h
  induction count generalizing e bits d with
  | zero =>
    cases h
    exact ⟨nofun, List.nil_prefix⟩
  | succ n ih =>
    obtain ⟨x, rest, d', hmatch, hrest, rfl⟩ := unpackLoop_ok h
    obtain ⟨hx, hbits⟩ := matchCode_sound (q := []) hf hmatch
    obtain ⟨hd', hprefix⟩ := ih hrest
    refine ⟨List.forall_mem_cons.mpr ⟨hx, hd'⟩, ?_⟩
    rw [List.nil_append] at hbits
    rw [hbits, codeStream_cons]
    exact (List.prefix_append_right_inj _).mpr hprefix

/-- Settles O44: the match gives the symbols whose codes the bits start with, and codes that no other
begins are what it reads; only the bits can run out. -/
theorem unpackReadsTheCodes : Obligations.UnpackReadsTheCodes := by
  intro cap p pres len pad count hleg h2 h7 h0 hfit
  have hf := canon_fits hleg
  dsimp only
  rw [unpackbits_many h7 h0 (by omega) (by omega)]
  refine ⟨fun d => ⟨fun h => ?_, ?_⟩, fun e h => ?_⟩
  · exact ⟨(unpackMany_length h).1, unpackMany_sound hf h⟩
  · rintro ⟨rfl, hd, rest, hbits⟩
    rw [← hbits]
    exact unpackMany_codeStream hf (canon_prefixFree (kraft_le hleg)) (hleg.positive h2) _ _ d hd
      (by omega) rest
  · rw [unpackMany_eq_loop] at h
    rcases unpackLoop_error h with hx | ⟨-, hover⟩
    · exact hx
    · omega

/-! #### The round trip (R182) -/

/-- The packer's padding is legal: below 8, and none for an empty payload (R159, R175). -/
theorem packbits_legalPadding (len : Table Byte) (code : Table CodeWord) (d : List Byte) :
    (packbits len code d).2 ≤ 7 ∧ ((packbits len code d).1 = [] → (packbits len code d).2 = 0) := by
  obtain ⟨hpad, hbytes, -, -⟩ := packPadding len code d
  refine ⟨by omega, fun hnil => ?_⟩
  rw [hnil, List.length_nil] at hbytes
  omega

/-- The meaningful bits of the packer's payload are the codes of the data (R157, R172). -/
theorem packbits_meaningfulBits (len : Table Byte) (code : Table CodeWord) (d : List Byte) :
    (streamBits (packbits len code d).1).take
      (8 * (packbits len code d).1.length - (packbits len code d).2) = codeStream len code d := by
  obtain ⟨-, -, hbits, -⟩ := packPadding len code d
  rw [hbits, streamBits_packbits]
  exact List.take_left' (codeStream_length_eq_codeBitCount len code d)

theorem eq_nil_of_presentCount_eq_zero {d : List Byte} (hn : presentCount pres = 0)
    (hd : ∀ x ∈ d, pres.get x = true) : d = [] :=
  List.eq_nil_iff_forall_not_mem.mpr fun x hx => by
    have hmem := mem_presentSymbols.mpr (hd x hx)
    rw [List.length_eq_zero_iff.mp hn] at hmem
    exact List.not_mem_nil hmem

theorem codeBitCount_replicate (len : Table Byte) (n : Nat) (x : Byte) :
    codeBitCount len (List.replicate n x) = n * (len.get x).toNat := by
  rw [codeBitCount, List.map_replicate, List.sum_replicate, smul_eq_mul]

/-- Settles O45: the payload's meaningful bits are the codes of the data, and with one symbol as many as the
unpacker counts. -/
theorem unpackInvertsPack : Obligations.UnpackInvertsPack := by
  intro pres len d cap hleg hd hfit
  obtain ⟨h7, h0⟩ := packbits_legalPadding len (canon pres len) d
  dsimp only
  obtain hn | hn | hn : presentCount pres = 0 ∨ presentCount pres = 1 ∨ 2 ≤ presentCount pres := by
    omega
  · obtain rfl := eq_nil_of_presentCount_eq_zero hn hd
    rw [hn, unpackbits_many h7 h0 (by simp) (by decide)]
    rfl
  · obtain ⟨x₀, hx₀⟩ := List.length_eq_one_iff.mp hn
    have hone : ∀ x, pres.get x = true ↔ x = x₀ := fun x => by
      rw [← mem_presentSymbols, hx₀, List.mem_singleton]
    have hrep : d = List.replicate d.length x₀ :=
      List.eq_replicate_of_mem fun x hx => (hone x).mp (hd x hx)
    have hcount : codeBitCount len d = d.length * (len.get x₀).toNat := by
      rw [hrep, codeBitCount_replicate, List.length_replicate]
    obtain ⟨-, -, hbits, -⟩ := packPadding len (canon pres len) d
    rw [hn, unpackOneSymbol cap _ pres len _ _ d.length x₀ hone h7 h0 hfit, hbits, hcount,
      if_pos (Nat.le_refl _), ← hrep]
  · refine ((unpackReadsTheCodes cap _ pres len _ d.length hleg hn h7 h0 hfit).1 d).mpr
      ⟨rfl, hd, ?_⟩
    rw [packbits_meaningfulBits]

/-! #### The command (R176) -/

/-- Settles O40: past the checks of UNPACK the unpacker decides, and what the command leaves alone is its row
of R44. -/
theorem unpackResult : Obligations.UnpackResult := by
  refine ⟨decode_eq_ok.mpr rfl, fun s => ⟨fun hcv => ?_, fun hcv hbad => ?_, fun hcv hcap hoff =>
    ⟨fun e he => ?_, fun out hout => ?_⟩⟩⟩
  · exact exec_of_effect_error (unpackEffect_error.mpr (.inl ⟨hcv, rfl⟩))
  · exact exec_of_effect_error (unpackEffect_error.mpr (.inr (.inl ⟨hcv, hbad, rfl⟩)))
  · exact exec_of_effect_error (unpackEffect_error.mpr (.inr (.inr ⟨hcv, hcap, hoff, he⟩)))
  · have hnext : exec .unpack s = .next _ :=
      exec_of_effect_ok (unpackEffect_ok.mpr ⟨hcv, hcap, hoff, out, hout, rfl⟩)
    have hlen : s.origlen.toNat = out.length := (unpackbits_length hout).1.symm
    obtain ⟨hhost, hfreq, htables, hcodes, horiglen, hpad, hpayoff, -, -⟩ := commandFrames _ _ _ hnext
    exact ⟨_, hnext, rfl, ⟨hlen, State.outputBytes_of rfl hlen⟩, rfl, hhost, hfreq (by decide),
      htables (by decide), (hcodes (by decide)).1, horiglen (by decide), hpad (by decide),
      hpayoff (by decide)⟩

end Sys2Proof.Machine

/-! ### The layout of a blob, SERIALIZE and ENCODE (R191 to R201, R221) -/

namespace Sys2Proof.Machine

variable {s s' t t' u : State}

/-! #### Where the fields of a blob stand (R85, R191, R192) -/

theorem bigEndianBytes_getElem? (v : Nat) {n i : Nat} (h : i < n) :
    (bigEndianBytes v n)[i]? = some (BitVec.ofNat 8 (v / 256 ^ (n - 1 - i))) := by
  induction n generalizing i with
  | zero => omega
  | succ n ih =>
    cases i with
    | zero => rfl
    | succ i =>
      rw [bigEndianBytes, List.getElem?_cons_succ, ih (by omega)]
      congr 4
      omega

/-- The j-th entry of a symbol table: the symbol, then its length (R85). -/
theorem entryBytes_getElem? {es : List (Symbol × Byte)} {j : Nat} {x : Symbol} {l : Byte}
    (h : es[j]? = some (x, l)) :
    (entryBytes es)[2 * j]? = some x ∧ (entryBytes es)[2 * j + 1]? = some l := by
  induction es generalizing j with
  | nil => simp at h
  | cons e es ih =>
    cases j with
    | zero =>
      cases h
      exact ⟨rfl, rfl⟩
    | succ j => exact ih h

/-- A byte that stands i bytes after a prefix. -/
theorem getElem?_append_length_add (pre post : List Byte) (i : Nat) :
    (pre ++ post)[pre.length + i]? = post[i]? := by
  rw [List.getElem?_append_right (Nat.le_add_right _ _), Nat.add_sub_cancel_left]

/-- The first three bytes of a blob: the version and symbol_count (R85). -/
theorem blobOfEntries_header (v : Byte) (es : List (Symbol × Byte)) (after : List Byte) :
    (blobOfEntries v es after)[0]? = some v ∧
      (blobOfEntries v es after)[1]? = some (BitVec.ofNat 8 (es.length / 256)) ∧
      (blobOfEntries v es after)[2]? = some (BitVec.ofNat 8 (es.length % 256)) := by
  refine ⟨rfl, rfl, congrArg some ?_⟩
  exact BitVec.eq_of_toNat_eq (by simp)

/-- The entries of a blob stand from offset 3 on, two bytes each (R85). -/
theorem blobOfEntries_entry (v : Byte) {es : List (Symbol × Byte)} (after : List Byte) {j : Nat}
    {x : Symbol} {l : Byte} (h : es[j]? = some (x, l)) :
    (blobOfEntries v es after)[3 + 2 * j]? = some x ∧
      (blobOfEntries v es after)[4 + 2 * j]? = some l := by
  have hj : j < es.length := (List.getElem?_eq_some_iff.mp h).1
  have hat : ∀ i, i < 2 * es.length →
      (blobOfEntries v es after)[3 + i]? = (entryBytes es)[i]? := fun i hi => by
    rw [blobOfEntries_table, List.append_assoc]
    exact (getElem?_append_length_add _ _ i).trans
      (List.getElem?_append_left (by rwa [entryBytes_length]))
  obtain ⟨hsym, hlen⟩ := entryBytes_getElem? h
  exact ⟨(hat _ (by omega)).trans hsym,
    by rw [show 4 + 2 * j = 3 + (2 * j + 1) by omega, hat _ (by omega), hlen]⟩

/-- What follows the table of a blob stands from offset 3 + 2c on (R85). -/
theorem blobOfEntries_after (v : Byte) (es : List (Symbol × Byte)) (after : List Byte) (i : Nat) :
    (blobOfEntries v es after)[3 + 2 * es.length + i]? = after[i]? := by
  have hpre : (blobOfEntries v es []).length = 3 + 2 * es.length := blobOfEntries_length v es []
  rw [blobOfEntries_append, ← hpre, getElem?_append_length_add]

/-- The entries that the serializer writes, in ascending order of the symbols (R191). -/
def tableEntries (pres : Table Bool) (len : Table Byte) : List (Symbol × Byte) :=
  (presentSymbols pres).map fun x => (x, len.get x)

theorem tableEntries_length (pres : Table Bool) (len : Table Byte) :
    (tableEntries pres len).length = presentCount pres := List.length_map _

/-- The serializer's blob is the blob of its entries, with the fields of R85 after them. -/
theorem blob_eq_blobOfEntries (v : Byte) (pres : Table Bool) (len : Table Byte) (n pad : Nat)
    (q : List Byte) :
    blob v pres len (presentCount pres) n pad q =
      blobOfEntries v (tableEntries pres len)
        (bigEndianBytes n 8 ++ [BitVec.ofNat 8 pad] ++ q) := by
  rw [blob, tableBytes_eq, ← tableEntries, blobOfEntries_table, tableEntries_length]
  simp only [List.append_assoc]

/-- Settles O46: the blob is that of the entries of the present symbols, so the places are those of
the blob of any entries. -/
theorem blobLayout : Obligations.BlobLayout := by
  intro v pres len n pad q _ _
  have hlength := blob_length v pres len (presentCount pres) n pad q
  dsimp only
  rw [blob_eq_blobOfEntries] at hlength ⊢
  have hafter := blobOfEntries_after v (tableEntries pres len)
    (bigEndianBytes n 8 ++ [BitVec.ofNat 8 pad] ++ q)
  obtain ⟨hversion, hhigh, hlow⟩ := blobOfEntries_header v (tableEntries pres len)
    (bigEndianBytes n 8 ++ [BitVec.ofNat 8 pad] ++ q)
  rw [tableEntries_length] at hafter hhigh hlow
  refine ⟨hlength, hversion, hhigh, hlow,
    ⟨presentSymbols pres, rfl, presentSymbols_pairwise pres, fun _ => mem_presentSymbols,
      fun j x hx => blobOfEntries_entry v _ (by simp [tableEntries, hx])⟩, fun i hi => ?_, ?_, ?_⟩
  · rw [hafter, List.append_assoc, List.getElem?_append_left (by simpa using hi),
      bigEndianBytes_getElem? n hi]
  · rw [show 11 + 2 * presentCount pres = 3 + 2 * presentCount pres + 8 by omega, hafter]
    rfl
  · rw [← blob_eq_blobOfEntries]
    exact List.drop_left' (by simp [tableBytes_length]; omega)

/-! #### SERIALIZE (R194) -/

/-- With a codebook, an input of present symbols and room, SERIALIZE ends with the blob, the input's
length and the padding (R194). -/
theorem exec_serialize_next (hcv : s.status.cv = true) (hcap : s.ibufLen ≤ s.cfg.ibufCap)
    (hpres : ∀ x ∈ s.input, s.pres.get x = true)
    (hfit : s.serialized.length ≤ s.cfg.obufCap.toNat) :
    exec .serialize s = .next (State.finish { s.output s.serialized with
      origlen := s.ibufLen, pad := BitVec.ofNat 8 (packbits s.len s.code s.input).2 }) :=
  exec_of_effect_ok (serializeEffect_ok.mpr ⟨hcv, hcap, hpres, hfit, rfl⟩)

/-- Settles O47: the checks stand in the order of R194, and what SERIALIZE leaves alone is its row
of R44. -/
theorem serializeResult : Obligations.SerializeResult := by
  refine ⟨decode_eq_ok.mpr rfl, fun s => ⟨fun hcv => ?_, fun hcv hover => ?_, fun hcv hcap =>
    ⟨fun habsent => ?_, fun hpres hover => ?_, fun hpres hfit => ?_⟩⟩⟩
  · exact exec_of_effect_error (serializeEffect_error.mpr (.inl ⟨hcv, rfl⟩))
  · exact exec_of_effect_error (serializeEffect_error.mpr (.inr (.inl ⟨hcv, hover, rfl⟩)))
  · exact exec_of_effect_error
      (serializeEffect_error.mpr (.inr (.inr (.inl ⟨hcv, hcap, habsent, rfl⟩))))
  · exact exec_of_effect_error
      (serializeEffect_error.mpr (.inr (.inr (.inr ⟨hcv, hcap, hpres, hover, rfl⟩))))
  · have hnext := exec_serialize_next hcv hcap hpres hfit
    have hlen := toNat_ofNat_of_le hfit
    obtain ⟨hhost, hfreq, htables, hcodes, -, -, hpayoff, -, -⟩ := commandFrames _ _ _ hnext
    exact ⟨_, hnext, rfl, ⟨hlen, State.outputBytes_of rfl hlen⟩, rfl, packbits_pad_toNat .., hhost,
      hfreq (by decide), htables (by decide), (hcodes (by decide)).1, hpayoff (by decide)⟩

/-! #### ENCODE (R197, R198) -/

theorem State.encoded_eq_encodeBlob (s : State) :
    s.encoded = encodeBlob s.cfg.formatVersion s.input := by
  rw [State.encoded, encodeBlob, State.input_length]

/-- With an input within its capacity and room for its blob, ENCODE ends with what R198 says. -/
theorem exec_encode_next (hcap : s.ibufLen ≤ s.cfg.ibufCap)
    (hfit : s.encoded.length ≤ s.cfg.obufCap.toNat) :
    exec .encode s = .next s.encodedState.finish :=
  exec_of_effect_ok (encodeEffect_ok.mpr ⟨hcap, hfit, rfl⟩)

/-- The symbols with a count are those that occur in the data (R111). -/
theorem mem_countedSymbols_count {d : List Byte} (h : d.length < 2 ^ 64) {x : Symbol} :
    x ∈ countedSymbols (count d) ↔ x ∈ d := by
  rw [mem_countedSymbols, Ne, ← BitVec.toNat_inj, count_get_toNat h, ← List.count_pos_iff]
  exact Nat.pos_iff_ne_zero.symm

/-- Every byte of the input is among the symbols that ENCODE gives a code (R130). -/
theorem lengths_count_input_present (s : State) :
    ∀ x ∈ s.input, (lengths (count s.input)).1.get x = true := by
  intro x hx
  have hlen : s.input.length < 2 ^ 64 := by
    rw [State.input_length]
    exact s.ibufLen.isLt
  rwa [lengths_pres, ← mem_countedSymbols, mem_countedSymbols_count hlen]

theorem State.accept_input (w : Word32) (s : State) : (s.accept w).input = s.input :=
  State.input_congr rfl rfl rfl

theorem State.accept_encoded (w : Word32) (s : State) : (s.accept w).encoded = s.encoded := by
  simp only [State.encoded, State.accept_input, State.accept_cfg, State.accept_ibufLen]

/-- The state that ANALYZE, BUILD and CANON leave, issued in that order (R112, R127, R145). -/
def State.prepared (s : State) : State :=
  let pl := lengths (count s.input)
  { s with
    freq := count s.input, origlen := s.ibufLen, pres := pl.1, len := pl.2,
    nsym := BitVec.ofNat 9 (presentCount pl.1), code := canon pl.1 pl.2, cmd := encode .canon,
    status := endedOk true, draws := s.draws + 3 }

theorem issue_prepared (hcap : s.ibufLen ≤ s.cfg.ibufCap) :
    ∃ a b, issue .analyze s = .next a ∧ issue .build a = .next b ∧
      issue .canon b = .next s.prepared := by
  refine ⟨_, _, exec_analyze_next (s := s.accept (encode .analyze)) hcap, exec_build _,
    (exec_canon _).trans ?_⟩
  rw [State.accept_input, State.prepared]
  generalize count s.input = f
  rfl

theorem State.prepared_input (s : State) : s.prepared.input = s.input :=
  State.input_congr rfl rfl rfl

/-- On the tables that the three commands leave, SERIALIZE's blob is that of ENCODE (R197). -/
theorem State.prepared_serialized (s : State) : s.prepared.serialized = s.encoded := by
  rw [State.serialized, State.prepared_input, State.encoded]
  simp only [State.prepared, presentCount_ofNat]

/-- SERIALIZE, issued after the three commands, ends with ENCODE's state, but for CMD and the draw
(R198). -/
theorem issue_serialize_prepared (w : Word32) (hcap : s.ibufLen ≤ s.cfg.ibufCap)
    (hfit : s.encoded.length ≤ s.cfg.obufCap.toNat) :
    let t := (s.accept w).encodedState.finish
    ∃ d, issue .serialize s.prepared = .next d ∧ t = { d with cmd := t.cmd, draws := t.draws } := by
  have hin : (s.prepared.accept (encode .serialize)).input = s.input := s.prepared_input
  have hout : (s.prepared.accept (encode .serialize)).serialized = s.encoded :=
    s.prepared_serialized
  have hpres : ∀ x ∈ (s.prepared.accept (encode .serialize)).input, s.prepared.pres.get x = true :=
    hin ▸ lengths_count_input_present s
  refine ⟨_, exec_serialize_next rfl hcap hpres (hout ▸ hfit), ?_⟩
  rw [hin, hout, State.encodedState, State.accept_input, State.accept_encoded, State.prepared]
  generalize count s.input = f
  generalize s.encoded = out
  rfl

/-- Settles O54: SERIALIZE after ANALYZE, BUILD and CANON packs the same input by the same tables, and
what ENCODE leaves alone is its row of R44. -/
theorem encodeResult : Obligations.EncodeResult := by
  refine ⟨decode_eq_ok.mpr rfl, fun s t h herr => ?_, fun s => ?_⟩
  · rcases exec_cases h with ⟨u, hu, rfl⟩ | ⟨e, -, rfl⟩
    · obtain ⟨hcap, hfit, rfl⟩ := encodeEffect_ok.mp hu
      obtain ⟨a, b, ha, hb, hc⟩ := issue_prepared (s := s) hcap
      rw [State.accept_encoded] at hfit
      obtain ⟨d, hd, ht⟩ := issue_serialize_prepared (encode .encode) hcap hfit
      exact ⟨a, b, _, d, ha, hb, hc, hd, ht⟩
    · simp at herr
  · simp only [← State.encoded_eq_encodeBlob]
    refine ⟨fun hover => ?_, fun hcap => ⟨fun hover => ?_, fun hfit => ?_⟩⟩
    · exact exec_of_effect_error (encodeEffect_error.mpr (.inl ⟨hover, rfl⟩))
    · exact exec_of_effect_error (encodeEffect_error.mpr (.inr ⟨hcap, hover, rfl⟩))
    · have hnext := exec_encode_next hcap hfit
      have hlen := toNat_ofNat_of_le hfit
      obtain ⟨hhost, -, -, -, -, -, hpayoff, -, -⟩ := commandFrames _ _ _ hnext
      exact ⟨_, hnext, rfl, ⟨hlen, State.outputBytes_of rfl hlen⟩, rfl, rfl, rfl,
        presentCount_ofNat _, rfl, packbits_pad_toNat .., hhost, hpayoff (by decide)⟩

/-! #### ENCODE and DECODE are functions of their input (R199, R221) -/

/-- Two states in which ENCODE or DECODE meets the same input under the same parameters. -/
structure SameInput (s s' : State) : Prop where
  cfg : s.cfg = s'.cfg
  ibufLen : s.ibufLen = s'.ibufLen
  input : s.input = s'.input

theorem SameInput.encoded (h : SameInput s s') : s.encoded = s'.encoded := by
  simp only [State.encoded, h.cfg, h.ibufLen, h.input]

/-- What ENCODE or DECODE writes is the same in both states (R198, R220). -/
structure SameResult (i : Instr) (t t' : State) : Prop where
  status : t.status = t'.status
  outputBytes : t.outputBytes = t'.outputBytes
  origlen : t.origlen = t'.origlen
  pres : t.pres = t'.pres
  len : t.len = t'.len
  nsym : t.nsym = t'.nsym
  code : t.code = t'.code
  pad : t.pad = t'.pad
  freq : i = .encode → t.freq = t'.freq
  payoff : i = .decode → t.payoff = t'.payoff

theorem SameInput.encode_ok (h : SameInput s s') (hu : encodeEffect s = .ok u) :
    ∃ u', encodeEffect s' = .ok u' ∧ SameResult .encode u.finish u'.finish := by
  have hout := h.encoded
  obtain ⟨hcfg, hlen, hin⟩ := h
  obtain ⟨hcap, hfit, rfl⟩ := encodeEffect_ok.mp hu
  have hn := toNat_ofNat_of_le hfit
  rw [hcfg] at hcap hfit
  rw [hlen] at hcap
  refine ⟨_, encodeEffect_ok.mpr ⟨hcap, hout ▸ hfit, rfl⟩, ?_⟩
  constructor
  case outputBytes =>
    rw [State.outputBytes_of (bytes := s.encoded) (by simp) (by simpa using hn),
      State.outputBytes_of (bytes := s'.encoded) (by simp) (by simpa [← hout] using hn), hout]
  all_goals simp [hlen, hin, Status.ended, Status.setCv]

theorem SameInput.decode_ok (h : SameInput s s') (hu : decodeEffect s = .ok u) :
    ∃ u', decodeEffect s' = .ok u' ∧ SameResult .decode u.finish u'.finish := by
  obtain ⟨hcfg, hlen, hin⟩ := h
  obtain ⟨hcap, r, hr, x, hx, rfl⟩ := decodeEffect_ok.mp hu
  obtain ⟨hcount, hfit⟩ := unpackbits_length hx
  have hn : (BitVec.ofNat 64 x.length).toNat = x.length := toNat_ofNat_of_le (hcount ▸ hfit)
  rw [hcfg] at hcap hr hx
  rw [hlen] at hcap
  rw [hin] at hr hx
  refine ⟨_, decodeEffect_ok.mpr ⟨hcap, r, hr, x, hx, rfl⟩, ?_⟩
  constructor
  case outputBytes =>
    rw [State.outputBytes_of (bytes := x) rfl hn, State.outputBytes_of (bytes := x) rfl hn]
  all_goals simp [Status.ended, Status.setCv]

theorem SameInput.effect_ok (h : SameInput s s') {i : Instr} (hi : i = .encode ∨ i = .decode)
    (hu : effect i s = .ok u) : ∃ u', effect i s' = .ok u' ∧ SameResult i u.finish u'.finish := by
  rcases hi with rfl | rfl
  · exact h.encode_ok hu
  · exact h.decode_ok hu

/-- The error is the same too (R199, R221). -/
theorem SameInput.effect_error (h : SameInput s s') {i : Instr} {e : CmdError}
    (hi : i = .encode ∨ i = .decode) (he : effect i s = .error e) : effect i s' = .error e := by
  have hout := h.encoded
  obtain ⟨hcfg, hlen, hin⟩ := h
  rcases hi with rfl | rfl
  · have herr := encodeEffect_error.mp he
    rw [hcfg, hlen, hout] at herr
    exact encodeEffect_error.mpr herr
  · have herr := decodeEffect_error.mp he
    rw [hcfg, hlen, hin] at herr
    exact decodeEffect_error.mpr herr

/-- Settles O55: the command has the same effect in both states, or fails with the same error, which
leaves the output empty. -/
theorem compositesDependOnInputAlone : Obligations.CompositesDependOnInputAlone := by
  intro s s' t t' hcfg hlen hin i hi h h'
  have hsame : SameInput s s' := ⟨hcfg, hlen, hin⟩
  rcases exec_cases h with ⟨u, hu, rfl⟩ | ⟨e, he, rfl⟩
  · obtain ⟨u', hu', hr⟩ := hsame.effect_ok hi hu
    cases (exec_of_effect_ok hu').symm.trans h'
    exact ⟨rfl, rfl, hr.outputBytes, fun _ => ⟨hr.status, hr.origlen, hr.pres, hr.len, hr.nsym,
      hr.code, hr.pad, hr.freq, hr.payoff⟩⟩
  · cases (exec_of_effect_error (hsame.effect_error hi he)).symm.trans h'
    exact ⟨rfl, rfl, rfl, nofun⟩

/-! #### None or one symbol (R200, R201) -/

/-- The bytes of a stream of zero bits are zero (R157). -/
theorem bytesOfBits_replicate_false (m k : Nat) :
    bytesOfBits m (List.replicate k false) = List.replicate m 0 := by
  induction m generalizing k with
  | zero => rfl
  | succ m ih =>
    have hzero : ∀ j, valOf (List.replicate j false) = 0 := fun j => by
      have := valOf_bitsOf 0 j
      rwa [bitsOf_zero, Nat.zero_mod] at this
    rw [bytesOfBits, List.take_replicate, hzero, List.drop_replicate, ih]
    rfl

/-- A payload whose codes are all one zero bit is zero bytes (R93, R157). -/
theorem packbits_replicate {len : Table Byte} {code : Table CodeWord} {x : Symbol}
    (hcode : codeBits len code x = [false]) (n : Nat) :
    packbits len code (List.replicate n x) =
      (List.replicate ((n + 7) / 8) 0, (8 - n % 8) % 8) := by
  have hstream : codeStream len code (List.replicate n x) = List.replicate n false := by
    rw [codeStream, List.flatMap_replicate, hcode, List.flatten_replicate_singleton]
  rw [packbits]
  simp only [hstream, List.replicate_append_replicate, bytesOfBits_replicate_false,
    List.length_replicate, padOf]
  congr 2
  omega

/-- Of one repeated byte only that byte is counted (R111). -/
theorem countedSymbols_count_replicate {n : Nat} (h1 : 1 ≤ n) (h : n < 2 ^ 64) (x : Byte) :
    countedSymbols (count (List.replicate n x)) = [x] := by
  have hn : (countedSymbols (count (List.replicate n x))).Nodup := Table.symbolsWhere_nodup _ _
  refine List.perm_singleton.mp
    ((List.perm_ext_iff_of_nodup hn (List.nodup_singleton x)).mpr fun y => ?_)
  rw [mem_countedSymbols_count (by rwa [List.length_replicate]), List.mem_replicate,
    List.mem_singleton, and_iff_right (Nat.ne_of_gt h1)]

/-- The code of the only symbol is one zero bit (R129, R147). -/
theorem codeBits_of_countedSymbols {f : Table Word64} {x : Symbol} (h : countedSymbols f = [x]) :
    codeBits (lengths f).2 (canon (lengths f).1 (lengths f).2) x = [false] := by
  have hone : ∀ y, (lengths f).1.get y = true ↔ y = x := fun y => by
    rw [lengths_pres, ← mem_countedSymbols, h, List.mem_singleton]
  rw [(oneSymbolCode _ _ x hone).2, lengths_len_single h]
  rfl

/-- Settles O56: without data there are no symbols, and one repeated byte has a one-bit code. -/
theorem encodeOfNoneOrOneSymbol : Obligations.EncodeOfNoneOrOneSymbol := by
  intro v
  constructor
  · have hnone : countedSymbols (count []) = [] :=
      List.eq_nil_iff_forall_not_mem.mpr fun x hx =>
        List.not_mem_nil ((mem_countedSymbols_count (by decide)).mp hx)
    simp only [encodeBlob, blob, tableBytes, lengths_presentCount, lengths_presentSymbols, hnone]
    rfl
  · intro x n h1 h
    have hone := countedSymbols_count_replicate h1 h x
    have hcount : bigEndianBytes [x].length 2 = [0, 1] := show bigEndianBytes 1 2 = [0, 1] by decide
    simp only [encodeBlob, blob, tableBytes, lengths_presentCount, lengths_presentSymbols, hone,
      packbits_replicate (codeBits_of_countedSymbols hone), List.flatMap_singleton,
      lengths_len_single hone, List.length_replicate, hcount]
    rfl

end Sys2Proof.Machine

/-! ### PARSE and DECODE (R211 to R223) -/

namespace Sys2Proof.Machine

variable {s s' t t' : State} {pres : Table Bool} {len : Table Byte} {es es' : List (Symbol × Byte)}
  {v : Byte} {b q out : List Byte} {r : Parsed} {e : CmdError} {n pad cap : Nat}

/-! #### The entries of a symbol table, in any order (R212, R214) -/

/-- Where no symbol stands twice, the length found for a symbol is that of its entry. -/
theorem lookup_eq_some_iff_mem {x : Symbol} {l : Byte} (hn : (es.map (·.1)).Nodup) :
    es.lookup x = some l ↔ (x, l) ∈ es := by
  rw [List.lookup_eq_some_iff]
  constructor
  · rintro ⟨before, after, rfl, -⟩
    simp
  · intro hmem
    obtain ⟨before, after, rfl⟩ := List.append_of_mem hmem
    refine ⟨before, after, rfl, fun y hy => ?_⟩
    rw [List.map_append, List.nodup_append] at hn
    exact bne_iff_ne.mpr (hn.2.2 y.1 (List.mem_map_of_mem hy) x (by simp)).symm

/-- Entries in another order give the same tables, or the same error. -/
theorem loadEntries_perm (h : es.Perm es') :
    loadEntries es (Table.const false) (Table.const 0) =
      loadEntries es' (Table.const false) (Table.const 0) := by
  have hkeys := h.map (·.1)
  by_cases hn : (es.map (·.1)).Nodup
  case neg =>
    rw [loadEntries_error fun hc => hn hc.1,
      loadEntries_error fun hc => hn (hkeys.nodup_iff.mpr hc.1)]
  case pos =>
    have hn' := hkeys.nodup_iff.mp hn
    have hlookup : ∀ x, es.lookup x = es'.lookup x := fun x => Option.ext fun l => by
      rw [lookup_eq_some_iff_mem hn, lookup_eq_some_iff_mem hn', h.mem_iff]
    obtain ⟨p, l, hload, -, -⟩ := loadEntries_ok (p := Table.const false) (l := Table.const 0) hn
      (by simp)
    obtain ⟨-, hp, hl⟩ := loadEntries_empty_ok.mp hload
    rw [hload, loadEntries_empty_ok.mpr
      ⟨hn', fun x => (hp x).trans hkeys.mem_iff, fun x => hlookup x ▸ hl x⟩]

/-- The serializer's entries give the tables they were made from (R191, R212). -/
theorem loadEntries_tableEntries (habs : ∀ x, pres.get x = false → len.get x = 0) :
    loadEntries (tableEntries pres len) (Table.const false) (Table.const 0) = .ok (pres, len) := by
  have hkeys : (tableEntries pres len).map (·.1) = presentSymbols pres := by
    simp [tableEntries, Function.comp_def]
  have hn : ((tableEntries pres len).map (·.1)).Nodup := hkeys ▸ presentSymbols_nodup pres
  refine loadEntries_empty_ok.mpr ⟨hn, fun x => by rw [hkeys, mem_presentSymbols], fun x => ?_⟩
  cases hx : pres.get x with
  | true =>
    have hmem : (x, len.get x) ∈ tableEntries pres len :=
      List.mem_map_of_mem (mem_presentSymbols.mpr hx)
    rw [(lookup_eq_some_iff_mem hn).mpr hmem, Option.getD_some]
  | false =>
    have hnone : (tableEntries pres len).lookup x = none :=
      Option.eq_none_iff_forall_ne_some.mpr fun l hl => by
        have hmem := List.mem_map_of_mem (f := (·.1)) ((lookup_eq_some_iff_mem hn).mp hl)
        rw [hkeys, mem_presentSymbols, hx] at hmem
        cases hmem
    rw [habs x hx, hnone, Option.getD_none]

/-! #### Parsing a blob (R211, R212, R222) -/

/-- A symbol in two entries is refused (R212, R214). -/
theorem parse_duplicate (after : List Byte) (h : es.length ≤ 256) (hn : ¬ (es.map (·.1)).Nodup) :
    parse v (blobOfEntries v es after) = .error .corruptSymbolTable := by
  rw [parse_blobOfEntries v after h, loadEntries_error fun hc => hn hc.1]
  rfl

/-- Where the entries load, the test of R215 stands before the fields after the table (R212). -/
theorem parse_of_loaded {after : List Byte} (h : es.length ≤ 256)
    (hload : loadEntries es (Table.const false) (Table.const 0) = .ok (pres, len)) :
    parse v (blobOfEntries v es after) =
      if legalLengths es.length pres len then parseFixed (blobOfEntries v es after) es.length pres len
      else .error .corruptSymbolTable := by
  rw [parse_blobOfEntries v after h, hload]
  rfl

/-- On the serializer's table the fields after it decide (R212). -/
theorem parse_tableEntries (hleg : LegalTable pres len) (after : List Byte) :
    parse v (blobOfEntries v (tableEntries pres len) after) =
      parseFixed (blobOfEntries v (tableEntries pres len) after) (tableEntries pres len).length
        pres len := by
  have hcount := tableEntries_length pres len
  rw [parse_of_loaded (hcount ▸ presentCount_le pres) (loadEntries_tableEntries hleg.absent),
    if_pos (hcount ▸ legalLengths_of hleg)]

/-- Every field of a blob is read back as it was written (R85, R212). -/
theorem parse_blob (v : Byte) (hleg : LegalTable pres len) (hn : n < 2 ^ 64) (h7 : pad ≤ 7)
    (h0 : q = [] → pad = 0) (hempty : presentCount pres = 0 → n = 0) :
    parse v (blob v pres len (presentCount pres) n pad q) = .ok
      { pres := pres, len := len, nsym := presentCount pres, origlen := n, pad := pad,
        payoff := 12 + 2 * presentCount pres } := by
  have hcount := tableEntries_length pres len
  have horiglen : bigEndian (bigEndianBytes n 8) = n := by
    rw [bigEndian_bigEndianBytes, Nat.mod_eq_of_lt (by omega)]
  have hafter : (bigEndianBytes n 8 ++ [BitVec.ofNat 8 pad] ++ q).length = 9 + q.length := by
    simp only [List.length_append, bigEndianBytes_length, List.length_singleton]
  rw [blob_eq_blobOfEntries, parse_tableEntries hleg, parseFixed_blobOfEntries_ok]
  refine ⟨rfl, rfl, by omega, hcount.symm, horiglen.symm, rfl, h7, by rw [hcount],
    fun hnil => hempty ?_, fun hlast => h0 ?_⟩
  · rw [← hcount, hnil, List.length_nil]
  · exact List.length_eq_zero_iff.mp (by omega)

/-- A padding without payload is found when the rest is in order (R212, R216). -/
theorem parse_blob_paddingAlone (hleg : LegalTable pres len) (hn : n < 2 ^ 64) (h7 : pad ≤ 7)
    (hpos : pad ≠ 0) (hempty : presentCount pres = 0 → n = 0) :
    parse v (blob v pres len (presentCount pres) n pad []) = .error .invalidPadding := by
  have hcount := tableEntries_length pres len
  have horiglen : bigEndian ((bigEndianBytes n 8 ++ [BitVec.ofNat 8 pad]).take 8) = n := by
    rw [List.take_left' (bigEndianBytes_length n 8), bigEndian_bigEndianBytes,
      Nat.mod_eq_of_lt (by omega)]
  have hpad : ((bigEndianBytes n 8 ++ [BitVec.ofNat 8 pad]).getD 8 0).toNat = pad :=
    Nat.mod_eq_of_lt (by omega)
  rw [blob_eq_blobOfEntries, List.append_nil, parse_tableEntries hleg, parseFixed_blobOfEntries,
    if_neg (by simp), horiglen, hpad, if_neg, if_neg (Nat.not_lt.mpr h7),
    if_pos ⟨by simp, Nat.pos_of_ne_zero hpos⟩]
  rintro ⟨hnil, hlt⟩
  exact hlt.ne' (hempty (by rw [← hcount, hnil, List.length_nil]))

/-- Without its padding byte a blob without payload is too short (R212). -/
theorem parse_blob_withoutPadding (hleg : LegalTable pres len) :
    parse v (blob v pres len (presentCount pres) n pad []).dropLast = .error .corruptHeader := by
  have hcut : (blob v pres len (presentCount pres) n pad []).dropLast =
      blobOfEntries v (tableEntries pres len) (bigEndianBytes n 8) := by
    rw [blob_eq_blobOfEntries, List.append_nil, blobOfEntries_append, ← List.append_assoc,
      List.dropLast_concat, ← blobOfEntries_append]
  rw [hcut, parse_tableEntries hleg, parseFixed_blobOfEntries, if_pos (by simp)]

/-- Settles O53: the blob's tables are those of its entries, and its fields stand where `parse` looks. -/
theorem parseInvertsBlob : Obligations.ParseInvertsBlob := by
  intro v pres len n pad q hleg hn h7 h0 hempty
  obtain ⟨-, -, -, -, -, -, -, hpayload⟩ := blobLayout v pres len n pad q hn h7
  exact ⟨_, parse_blob v hleg hn h7 h0 hempty, rfl, rfl, rfl, rfl, rfl, hpayload⟩

/-! #### What the unpacker makes of a parsed table (R173, R174, R179) -/

section Unpack

variable {p : List Byte} {count : Nat} {code : Table CodeWord}

/-- With the number of present symbols and no symbol wanted of none, the unpacker fails only where the bits
run out or the output does not fit (R174, R220). -/
theorem unpackbits_error_of_count (h7 : pad ≤ 7) (h0 : p = [] → pad = 0)
    (hempty : presentCount pres = 0 → count = 0)
    (h : unpackbits cap p pres len code (presentCount pres) pad count = .error e) :
    e = .truncatedPayload ∨ e = .noSpace := by
  have hn : ¬ (presentCount pres = 0 ∧ 0 < count) := fun hc => hc.2.ne' (hempty hc.1)
  by_cases h1 : presentCount pres = 1
  case neg =>
    rw [unpackbits_many h7 h0 hn h1, unpackMany_eq_loop] at h
    exact (unpackLoop_error h).imp_right And.left
  case pos =>
    obtain ⟨x₀, hx₀⟩ := List.length_eq_one_iff.mp h1
    rw [h1, unpackbits_one h7 h0 hx₀, unpackOne_eq_loop] at h
    exact (unpackLoop_error h).imp_right And.left

/-- Of two data of one length the codes of neither begin those of the other (R146, R182). -/
theorem eq_of_codeStream_prefix {d d' : List Byte} (hleg : LegalTable pres len)
    (h2 : 2 ≤ presentCount pres) (hlen : d'.length = d.length) (hd : ∀ x ∈ d, pres.get x = true)
    (hd' : ∀ x ∈ d', pres.get x = true)
    (h : codeStream len (canon pres len) d' <+: codeStream len (canon pres len) d) : d' = d := by
  obtain ⟨h7, h0⟩ := packbits_legalPadding len (canon pres len) d
  have hok := ((unpackReadsTheCodes d.length _ pres len _ d.length hleg h2 h7 h0 le_rfl).1 d').mpr
    ⟨hlen, hd', by rwa [packbits_meaningfulBits]⟩
  exact Except.ok.inj (hok.symm.trans (unpackInvertsPack pres len d _ hleg hd le_rfl))

/-- Data of the only present symbol is that symbol repeated. -/
theorem eq_replicate_of_presentCount_eq_one {d : List Byte} (hn : presentCount pres = 1)
    (hd : ∀ x ∈ d, pres.get x = true) :
    ∃ x₀, (∀ x, pres.get x = true ↔ x = x₀) ∧ d = List.replicate d.length x₀ := by
  obtain ⟨x₀, hx₀⟩ := List.length_eq_one_iff.mp hn
  have hone : ∀ x, pres.get x = true ↔ x = x₀ := fun x => by
    rw [← mem_presentSymbols, hx₀, List.mem_singleton]
  exact ⟨x₀, hone, List.eq_replicate_of_mem fun x hx => (hone x).mp (hd x hx)⟩

/-- A beginning of a packed payload with fewer meaningful bits than the data has code bits does not give
the data (R179, R223). -/
theorem unpackbits_truncated {d : List Byte} (hleg : LegalTable pres len)
    (hd : ∀ x ∈ d, pres.get x = true) (hfit : d.length ≤ cap) (h7 : pad ≤ 7)
    (h0 : p = [] → pad = 0) (hp : p <+: (packbits len (canon pres len) d).1)
    (hbits : 8 * p.length - pad < codeBitCount len d) :
    unpackbits cap p pres len (canon pres len) (presentCount pres) pad d.length =
      .error .truncatedPayload := by
  obtain hn | hn | hn : presentCount pres = 0 ∨ presentCount pres = 1 ∨ 2 ≤ presentCount pres := by
    omega
  · rw [eq_nil_of_presentCount_eq_zero hn hd] at hbits
    exact absurd hbits (Nat.not_lt_zero _)
  · obtain ⟨x₀, hone, hrep⟩ := eq_replicate_of_presentCount_eq_one hn hd
    rw [hrep, codeBitCount_replicate] at hbits
    rw [hn, unpackOneSymbol cap p pres len _ pad d.length x₀ hone h7 h0 hfit,
      if_neg (Nat.not_le.mpr hbits)]
  · obtain ⟨hok, herr⟩ := unpackReadsTheCodes cap p pres len pad d.length hleg hn h7 h0 hfit
    cases hr : unpackbits cap p pres len (canon pres len) (presentCount pres) pad d.length with
    | error e => rw [herr e hr]
    | ok d' =>
      obtain ⟨hlen, hd', hprefix⟩ := (hok d').mp hr
      have hshort : (codeStream len (canon pres len) d').length <
          (codeStream len (canon pres len) d).length := by
        rw [codeStream_length_eq_codeBitCount len _ d]
        exact Nat.lt_of_le_of_lt (hprefix.length_le.trans (List.length_take_le _ _)) hbits
      have hcodes : codeStream len (canon pres len) d <+:
          streamBits (packbits len (canon pres len) d).1 :=
        streamBits_packbits len (canon pres len) d ▸ List.prefix_append _ _
      have hcodes' : codeStream len (canon pres len) d' <+:
          streamBits (packbits len (canon pres len) d).1 :=
        (hprefix.trans (List.take_prefix _ _)).trans (hp.flatMap _)
      have hstream := List.prefix_of_prefix_length_le hcodes' hcodes hshort.le
      have hd'd : d' = d := eq_of_codeStream_prefix hleg hn hlen hd hd' hstream
      rw [hd'd] at hshort
      exact absurd hshort (Nat.lt_irrefl _)

end Unpack

/-! #### The errors of `parse` in the order of its tests (R211, R217) -/

/-- A blob that ends before its symbol_count (R217). -/
theorem parse_short {rest : List Byte} (h : rest.length < 2) :
    parse v (v :: rest) = .error .corruptHeader := by
  have hv : byteAt (v :: rest) 0 = v := rfl
  rw [parse, if_neg (by simp), hv, if_neg (not_not_intro rfl),
    if_pos (show (v :: rest).length < 3 from Nat.succ_lt_succ h)]

theorem memRead_symbolCount_pair (v hi lo : Byte) (rest : List Byte) :
    memRead (v :: hi :: lo :: rest) 1 2 = 256 * hi.toNat + lo.toNat := by
  simp [memRead, bigEndian]

/-- What a symbol_count decides: too many entries, or fewer bytes than they take (R217). -/
theorem parse_symbolCount {hi lo : Byte} {rest : List Byte} :
    (256 < 256 * hi.toNat + lo.toNat →
      parse v (v :: hi :: lo :: rest) = .error .corruptHeader) ∧
    (256 * hi.toNat + lo.toNat ≤ 256 → rest.length < 2 * (256 * hi.toNat + lo.toNat) →
      parse v (v :: hi :: lo :: rest) = .error .corruptSymbolTable) := by
  have hv : byteAt (v :: hi :: lo :: rest) 0 = v := rfl
  rw [parse, if_neg (by simp), hv, if_neg (not_not_intro rfl), if_neg (by simp)]
  simp only [memRead_symbolCount_pair, List.length_cons]
  refine ⟨fun hc => if_pos hc, fun hc hshort => ?_⟩
  rw [if_neg (Nat.not_lt.mpr hc), if_pos (by omega)]

/-- Settles O50: the tests before the table see the first bytes, and those after it what the entries give. -/
theorem parseErrors : Obligations.ParseErrors := by
  refine fun v => ⟨rfl, fun x rest => parse_other_version rest, parse_short (by simp),
    fun x => parse_short (by simp), fun hi lo rest => parse_symbolCount.1,
    fun hi lo rest => parse_symbolCount.2, fun es after pres len hes hpres hlen => ?_⟩
  refine ⟨parse_duplicate after hes, fun hn => ?_⟩
  have hleg := legalLengths_entries hn hpres hlen
  rw [parse_of_loaded hes (loadEntries_empty_ok.mpr ⟨hn, hpres, hlen⟩)]
  refine ⟨fun hill => if_neg (mt hleg.mp hill), fun h => ?_⟩
  rw [if_pos (hleg.mpr h), parseFixed_blobOfEntries]
  refine ⟨fun hshort => if_pos hshort, fun h9 => ?_⟩
  rw [if_neg (Nat.not_lt.mpr h9)]
  simp only [Nat.pos_iff_ne_zero]
  refine ⟨fun hnil hne => if_pos ⟨hnil, hne⟩, fun hne hpad => ?_⟩
  rw [if_neg hne]
  by_cases h7 : 7 < (after.getD 8 0).toNat
  · exact if_pos h7
  · rw [if_neg h7]
    exact if_pos (hpad.resolve_left h7)

/-! #### PARSE (R213) -/

/-- What a parsed blob gives fits the registers that it is loaded into, and the payload begins within the
blob (R212, R213). -/
structure Parsed.Fits (r : Parsed) (b : List Byte) : Prop where
  nsym : (BitVec.ofNat 9 r.nsym).toNat = r.nsym
  origlen : (BitVec.ofNat 64 r.origlen).toNat = r.origlen
  pad : (BitVec.ofNat 8 r.pad).toNat = r.pad
  payoff : (BitVec.ofNat 64 r.payoff).toNat = r.payoff
  payoff_le : r.payoff ≤ b.length

theorem parse_fits (h : parse v b = .ok r) : r.Fits b := by
  obtain ⟨es, after, rfl, hes, -, h9, -, -, -, hnsym, horiglen, -, hpad, hpayoff, -, -⟩ :=
    (parseAcceptsExactly v b r).mp h
  have hfield : bigEndian (after.take 8) < 256 ^ 8 := by
    have hlt := bigEndian_lt (after.take 8)
    rwa [List.length_take_of_le (by omega)] at hlt
  constructor
  case payoff_le =>
    rw [blobOfEntries_length]
    omega
  all_goals
    rw [BitVec.toNat_ofNat]
    exact Nat.mod_eq_of_lt (by omega)

/-- What a parsed blob gives passes the tests with which the unpacker begins (R174, R175, R220). -/
theorem parse_unpackable (h : parse v b = .ok r) : r.pad ≤ 7 ∧ (b.drop r.payoff = [] → r.pad = 0) ∧
    (presentCount r.pres = 0 → r.origlen = 0) := by
  obtain ⟨es, after, rfl, -, -, h9, -, -, -, hnsym, -, -, hpad, hpayoff, hzero, hlast⟩ :=
    (parseAcceptsExactly v b r).mp h
  refine ⟨hpad, fun hnil => hlast ?_, fun hnone => hzero ?_⟩
  · rw [List.drop_eq_nil_iff, blobOfEntries_length] at hnil
    omega
  · exact List.length_eq_zero_iff.mp (by rw [← hnsym, ← parse_presentCount h, hnone])

/-- With an input that parses PARSE ends with what it says loaded, and without a codebook (R213). -/
theorem exec_parse_next (hcap : s.ibufLen ≤ s.cfg.ibufCap)
    (hr : parse s.cfg.formatVersion s.input = .ok r) :
    exec .parse s =
      .next (State.setCv false { s.loadParsed r with code := Table.const 0 }).finish :=
  exec_of_effect_ok (parseEffect_ok.mpr ⟨hcap, r, hr, rfl⟩)

/-- Settles O48: what `parse` returns fits its registers, and what PARSE leaves alone is its row of R44. -/
theorem parseResult : Obligations.ParseResult := by
  refine ⟨decode_eq_ok.mpr rfl, fun s => ⟨fun hover => ?_, fun hcap => ⟨fun e he => ?_, fun r hr => ?_⟩⟩⟩
  · exact exec_of_effect_error (parseEffect_error.mpr (.inl ⟨hover, rfl⟩))
  · exact exec_of_effect_error (parseEffect_error.mpr (.inr ⟨hcap, he⟩))
  · have hnext := exec_parse_next hcap hr
    obtain ⟨hnsym, horiglen, hpad, hpayoff, -⟩ := parse_fits hr
    obtain ⟨hhost, hfreq, -, -, -, -, -, hout, -⟩ := commandFrames _ _ _ hnext
    exact ⟨_, hnext, rfl, rfl, rfl, hnsym, horiglen, hpad, hpayoff, Table.get_const 0, hhost,
      hfreq (by decide), hout (by decide) rfl⟩

/-! #### DECODE (R219, R220) -/

/-- `decode(b)` of R219, with the capacity of the output: what `parse` returns, and the data. -/
def decodeBlob (version : Byte) (cap : Nat) (b : List Byte) : Except CmdError (Parsed × List Byte) := do
  let r ← parse version b
  let out ← unpackbits cap (b.drop r.payoff) r.pres r.len (canon r.pres r.len) r.nsym r.pad r.origlen
  return (r, out)

theorem decodeBlob_ok : decodeBlob v cap b = .ok (r, out) ↔ parse v b = .ok r ∧
    unpackbits cap (b.drop r.payoff) r.pres r.len (canon r.pres r.len) r.nsym r.pad r.origlen =
      .ok out := by
  simp only [decodeBlob, except_bind_ok, pure, Except.pure, Except.ok.injEq, Prod.mk.injEq]
  constructor
  · rintro ⟨r', hr, out', hout, rfl, rfl⟩
    exact ⟨hr, hout⟩
  · rintro ⟨hr, hout⟩
    exact ⟨r, hr, out, hout, rfl, rfl⟩

theorem decodeBlob_error : decodeBlob v cap b = .error e ↔ parse v b = .error e ∨
    ∃ r, parse v b = .ok r ∧
      unpackbits cap (b.drop r.payoff) r.pres r.len (canon r.pres r.len) r.nsym r.pad r.origlen =
        .error e := by
  simp only [decodeBlob, except_bind_error, pure, Except.pure, reduceCtorEq, and_false, exists_false,
    or_false]

/-- The state that DECODE leaves on success, before it ends (R220). -/
def State.decodedState (r : Parsed) (out : List Byte) (s : State) : State :=
  State.setCv true { (s.loadParsed r).output out with code := canon r.pres r.len }

/-- DECODE's output holds the data, which fits the buffer. -/
theorem outputIs_decodedState (s : State)
    (h : decodeBlob v s.cfg.obufCap.toNat b = .ok (r, out)) :
    OutputIs (s.decodedState r out).finish out := by
  obtain ⟨hcount, hfit⟩ := unpackbits_length (decodeBlob_ok.mp h).2
  have hlen : (BitVec.ofNat 64 out.length).toNat = out.length := toNat_ofNat_of_le (hcount ▸ hfit)
  exact ⟨hlen, State.outputBytes_of rfl hlen⟩

theorem raises_decode_badArgument (h : s.cfg.ibufCap < s.ibufLen) :
    Raises .decode s .badArgument :=
  exec_of_effect_error (decodeEffect_error.mpr (.inl ⟨h, rfl⟩))

section Decode

variable (hcap : s.ibufLen ≤ s.cfg.ibufCap)
include hcap

theorem exec_decode_next
    (h : decodeBlob s.cfg.formatVersion s.cfg.obufCap.toNat s.input = .ok (r, out)) :
    exec .decode s = .next (s.decodedState r out).finish := by
  obtain ⟨hr, hout⟩ := decodeBlob_ok.mp h
  exact exec_of_effect_ok (decodeEffect_ok.mpr ⟨hcap, r, hr, out, hout, rfl⟩)

theorem raises_decode
    (h : decodeBlob s.cfg.formatVersion s.cfg.obufCap.toNat s.input = .error e) :
    Raises .decode s e :=
  exec_of_effect_error (decodeEffect_error.mpr (.inr ⟨hcap, decodeBlob_error.mp h⟩))

end Decode

/-- A DECODE that ends without error met an input within the capacity, and decoded it. -/
theorem decode_ok_of_exec (h : exec .decode s = .next t) (herr : t.status.err = false) :
    s.ibufLen ≤ s.cfg.ibufCap ∧
      ∃ r out, decodeBlob s.cfg.formatVersion s.cfg.obufCap.toNat s.input = .ok (r, out) ∧
        t = (s.decodedState r out).finish := by
  rcases exec_cases h with ⟨u, hu, rfl⟩ | ⟨e, -, rfl⟩
  · obtain ⟨hcap, r, hr, out, hout, rfl⟩ := decodeEffect_ok.mp hu
    exact ⟨hcap, r, out, decodeBlob_ok.mpr ⟨hr, hout⟩, rfl⟩
  · simp at herr

/-- The state that PARSE and CANON leave, issued in that order on a blob that parses (R145, R213). -/
def State.restored (r : Parsed) (s : State) : State :=
  { s.loadParsed r with
    code := canon r.pres r.len, cmd := encode .canon, status := endedOk true, draws := s.draws + 2 }

theorem issue_restored (hcap : s.ibufLen ≤ s.cfg.ibufCap)
    (hr : parse s.cfg.formatVersion s.input = .ok r) :
    ∃ a, issue .parse s = .next a ∧ issue .canon a = .next (s.restored r) :=
  ⟨_, exec_parse_next (s := s.accept (encode .parse)) hcap hr, exec_canon _⟩

/-- UNPACK, issued after the two commands, ends with DECODE's state, but for CMD and the draw (R220). -/
theorem issue_unpack_restored (w : Word32) (hcap : s.ibufLen ≤ s.cfg.ibufCap)
    (h : decodeBlob s.cfg.formatVersion s.cfg.obufCap.toNat s.input = .ok (r, out)) :
    let t := ((s.accept w).decodedState r out).finish
    ∃ c, issue .unpack (s.restored r) = .next c ∧ t = { c with cmd := t.cmd, draws := t.draws } := by
  obtain ⟨hr, hout⟩ := decodeBlob_ok.mp h
  obtain ⟨hnsym, horiglen, hpad, hpayoff, hle⟩ := parse_fits hr
  have hin : ((s.restored r).accept (encode .unpack)).input = s.input := State.input_congr rfl rfl rfl
  have hoff : BitVec.ofNat 64 r.payoff ≤ s.ibufLen := by
    rw [BitVec.le_def, hpayoff, ← State.input_length]
    exact hle
  have hunpack : unpackbits s.cfg.obufCap.toNat
      (((s.restored r).accept (encode .unpack)).input.drop (BitVec.ofNat 64 r.payoff).toNat) r.pres
      r.len (canon r.pres r.len) (BitVec.ofNat 9 r.nsym).toNat (BitVec.ofNat 8 r.pad).toNat
      (BitVec.ofNat 64 r.origlen).toNat = .ok out := by
    rwa [hin, hnsym, horiglen, hpad, hpayoff]
  refine ⟨_, exec_of_effect_ok (unpackEffect_ok.mpr ⟨rfl, hcap, hoff, out, hunpack, rfl⟩), ?_⟩
  have hlen : BitVec.ofNat 64 out.length = BitVec.ofNat 64 r.origlen := by
    rw [(unpackbits_length hout).1]
  rw [State.decodedState, State.output, hlen]
  rfl

/-- Settles O57: UNPACK after PARSE and CANON reads the same payload by the same tables, and what DECODE
leaves alone is its row of R44. -/
theorem decodeResult : Obligations.DecodeResult := by
  refine ⟨decode_eq_ok.mpr rfl, fun s t h herr => ?_, fun s => ⟨fun hover => ?_, fun hcap =>
    ⟨fun e he => ?_, fun r hr => ⟨fun e he => ?_, fun out hout => ?_⟩⟩⟩⟩
  · obtain ⟨hcap, r, out, hdec, rfl⟩ := decode_ok_of_exec h herr
    rw [State.accept_input] at hdec
    obtain ⟨a, ha, hb⟩ := issue_restored hcap (decodeBlob_ok.mp hdec).1
    obtain ⟨c, hc, ht⟩ := issue_unpack_restored (encode .decode) hcap hdec
    exact ⟨a, _, c, ha, hb, hc, ht⟩
  · exact raises_decode_badArgument hover
  · exact raises_decode hcap (decodeBlob_error.mpr (.inl he))
  · refine ⟨raises_decode hcap (decodeBlob_error.mpr (.inr ⟨r, hr, he⟩)), ?_⟩
    obtain ⟨h7, h0, hempty⟩ := parse_unpackable hr
    exact unpackbits_error_of_count h7 h0 hempty (by rwa [parse_presentCount hr])
  · have hdec := decodeBlob_ok.mpr ⟨hr, hout⟩
    have hnext := exec_decode_next hcap hdec
    obtain ⟨hnsym, horiglen, hpad, hpayoff, -⟩ := parse_fits hr
    obtain ⟨hhost, hfreq, -, -, -, -, -, -, -⟩ := commandFrames _ _ _ hnext
    exact ⟨_, hnext, rfl, outputIs_decodedState s hdec, (unpackbits_length hout).1, rfl, rfl, hnsym,
      horiglen, hpad, hpayoff, rfl, hhost, hfreq (by decide)⟩

/-! #### The order of the entries (R214) -/

/-- `parse` does not see the order of the entries. -/
theorem parse_perm (after : List Byte) (hes : es.length ≤ 256) (h : es.Perm es') :
    parse v (blobOfEntries v es after) = parse v (blobOfEntries v es' after) := by
  have hnil : es = [] ↔ es' = [] := ⟨fun he => (he ▸ h).nil_eq.symm, fun he => (he ▸ h).eq_nil⟩
  have hfixed : ∀ p l, parseFixed (blobOfEntries v es after) es.length p l =
      parseFixed (blobOfEntries v es' after) es'.length p l := fun p l => by
    rw [parseFixed_blobOfEntries, parseFixed_blobOfEntries, h.length_eq]
    simp only [hnil]
  rw [parse_blobOfEntries v after hes, parse_blobOfEntries v after (h.length_eq ▸ hes),
    loadEntries_perm h]
  simp only [hfixed]
  rw [h.length_eq]

/-- Nor does what follows `parse`, which looks at the payload alone. -/
theorem decodeBlob_perm (after : List Byte) (hes : es.length ≤ 256) (h : es.Perm es') :
    decodeBlob v cap (blobOfEntries v es after) = decodeBlob v cap (blobOfEntries v es' after) := by
  have hpayload : ∀ es : List (Symbol × Byte),
      (blobOfEntries v es after).drop (12 + 2 * es.length) = after.drop 9 := fun es => by
    have hpre : (blobOfEntries v es []).length = 3 + 2 * es.length := blobOfEntries_length v es []
    rw [blobOfEntries_append, show 12 + 2 * es.length = 3 + 2 * es.length + 9 by omega,
      ← List.drop_drop, List.drop_left' hpre]
  rw [decodeBlob, decodeBlob, parse_perm after hes h]
  cases hr : parse v (blobOfEntries v es' after) with
  | error e => rfl
  | ok r =>
    obtain ⟨-, -, hfixed⟩ := (parse_blobOfEntries_ok (h.length_eq ▸ hes)).mp hr
    obtain ⟨-, -, -, -, -, -, -, hpayoff, -, -⟩ := parseFixed_blobOfEntries_ok.mp hfixed
    have hsame : (blobOfEntries v es after).drop r.payoff =
        (blobOfEntries v es' after).drop r.payoff := by
      rw [hpayoff, hpayload, ← h.length_eq, hpayload]
    simp only [hsame, bind, Except.bind]

/-- Where the inputs decode alike, DECODE shows the host the same error or the same output. -/
theorem decode_shows_same (hcfg : s.cfg = s'.cfg) (hlen : s.ibufLen = s'.ibufLen)
    (hdec : decodeBlob s.cfg.formatVersion s.cfg.obufCap.toNat s.input =
      decodeBlob s.cfg.formatVersion s.cfg.obufCap.toNat s'.input)
    (h : exec .decode s = .next t) (h' : exec .decode s' = .next t') :
    t.status.err = t'.status.err ∧ t.status.errcode = t'.status.errcode ∧
      t.outputBytes = t'.outputBytes := by
  by_cases hcap : s.ibufLen ≤ s.cfg.ibufCap
  case neg =>
    have hover := BitVec.not_le.mp hcap
    cases (raises_decode_badArgument hover).symm.trans h
    rw [hcfg, hlen] at hover
    cases (raises_decode_badArgument hover).symm.trans h'
    exact ⟨rfl, rfl, rfl⟩
  case pos =>
    have hcap' : s'.ibufLen ≤ s'.cfg.ibufCap := hcfg ▸ hlen ▸ hcap
    cases hs : decodeBlob s.cfg.formatVersion s.cfg.obufCap.toNat s.input with
    | error e =>
      rw [hs, hcfg] at hdec
      cases (raises_decode hcap hs).symm.trans h
      cases (raises_decode hcap' hdec.symm).symm.trans h'
      exact ⟨rfl, rfl, rfl⟩
    | ok found =>
      rw [hs, hcfg] at hdec
      cases (exec_decode_next hcap hs).symm.trans h
      cases (exec_decode_next hcap' hdec.symm).symm.trans h'
      exact ⟨rfl, rfl, (outputIs_decodedState s hs).2.trans
        (outputIs_decodedState s' hdec.symm).2.symm⟩

/-- Settles O52: the entries are only looked up, and what stands after them does not move. -/
theorem tableOrderDoesNotMatter : Obligations.TableOrderDoesNotMatter := by
  refine ⟨fun v es es' after hes h => ⟨parse_perm after hes h, parse_duplicate after hes⟩, ?_⟩
  intro s s' t t' es es' after hcfg hes h hin hin' ht ht'
  have hlen : s.ibufLen = s'.ibufLen := BitVec.eq_of_toNat_eq (by
    rw [← State.input_length, ← State.input_length, hin, hin', blobOfEntries_length,
      blobOfEntries_length, h.length_eq])
  exact decode_shows_same hcfg hlen (by rw [hin, hin', decodeBlob_perm after hes h]) ht ht'

/-! #### DECODE inverts SERIALIZE and ENCODE (R222) -/

/-- The blob of data packed with the canonical code of tables (R194, R197). -/
def packedBlob (v : Byte) (pres : Table Bool) (len : Table Byte) (d : List Byte) : List Byte :=
  let w := packbits len (canon pres len) d
  blob v pres len (presentCount pres) d.length w.2 w.1

/-- The tables are legal and have the symbols of the data, whose length fits the blob's 8 bytes. -/
structure Packable (pres : Table Bool) (len : Table Byte) (d : List Byte) : Prop where
  legal : LegalTable pres len
  present : ∀ x ∈ d, pres.get x = true
  length : d.length < 2 ^ 64

theorem State.input_length_lt (s : State) : s.input.length < 2 ^ 64 :=
  s.input_length ▸ s.ibufLen.isLt

theorem State.input_length_le {cap : Word64} (h : s.ibufLen ≤ cap) : s.input.length ≤ cap.toNat :=
  s.input_length ▸ h

/-- What SERIALIZE writes is a packed blob, with any tables that satisfy R37. -/
theorem State.serialized_packable (h : TableInv s) (hcv : s.status.cv = true)
    (hpres : ∀ x ∈ s.input, s.pres.get x = true) :
    s.serialized = packedBlob s.cfg.formatVersion s.pres s.len s.input ∧
      Packable s.pres s.len s.input := by
  obtain ⟨hn, hleg, hcode⟩ := tableInv_iff.mp h
  rw [hcv, if_pos rfl] at hcode
  refine ⟨?_, hleg, hpres, s.input_length_lt⟩
  rw [State.serialized, packedBlob, State.input_length, hn, hcode]

/-- The tables that ENCODE builds are legal, and have the symbols of its input (R130). -/
theorem State.input_packable (s : State) :
    Packable (lengths (count s.input)).1 (lengths (count s.input)).2 s.input :=
  ⟨lengths_legal _, lengths_count_input_present s, s.input_length_lt⟩

section Packed

variable {d : List Byte} (hd : Packable pres len d)
include hd

theorem Packable.length_eq_zero (hn : presentCount pres = 0) : d.length = 0 := by
  rw [eq_nil_of_presentCount_eq_zero hn hd.present, List.length_nil]

/-- A packed blob gives the data back (R222). -/
theorem decodeBlob_packedBlob (hfit : d.length ≤ cap) :
    ∃ r, decodeBlob v cap (packedBlob v pres len d) = .ok (r, d) := by
  obtain ⟨h7, h0⟩ := packbits_legalPadding len (canon pres len) d
  obtain ⟨-, -, -, -, -, -, -, hpayload⟩ := blobLayout v pres len d.length _
    (packbits len (canon pres len) d).1 hd.length h7
  refine ⟨_, decodeBlob_ok.mpr ⟨parse_blob v hd.legal hd.length h7 h0 hd.length_eq_zero, ?_⟩⟩
  rw [packedBlob]
  dsimp only
  rw [hpayload]
  exact unpackInvertsPack pres len d cap hd.legal hd.present hfit

/-- DECODE of a packed blob ends with the data as its output (R222). -/
theorem exec_decode_packedBlob (hin : s'.input = packedBlob s'.cfg.formatVersion pres len d)
    (hcap : s'.ibufLen ≤ s'.cfg.ibufCap) (hroom : d.length ≤ s'.cfg.obufCap.toNat) :
    ∃ t', exec .decode s' = .next t' ∧ t'.status.err = false ∧ t'.outputBytes = d := by
  obtain ⟨r, hdec⟩ := decodeBlob_packedBlob (v := s'.cfg.formatVersion) hd hroom
  rw [← hin] at hdec
  exact ⟨_, exec_decode_next hcap hdec, rfl, (outputIs_decodedState s' hdec).2⟩

end Packed

/-- A SERIALIZE that ends without error met a codebook and an input of present symbols, and its output is
its blob (R194). -/
theorem serialize_ok_of_exec (h : exec .serialize s = .next t) (herr : t.status.err = false) :
    s.status.cv = true ∧ (∀ x ∈ s.input, s.pres.get x = true) ∧ t.outputBytes = s.serialized := by
  rcases exec_cases h with ⟨u, hu, rfl⟩ | ⟨e, -, rfl⟩
  · obtain ⟨hcv, -, hpres, hfit, rfl⟩ := serializeEffect_ok.mp hu
    exact ⟨hcv, hpres, State.outputBytes_of rfl (toNat_ofNat_of_le hfit)⟩
  · simp at herr

/-- An ENCODE that ends without error leaves the state of R198, whose output is `encode(d)`. -/
theorem encode_ok_of_exec (h : exec .encode s = .next t) (herr : t.status.err = false) :
    t = s.encodedState.finish ∧ OutputIs t (packedBlob s.cfg.formatVersion
      (lengths (count s.input)).1 (lengths (count s.input)).2 s.input) := by
  rcases exec_cases h with ⟨u, hu, rfl⟩ | ⟨e, -, rfl⟩
  · obtain ⟨-, hfit, rfl⟩ := encodeEffect_ok.mp hu
    have hlen := toNat_ofNat_of_le hfit
    have hout : s.encoded = packedBlob s.cfg.formatVersion (lengths (count s.input)).1
        (lengths (count s.input)).2 s.input := s.encoded_eq_encodeBlob
    exact ⟨rfl, hout ▸ ⟨hlen, State.outputBytes_of rfl hlen⟩⟩
  · simp at herr

/-- Settles O59: tables that satisfy R37 are legal, and CODE is their canonical code. -/
theorem decodeInvertsSerialize : Obligations.DecodeInvertsSerialize := by
  intro s t s' hinv h herr hversion hin hcap hroom
  obtain ⟨hcv, hpres, hout⟩ := serialize_ok_of_exec h herr
  obtain ⟨hblob, hd⟩ := State.serialized_packable hinv hcv hpres
  exact exec_decode_packedBlob hd (by rw [hin, hout, hblob, hversion]) hcap
    (State.input_length_le hroom)

/-- Settles O58: the tables that ENCODE builds are legal, and have a code for each byte of the input. -/
theorem decodeInvertsEncode : Obligations.DecodeInvertsEncode := by
  intro s t s' h herr hversion hin hcap hroom
  obtain ⟨-, -, hout⟩ := encode_ok_of_exec h herr
  exact exec_decode_packedBlob s.input_packable (by rw [hin, hout, hversion]) hcap
    (State.input_length_le hroom)

/-! #### A blob without its last byte (R223) -/

theorem blob_dropLast (v : Byte) (pres : Table Bool) (len : Table Byte) (nsym n pad : Nat)
    (hq : q ≠ []) :
    (blob v pres len nsym n pad q).dropLast = blob v pres len nsym n pad q.dropLast :=
  List.dropLast_append_of_ne_nil hq

section Truncated

variable {d : List Byte} (hd : Packable pres len d)
include hd

/-- Where the payload loses its last byte, the code bits run out, or a padding is left alone. -/
theorem decodeBlob_packedBlob_dropLast (hfit : d.length ≤ cap)
    (hq : (packbits len (canon pres len) d).1 ≠ []) :
    decodeBlob v cap (packedBlob v pres len d).dropLast =
      if (packbits len (canon pres len) d).1.length = 1 ∧ (packbits len (canon pres len) d).2 ≠ 0
      then .error .invalidPadding else .error .truncatedPayload := by
  obtain ⟨h7, -⟩ := packbits_legalPadding len (canon pres len) d
  obtain ⟨-, -, hbits, -⟩ := packPadding len (canon pres len) d
  rw [packedBlob, blob_dropLast v pres len _ _ _ hq]
  generalize hpack : packbits len (canon pres len) d = w at *
  have hlen : w.1.dropLast.length + 1 = w.1.length := by
    rw [List.length_dropLast]
    exact Nat.sub_add_cancel (List.length_pos_iff.mpr hq)
  split_ifs with hlast
  · have hnil : w.1.dropLast = [] := List.length_eq_zero_iff.mp (by omega)
    rw [hnil]
    exact decodeBlob_error.mpr
      (.inl (parse_blob_paddingAlone hd.legal hd.length h7 hlast.2 hd.length_eq_zero))
  · have h0 : w.1.dropLast = [] → w.2 = 0 := fun hnil => by
      rw [hnil, List.length_nil] at hlen
      by_contra hne
      exact hlast ⟨hlen.symm, hne⟩
    obtain ⟨-, -, -, -, -, -, -, hpayload⟩ :=
      blobLayout v pres len d.length w.2 w.1.dropLast hd.length h7
    refine decodeBlob_error.mpr
      (.inr ⟨_, parse_blob v hd.legal hd.length h7 h0 hd.length_eq_zero, ?_⟩)
    dsimp only
    rw [hpayload]
    exact unpackbits_truncated hd.legal hd.present hfit h7 h0
      (hpack ▸ List.dropLast_prefix _) (by omega)

end Truncated

theorem packbits_nil (len : Table Byte) (code : Table CodeWord) : packbits len code [] = ([], 0) := by
  simp [packbits, codeStream, padOf, bytesOfBits]

/-- The blob of no data has no payload, so it loses its padding byte. -/
theorem decodeBlob_packedBlob_nil_dropLast (hleg : LegalTable pres len) :
    decodeBlob v cap (packedBlob v pres len []).dropLast = .error .corruptHeader := by
  rw [packedBlob, packbits_nil]
  exact decodeBlob_error.mpr (.inl (parse_blob_withoutPadding hleg))

/-- The registers that ENCODE leaves give the length of its payload and the padding (R192, R198). -/
theorem encode_payload (h : exec .encode s = .next t) (herr : t.status.err = false) :
    let pl := lengths (count s.input)
    let w := packbits pl.2 (canon pl.1 pl.2) s.input
    t.obufLen.toNat - (12 + 2 * t.nsym.toNat) = w.1.length ∧ (t.pad = 0 ↔ w.2 = 0) := by
  obtain ⟨rfl, hlen, -⟩ := encode_ok_of_exec h herr
  rw [packedBlob, blob_length] at hlen
  refine ⟨?_, ?_⟩
  · rw [hlen, State.finish_nsym, State.encodedState_nsym, presentCount_ofNat]
    exact Nat.add_sub_cancel_left _ _
  · rw [State.finish_pad, State.encodedState_pad, ← BitVec.toNat_inj, packbits_pad_toNat]
    rfl

/-- Settles O60: the registers that ENCODE leaves tell the length of its payload and the padding, and what
is left of the payload decides. -/
theorem truncatedBlob : Obligations.TruncatedBlob := by
  intro s t s' h herr hversion hin hcap hroom
  obtain ⟨hm, hpad⟩ := encode_payload h herr
  obtain ⟨-, -, hout⟩ := encode_ok_of_exec h herr
  rw [hout, ← hversion] at hin
  have hcut := decodeBlob_packedBlob_dropLast (v := s'.cfg.formatVersion) s.input_packable
    (State.input_length_le hroom)
  rw [← hin, ← List.length_pos_iff] at hcut
  dsimp only
  rw [hm, Ne, hpad]
  refine ⟨fun hlong => raises_decode hcap ?_, fun hone hne => raises_decode hcap ?_,
    fun hnil => raises_decode hcap ?_⟩
  · rw [hcut (by omega), if_neg (by omega)]
  · rw [hcut (by omega), if_pos ⟨hone, hne⟩]
  · rw [hin, hnil]
    exact decodeBlob_packedBlob_nil_dropLast (lengths_legal _)

end Sys2Proof.Machine

/-! ### The errors of each command (R246, R254), and NOP and CLEAR (R241, R242) -/

namespace Sys2Proof.Machine

variable {pres : Table Bool} {len : Table Byte} {code : Table CodeWord} {cap : Nat} {e : CmdError}

/-! #### What the loops, the unpacker and `parse` can raise (R158, R173, R212) -/

/-- Bytes that are not all present have a first one that is not. -/
theorem exists_first_absent {d : List Byte} (h : ¬ ∀ x ∈ d, pres.get x = true) :
    ∃ before x after, d = before ++ x :: after ∧ (∀ y ∈ before, pres.get y = true) ∧
      pres.get x = false := by
  cases hfind : d.find? fun x => !pres.get x with
  | none => exact absurd (by simpa using hfind) h
  | some x =>
    obtain ⟨hx, before, after, rfl, hbefore⟩ := List.find?_eq_some_iff_append.mp hfind
    exact ⟨before, x, after, rfl, by simpa using hbefore, by simpa using hx⟩

/-- PACK's loops fail at the first byte that is not present or before it, and else only by the capacity
(R158). -/
theorem packLoop_error {d : List Byte} (h : packLoop cap pres len code d = .error e) :
    e = .noCode ∨ e = .noSpace := by
  by_cases hd : ∀ x ∈ d, pres.get x = true
  case pos =>
    rw [packLoop_eq cap hd] at h
    split_ifs at h
    cases h
    exact .inr rfl
  case neg =>
    obtain ⟨before, x, after, rfl, hbefore, hx⟩ := exists_first_absent hd
    by_cases hfit : codeBitCount len before / 8 ≤ cap
    · rw [packLoop_noCode after hbefore hfit hx] at h
      cases h
      exact .inl rfl
    · rw [packLoop_noSpace (x :: after) hbefore (Nat.not_le.mp hfit)] at h
      cases h
      exact .inr rfl

/-- The errors of the unpacker: its tests raise two, and its loops two (R173, R176). -/
theorem unpackbits_error_mem {p : List Byte} {nsym pad count : Nat}
    (h : unpackbits cap p pres len code nsym pad count = .error e) :
    e ∈ [.corruptSymbolTable, .invalidPadding, .truncatedPayload, .noSpace] := by
  by_cases hbad : 7 < pad ∨ p = [] ∧ 0 < pad
  case pos =>
    rw [unpackbits_badPadding hbad] at h
    split_ifs at h <;> cases h <;> decide
  case neg =>
    have h0 : p = [] → pad = 0 := fun hp =>
      Nat.eq_zero_of_not_pos fun hpos => hbad (.inr ⟨hp, hpos⟩)
    rcases unpackbits_cases (by omega) h0 pres len code nsym with hempty | ⟨σ, next, place, hloop⟩
    · rw [hempty] at h
      split_ifs at h
      cases h
      decide
    · rw [hloop] at h
      rcases unpackLoop_error h with rfl | ⟨rfl, -⟩ <;> decide

/-- A symbol table is refused only for a duplicate (R212, R214). -/
theorem readTable_error {b : List Byte} {n off : Nat} {p : Table Bool} {l : Table Byte}
    (h : readTable b n off p l = .error e) : e = .corruptSymbolTable := by
  induction n generalizing off p l with
  | zero => cases h
  | succ n ih =>
    rw [readTable] at h
    split_ifs at h
    · cases h
      rfl
    · exact ih h

theorem parseFixed_error_mem {b : List Byte} {c : Nat} (h : parseFixed b c pres len = .error e) :
    e ∈ [.corruptHeader, .corruptSymbolTable, .invalidPadding] := by
  rw [parseFixed] at h
  dsimp only at h
  split_ifs at h <;> cases h <;> decide

/-- The errors of `parse`: those of its table and of the fields after it, and of its own tests (R212). -/
theorem parse_error_mem {v : Byte} {b : List Byte} (h : parse v b = .error e) :
    e ∈ [.unsupportedFormatVersion, .corruptHeader, .corruptSymbolTable, .invalidPadding] := by
  rw [parse] at h
  dsimp only at h
  split_ifs at h
  case neg =>
    split at h
    · next ht =>
      cases h
      simp [readTable_error ht]
    · split_ifs at h
      · exact List.mem_cons_of_mem _ (parseFixed_error_mem h)
      · cases h
        decide
  all_goals
    cases h
    decide

/-! #### Every command ends (R246) -/

/-- A command fails only with an error of its row of R254. -/
theorem effect_error_mem {i : Instr} {s : State} (h : effect i s = .error e) : e ∈ errorsOf i := by
  cases i with
  | nop => cases h
  | clear => cases h
  | build => cases h
  | canon => cases h
  | analyze =>
    obtain ⟨-, rfl⟩ := analyzeEffect_error.mp h
    decide
  | pack =>
    rcases packEffect_error.mp h with ⟨-, rfl⟩ | ⟨-, -, rfl⟩ | ⟨-, -, hloop⟩
    · decide
    · decide
    · rcases packLoop_error hloop with rfl | rfl <;> decide
  | unpack =>
    rcases unpackEffect_error.mp h with ⟨-, rfl⟩ | ⟨-, -, rfl⟩ | ⟨-, -, -, hbits⟩
    · decide
    · decide
    · have hsub : [.corruptSymbolTable, .invalidPadding, .truncatedPayload, .noSpace] ⊆
          errorsOf .unpack := by decide
      exact hsub (unpackbits_error_mem hbits)
  | serialize =>
    rcases serializeEffect_error.mp h with ⟨-, rfl⟩ | ⟨-, -, rfl⟩ | ⟨-, -, -, rfl⟩ | ⟨-, -, -, -, rfl⟩
    all_goals decide
  | parse =>
    rcases parseEffect_error.mp h with ⟨-, rfl⟩ | ⟨-, hparse⟩
    · decide
    · exact List.mem_append_left [.badArgument] (parse_error_mem hparse)
  | encode =>
    rcases encodeEffect_error.mp h with ⟨-, rfl⟩ | ⟨-, -, rfl⟩
    all_goals decide
  | decode =>
    rcases decodeEffect_error.mp h with ⟨-, rfl⟩ | ⟨-, hparse | ⟨r, -, hbits⟩⟩
    · decide
    · have hsub : [.unsupportedFormatVersion, .corruptHeader, .corruptSymbolTable, .invalidPadding] ⊆
          errorsOf .decode := by decide
      exact hsub (parse_error_mem hparse)
    · have hsub : [.corruptSymbolTable, .invalidPadding, .truncatedPayload, .noSpace] ⊆
          errorsOf .decode := by decide
      exact hsub (unpackbits_error_mem hbits)

/-- Settles O18: a command ends with its effect or by `raise`, which set STATUS, and its effect fails only
with an error of its row. -/
theorem everyCommandEnds : Obligations.EveryCommandEnds := by
  intro i s
  rw [exec_eq_conclude]
  rcases conclude_cases s (effect i s) with ⟨u, -, hnext⟩ | ⟨e, he, hnext⟩
  · exact ⟨_, hnext, rfl, rfl, .inl ⟨rfl, rfl⟩⟩
  · exact ⟨_, hnext, rfl, rfl, .inr ⟨e, effect_error_mem he, rfl, rfl⟩⟩

/-! #### NOP and CLEAR (R241, R242) -/

/-- NOP only ends, in every state (R241). -/
theorem exec_nop (s : State) : exec .nop s = .next s.finish := exec_of_effect_ok rfl

/-- CLEAR ends with the registers cleared, in every state (R242). -/
theorem exec_clear (s : State) : exec .clear s = .next (clearEffect s).finish :=
  exec_of_effect_ok rfl

/-- Settles O23: NOP can not fail, and its row of R44 leaves every register alone. -/
theorem nopResult : Obligations.NopResult := by
  refine ⟨decode_eq_ok.mpr rfl, fun s => ?_⟩
  have hnext := exec_nop s
  obtain ⟨hhost, hfreq, htables, hcodes, horiglen, hpad, hpayoff, hout, -⟩ := commandFrames _ _ _ hnext
  exact ⟨_, hnext, rfl, hhost, hfreq (by decide), htables (by decide), (hcodes (by decide)).1,
    horiglen (by decide), hpad (by decide), hpayoff (by decide), hout (by decide) rfl⟩

/-- Settles O24: CLEAR can not fail, the tables it loads are zero everywhere, and the bytes of OBUF are among
what it leaves alone (R44). -/
theorem clearResult : Obligations.ClearResult := by
  refine ⟨decode_eq_ok.mpr rfl, fun s => ?_⟩
  have hnext := exec_clear s
  obtain ⟨hhost, -, -, -, -, -, -, -, hbytes⟩ := commandFrames _ _ _ hnext
  have hzero : ∀ x, (clearEffect s).freq.get x = 0 ∧ (clearEffect s).pres.get x = false ∧
      (clearEffect s).len.get x = 0 ∧ (clearEffect s).code.get x = 0 := fun x =>
    ⟨Table.get_const 0 x, Table.get_const false x, Table.get_const 0 x, Table.get_const 0 x⟩
  exact ⟨_, hnext, rfl, hhost, hzero, rfl, rfl, rfl, rfl, rfl, hbytes rfl⟩

end Sys2Proof.Machine

/-! ### Failed commands (R251, R256, R259) -/

namespace Sys2Proof.Machine

/-! #### The error numbers (R251) -/

/-- The errors in the order of the table of R251. -/
def CmdError.all : List CmdError :=
  [.unsupportedFormatVersion, .corruptHeader, .corruptSymbolTable, .truncatedPayload, .invalidPadding,
    .illegalCommand, .noCode, .badArgument, .noSpace, .notReady]

theorem CmdError.mem_all (e : CmdError) : e ∈ CmdError.all := by
  cases e <;> decide

/-- "no two share a number" (R251). -/
theorem CmdError.number_injective : Function.Injective number := by
  have hnodup : (CmdError.all.map number).Nodup := by decide
  exact fun e e' => List.inj_on_of_nodup_map hnodup e.mem_all e'.mem_all

/-- The numbers 6, 7, 13, 14 and 15 are reserved, and 0 says that there is no error (R251). -/
theorem CmdError.number_not_reserved (e : CmdError) : e.number ∉ [0, 6, 7, 13, 14, 15] := by
  have hall : ∀ x ∈ CmdError.all, x.number ∉ [0, 6, 7, 13, 14, 15] := by decide
  exact hall e e.mem_all

/-- Settles O17: the numbers of the table, of which no two are equal and none is reserved. -/
theorem errorNumbers : Obligations.ErrorNumbers :=
  ⟨rfl, rfl, rfl, rfl, rfl, rfl, rfl, rfl, rfl, rfl,
    fun e _ => ⟨fun h => CmdError.number_injective h, e.number_not_reserved⟩⟩

variable {s t : State}

/-! #### What a failed command leaves (R256) -/

/-- A command that ends with ERR = 1 ended by `raise` (R256). -/
theorem exec_err_eq_raise {i : Instr} (h : exec i s = .next t) (herr : t.status.err = true) :
    ∃ e, t = s.raise e := by
  rcases exec_cases h with ⟨u, -, rfl⟩ | ⟨e, -, ht⟩
  · rw [State.finish_status, Status.ended_err] at herr
    cases herr
  · exact ⟨e, ht⟩

/-- Settles O19: a command fails only by `raise`, which writes STATUS and OBUF_LEN and drops the output. -/
theorem failedCommandChangesNothingElse : Obligations.FailedCommandChangesNothingElse := by
  intro i s t h herr
  obtain ⟨e, rfl⟩ := exec_err_eq_raise h herr
  exact ⟨e, rfl, rfl, hostSideKept_raise s e, rfl, ⟨rfl, rfl, rfl⟩, rfl, rfl, rfl, rfl⟩

/-! #### What changes STATUS, and the next command after an error (R259) -/

/-- No register write of the host other than to CMD writes STATUS (R32, R35). -/
@[simp] theorem State.writeReg_status (s : State) (v : Word64) (r : Reg) :
    (s.writeReg v r).status = s.status := by
  cases r <;> rfl

/-- The events that may change STATUS on an idle machine: a CMD write, run at once or only started, and the
reset input (R259). -/
def HostEvent.StartsOrResets (e : HostEvent) : Prop :=
  (∃ v, e = .regWrite 0x0000 v) ∨ (∃ w, e = .cmdStart w) ∨ e = .reset

/-- On an idle machine every other event leaves STATUS alone (R259). -/
theorem hostEvent_idle_status {e : HostEvent} (hb : s.status.busy = false)
    (he : ¬ e.StartsOrResets) (h : hostEvent e s = .next t) : t.status = s.status := by
  cases e
  case cmdStart w => exact absurd (.inr (.inl ⟨w, rfl⟩)) he
  case reset => exact absurd (.inr (.inr rfl)) he
  case regWrite index v =>
    have hindex : regAt index ≠ .cmd := fun hc => he (.inl ⟨v, by rw [regAt_eq_cmd.mp hc]⟩)
    rw [hostEvent, hostRegWrite_idle hb hindex] at h
    cases h
    exact s.writeReg_status v _
  case' regRead index => rw [hostEvent, hostRegRead_idle hb] at h
  case' ibufWrite a b =>
    rw [hostEvent, hostIbufWrite_idle hb] at h
    split_ifs at h
  case' ibufRead a =>
    rw [hostEvent, hostIbufRead_idle hb] at h
    split_ifs at h
  case' obufRead a =>
    rw [hostEvent, hostObufRead_idle hb] at h
    split_ifs at h
  case' obufReadValid => rw [hostEvent, hostObufReadValid_idle hb] at h
  case' cmdEnd => rw [hostEvent, engineEnd_idle hb] at h
  all_goals
    cases h
    rfl

/-- An accepted CMD write clears what `raise` wrote to STATUS, so only the emptied output remains of the
error (R81, R259). -/
theorem State.accept_raise (w : Word32) (e : CmdError) (s : State) :
    (s.raise e).accept w =
      State.accept w { s with obufLen := 0, obuf := [], draws := s.draws + 1 } := rfl

/-- Settles O20: an idle step leaves STATUS alone unless its event starts a command or resets, and accepting
the next command clears the error. -/
theorem errorStaysAndDoesNotBlock : Obligations.ErrorStaysAndDoesNotBlock := by
  refine ⟨fun s t hb h hne => ?_, fun s e i => congrArg (exec i) (s.accept_raise (encode i) e)⟩
  cases hp : s.pending with
  | nil =>
    rw [step_nil hp, engineEnd_idle hb] at h
    cases h
    exact absurd rfl hne
  | cons e rest =>
    rw [step_cons hp] at h
    have he : e.StartsOrResets := by
      by_contra hother
      exact hne (hostEvent_idle_status (s := { s with pending := rest }) hb hother h)
    exact ⟨e, rest, rfl, he⟩

end Sys2Proof.Machine

/-! ### Accesses while a command runs, and stale codebooks (R285 to R287) -/

namespace Sys2Proof.Machine

variable {s t : State}

/-! #### Writes on a busy machine are ignored (R285, R286) -/

theorem hostRegWrite_busy (h : s.status.busy = true) (index : BitVec 16) (v : Word64) :
    hostRegWrite index v s = .next s := by
  rw [hostRegWrite, if_pos h]

theorem hostCmdStart_busy (h : s.status.busy = true) (w : Word32) : hostCmdStart w s = .next s := by
  rw [hostCmdStart, if_pos h]

theorem hostIbufWrite_busy (h : s.status.busy = true) (a : Word64) (b : Byte) :
    hostIbufWrite a b s = .next s := by
  rw [hostIbufWrite, if_pos h]

/-! #### Reads on a busy machine: STATUS, and free values (R286, log 8) -/

theorem hostRegRead_busy_status (h : s.status.busy = true) :
    hostRegRead 0x0001 s = .next (s.observe (s.status.word.setWidth 64)) := by
  rw [hostRegRead, h, regAt_eq_status.mpr rfl]
  rfl

theorem hostRegRead_busy (h : s.status.busy = true) {index : BitVec 16} (hi : index ≠ 0x0001) :
    hostRegRead index s = .next s.observeBusy := by
  have hreg : (regAt index != .status) = true := bne_iff_ne.mpr fun hc => hi (regAt_eq_status.mp hc)
  rw [hostRegRead, h, hreg, Bool.and_self, if_pos rfl]

theorem hostIbufRead_busy (h : s.status.busy = true) (a : Word64) :
    hostIbufRead a s = .next s.observeBusy := by
  rw [hostIbufRead, if_pos h]

theorem hostObufRead_busy (h : s.status.busy = true) (a : Word64) :
    hostObufRead a s = .next s.observeBusy := by
  rw [hostObufRead, if_pos h]

theorem hostObufReadValid_busy (h : s.status.busy = true) :
    hostObufReadValid s = .next s.observeBusy := by
  rw [hostObufReadValid, if_pos h]

/-- STATUS as a word right after an accepted CMD write: BUSY, and the CV of before (R32, R81). -/
theorem Status.accepted_word (st : Status) : st.accepted.word = if st.cv then 0x09 else 0x01 := by
  have hword : ∀ cv : Bool, Status.word
      { busy := true, done := false, err := false, cv := cv, errcode := 0 } =
        if cv then 0x09 else 0x01 := by decide
  exact hword st.cv

/-- Settles O13: each access but a STATUS read looks at BUSY first, and accepting a command keeps
only CV of the old STATUS. -/
theorem handsOffWhileBusy : Obligations.HandsOffWhileBusy := by
  refine ⟨fun s h => ⟨hostRegWrite_busy h, hostCmdStart_busy h, hostIbufWrite_busy h,
    hostRegRead_busy_status h, fun e he => ?_⟩, fun s _ => s.status.accepted_word⟩
  obtain ⟨index, hi, rfl⟩ | ⟨a, rfl⟩ | ⟨a, rfl⟩ | rfl := he
  · exact hostRegRead_busy h hi
  · exact hostIbufRead_busy h a
  · exact hostObufRead_busy h a
  · exact hostObufReadValid_busy h

/-! #### No command uses a stale codebook (R287) -/

/-- A PARSE that ends without error leaves no codebook (R213). -/
theorem parse_clears_codebook (h : exec .parse s = .next t) (herr : t.status.err = false) :
    t.status.cv = false ∧ ∀ x, t.code.get x = 0 := by
  rcases exec_cases h with ⟨u, hu, rfl⟩ | ⟨e, -, rfl⟩
  · obtain ⟨-, r, -, rfl⟩ := parseEffect_ok.mp hu
    exact ⟨rfl, Table.get_const 0⟩
  · simp at herr

/-- BUILD leaves no codebook (R127). -/
theorem build_clears_codebook (h : exec .build s = .next t) :
    t.status.cv = false ∧ ∀ x, t.code.get x = 0 := by
  rw [exec_build] at h
  cases h
  exact ⟨rfl, Table.get_const 0⟩

/-- Without CV the check for a codebook is the first to fail (R253). -/
theorem raises_notReady {i : Instr} (hi : i ∈ [.pack, .unpack, .serialize])
    (hcv : s.status.cv = false) : Raises i s .notReady := by
  refine exec_of_effect_error ?_
  obtain rfl | rfl | rfl : i = .pack ∨ i = .unpack ∨ i = .serialize := by simpa using hi
  · exact packEffect_error.mpr (.inl ⟨hcv, rfl⟩)
  · exact unpackEffect_error.mpr (.inl ⟨hcv, rfl⟩)
  · exact serializeEffect_error.mpr (.inl ⟨hcv, rfl⟩)

/-- Settles O22: the commands that load lengths clear CV, without which the codebook is refused, and with CV
the invariant makes CODE canonical (INV5). -/
theorem staleCodebookIsNotUsed : Obligations.StaleCodebookIsNotUsed := by
  refine ⟨fun i s t hi h herr => ?_, fun i s => raises_notReady, fun i s hi hs => ?_⟩
  · rcases hi with rfl | rfl
    · exact build_clears_codebook h
    · exact parse_clears_codebook h herr
  · cases hcv : s.status.cv with
    | false => exact .inl (raises_notReady hi hcv)
    | true => exact .inr ⟨rfl, hs.inv5.1 hcv⟩

end Sys2Proof.Machine
